-- ==== Sys2Proof/Word.lean ====
section
/-! DEFINITION. The word types of the LCDC and the grid extents that the source fixes (spec/00_scope.md R6, R9). -/

namespace Sys2Proof

/-- A serial byte, a command byte, a character code or a glyph row (`UInt8` of R8). -/
abbrev Byte := BitVec 8

/-- A request word, a color, a window bound or a GRAM cell (`UInt16` of R8). -/
abbrev Word := BitVec 16

/-- `W` of R6: display width in pixels. -/
abbrev dispW : Nat := 160

/-- `H` of R6: display height in pixels. -/
abbrev dispH : Nat := 128

end Sys2Proof
end

