-- ==== Sys2Proof/Config.lean ====
section
/-! DEFINITION. What one implementation fixes (the parameters of spec/00_scope.md R7) and the free values
that the spec leaves open. The parameters are plain data held in `Machine.State.cfg`, so that a statement
quantifies over all of them; `Config.standard` holds the defaults of R7. -/

namespace Sys2Proof

/-- The parameters of R7 that are numbers, and the D/C level of R110. No step of the machine changes one. -/
structure Config where
  /-- `OPC_SLPOUT` -/
  opcSlpout : Byte
  /-- `OPC_COLMOD` -/
  opcColmod : Byte
  /-- `OPC_MADCTL` -/
  opcMadctl : Byte
  /-- `OPC_DISPON` -/
  opcDispon : Byte
  /-- `OPC_CASET` -/
  opcCaset : Byte
  /-- `OPC_RASET` -/
  opcRaset : Byte
  /-- `OPC_RAMWR` -/
  opcRamwr : Byte
  /-- `PIXFMT_16` -/
  pixfmt16 : Byte
  /-- `MADCTL_VALUE` -/
  madctlValue : Byte
  /-- `T_RST_LOW` in ms -/
  tRstLow : Nat
  /-- `T_RST_HIGH` in ms -/
  tRstHigh : Nat
  /-- `T_SLPOUT` in ms -/
  tSlpout : Nat
  /-- `SPI_CLK_HZ` -/
  spiClkHz : Nat
  /-- The level of D/C for a command, R110 step 1; data has the other level (assumption 18). -/
  dcCommand : Bool
  deriving DecidableEq, Repr

/-- The minimums `T_RST_LOW_MIN`, `T_RST_HIGH_MIN` and `T_SLPOUT_MIN` of R6, in ms. -/
abbrev tRstLowMin : Nat := 50
/-- `T_RST_HIGH_MIN` of R6. -/
abbrev tRstHighMin : Nat := 50
/-- `T_SLPOUT_MIN` of R6. -/
abbrev tSlpoutMin : Nat := 120

/-- The seven command bytes, in the order of R7. -/
def Config.opcodes (c : Config) : List Byte :=
  [c.opcSlpout, c.opcColmod, c.opcMadctl, c.opcDispon, c.opcCaset, c.opcRaset, c.opcRamwr]

/-- The constraints R7 puts on its parameters: command bytes pairwise distinct, delays at least their minimums. -/
abbrev Config.Legal (c : Config) : Prop :=
  c.opcodes.Nodup ∧ tRstLowMin ≤ c.tRstLow ∧ tRstHighMin ≤ c.tRstHigh ∧ tSlpoutMin ≤ c.tSlpout

/-- FREE VALUE (assumption 6). `MADCTL_VALUE` has "no default (any byte)", R7. -/
opaque Config.anyMadctl : BitVec 8

/-- FREE VALUE (assumption 7). The Environment's answer `bus_claim_ok` to its n-th draw (R7, D9, I13). -/
opaque Config.busClaim : Nat → Bool

/-- FREE VALUE (assumption 8). Row r of the bitmap of a supported character (R141 item 4, N12). -/
opaque Config.glyphRow : BitVec 8 → Nat → BitVec 8

/-- FREE VALUE (assumption 8). Which uppercase letters beside 'H' the glyph ROM supports (R141 item 2). -/
opaque Config.letterSupported : BitVec 8 → Bool

/-- FREE VALUE (assumption 9). What operand register k would give while it holds ⊥ (R12, R32). -/
opaque Config.unsetWord : Nat → BitVec 16

/-- FREE VALUE (assumption 9). What TEXT register k would give while it holds ⊥ (R12, R32). -/
opaque Config.unsetChar : Nat → BitVec 8

/-- The defaults of R7 (PRESUMED, assumption 5: the command bytes and `PIXFMT_16` are from general knowledge). -/
def Config.standard : Config where
  opcSlpout := 0x11
  opcColmod := 0x3A
  opcMadctl := 0x36
  opcDispon := 0x29
  opcCaset := 0x2A
  opcRaset := 0x2B
  opcRamwr := 0x2C
  pixfmt16 := 0x05
  madctlValue := Config.anyMadctl
  tRstLow := 50
  tRstHigh := 50
  tSlpout := 120
  spiClkHz := 15000000
  dcCommand := false

end Sys2Proof
end

