-- ==== Sys2Proof/Syntax.lean ====
section
/-! DEFINITION. The instruction set: the nine requests of spec/30_encoding.md R82 and the seven Panel commands of
R91, one constructor for each row of spec/opcode_table.json, and the bus events of R90. -/

namespace Sys2Proof

/-- One request or one Panel command. Coordinates and sizes are exact integers (R8, R83); colors are 16-bit words;
characters are 8-bit codes. -/
inductive Instr where
  /-- INIT, R152 -/
  | init
  /-- CLEAR color, R153 -/
  | clear (color : Word)
  /-- DRAW_PIXEL x, y, color, R154 -/
  | drawPixel (x y : Int) (color : Word)
  /-- DRAW_GLYPH code, x, y, fg, bg, R155 -/
  | drawGlyph (code : Byte) (x y : Int) (fg bg : Word)
  /-- DRAW_TEXT text, x, y, fg, bg, R156 -/
  | drawText (text : List Byte) (x y : Int) (fg bg : Word)
  /-- DRAW_SMALL_BLOCK x, y, color, R157 -/
  | drawSmallBlock (x y : Int) (color : Word)
  /-- DRAW_HLINE x_start, x_end, y, color, R158 -/
  | drawHline (xs xe y : Int) (color : Word)
  /-- DRAW_VLINE y_start, y_end, x, color, R159 -/
  | drawVline (ys ye x : Int) (color : Word)
  /-- DRAW_SQUARE_OUTLINE center_x, center_y, size, color, R160 -/
  | drawSquareOutline (cx cy size : Int) (color : Word)
  /-- SLPOUT, R210 -/
  | slpout
  /-- COLMOD, R211 -/
  | colmod
  /-- MADCTL, R212 -/
  | madctl
  /-- DISPON, R213 -/
  | dispon
  /-- CASET, R214 -/
  | caset
  /-- RASET, R215 -/
  | raset
  /-- RAMWR, R216 -/
  | ramwr
  deriving DecidableEq, Repr

/-- The seven Panel commands of R91, as the Panel's own decoder names them. -/
inductive PanelCmd where
  | slpout | colmod | madctl | dispon | caset | raset | ramwr
  deriving DecidableEq, Repr

/-- The instruction a Panel command is. -/
def PanelCmd.toInstr : PanelCmd → Instr
  | .slpout => .slpout
  | .colmod => .colmod
  | .madctl => .madctl
  | .dispon => .dispon
  | .caset => .caset
  | .raset => .raset
  | .ramwr => .ramwr

/-- A bus event, R90: the whole Block-to-Panel interface. -/
inductive BusEvent where
  /-- `Rst(l)`: the reset line driven to level l -/
  | rst (level : Bool)
  /-- `Delay(ms)` -/
  | delay (ms : Nat)
  /-- `Cmd(b)` -/
  | cmd (b : Byte)
  /-- `Data(bs)` -/
  | data (bs : List Byte)
  deriving DecidableEq, Repr

/-- The machine form of an instruction: the words of a request packet (R80) or the byte of a Panel command (R91). -/
inductive Code where
  | packet (ws : List Word)
  | command (b : Byte)
  deriving DecidableEq, Repr

end Sys2Proof
end

