-- ==== Sys2Proof/WellFormed.lean ====
section
/-! DEFINITION. Which instructions a packet can carry (spec/30_encoding.md R83, R84). -/

namespace Sys2Proof

/-- An operand that `sext_16` of one word can give (R83): -32768 to 32767. -/
abbrev Operand16 (v : Int) : Prop := -32768 ≤ v ∧ v ≤ 32767

/-- A character count that ARG8 can hold (R83): 0 to 255. -/
abbrev TextLen (text : List Byte) : Prop := text.length ≤ 255

/-- The instruction has an encoding: every coordinate and size fits its 16-bit field, the text its 8-bit count. -/
def Instr.check : Instr → Bool
  | .init => true
  | .clear _ => true
  | .drawPixel x y _ => decide (Operand16 x ∧ Operand16 y)
  | .drawGlyph _ x y _ _ => decide (Operand16 x ∧ Operand16 y)
  | .drawText text x y _ _ => decide (TextLen text ∧ Operand16 x ∧ Operand16 y)
  | .drawSmallBlock x y _ => decide (Operand16 x ∧ Operand16 y)
  | .drawHline xs xe y _ => decide (Operand16 xs ∧ Operand16 xe ∧ Operand16 y)
  | .drawVline ys ye x _ => decide (Operand16 ys ∧ Operand16 ye ∧ Operand16 x)
  | .drawSquareOutline cx cy size _ => decide (Operand16 cx ∧ Operand16 cy ∧ Operand16 size)
  | .slpout => true
  | .colmod => true
  | .madctl => true
  | .dispon => true
  | .caset => true
  | .raset => true
  | .ramwr => true

/-- `check` as a proposition. -/
abbrev Instr.WellFormed (i : Instr) : Prop := i.check = true

end Sys2Proof
end

