-- ==== Sys2Proof/Decode.lean ====
section
/-! DEFINITION. Decoding of request packets and Panel commands, total and rejecting by name
(spec/30_encoding.md R80-R87, R91, R92), and the encoder written from the same tables. -/

namespace Sys2Proof

/-! ### Bit fields (spec/00_scope.md R9) -/

/-- `v[15:8]` of a word. -/
def hi8 (v : Word) : Byte := v.extractLsb' 8 8

/-- `v[7:0]` of a word. -/
def lo8 (v : Word) : Byte := v.extractLsb' 0 8

/-- `a : b`, the word with high byte a. -/
def joinBytes (a b : Byte) : Word := a ++ b

/-- `sext_16`: the word read as a 16-bit two's-complement number. -/
def sext16 (w : Word) : Int := w.toInt

/-- The 16-bit field that holds an exact integer. -/
def field16 (v : Int) : Word := BitVec.ofInt 16 v

/-! ### Headers -/

/-- Why a word sequence or a command byte is no instruction. -/
inductive DecodeError where
  /-- there is no header word -/
  | noHeader
  /-- the header is ILLEGAL, R86 -/
  | illegalRequest (header : Word)
  /-- operand words are missing, R87: the decoder waits in mode RX -/
  | truncated (missing : Nat)
  /-- words stand after the packet's last one -/
  | trailingWords
  /-- the byte is none of the seven commands, R92 -/
  | unknownCommand (b : Byte)
  deriving DecidableEq, Repr

/-- An ILLEGAL header, R86: OPC outside 0x01 to 0x09, or ARG8 nonzero where R82 asks for 0x00. -/
def illegalHeader (opc arg8 : Byte) : Bool :=
  decide (opc.toNat < 1 ∨ 9 < opc.toNat) || decide (opc ≠ 0x04 ∧ opc ≠ 0x05 ∧ arg8 ≠ 0x00)

/-- `len(OPC, ARG8)` of R85, in words with the header; an ILLEGAL header counts 1. -/
def packetLen (opc arg8 : Byte) : Nat :=
  match illegalHeader opc arg8, opc.toNat with
  | false, 0x02 => 2
  | false, 0x03 => 4
  | false, 0x06 => 4
  | false, 0x04 => 5
  | false, 0x07 => 5
  | false, 0x08 => 5
  | false, 0x09 => 5
  | false, 0x05 => 5 + (arg8.toNat + 1) / 2
  | _, _ => 1

/-! ### Operand registers -/

/-- A text word into TEXT, R84: the high byte, and the low byte unless it is the padding of an odd count n. -/
def loadText (n : Nat) (text : List Byte) (w : Word) : List Byte :=
  if text.length + 1 < n then text ++ [hi8 w, lo8 w] else text ++ [hi8 w]

/-- The next word after the header into OPND or, once OPND is full, into TEXT (R32, R87). A register that the lists
do not reach holds ⊥. -/
def loadWord (arg8 : Byte) (r : List Word × List Byte) (w : Word) : List Word × List Byte :=
  if r.1.length < 4 then (r.1 ++ [w], r.2) else (r.1, loadText arg8.toNat r.2 w)

/-- Operand register k; a free value while it holds ⊥ (assumption 9). -/
def opndAt (opnd : List Word) (k : Nat) : Word := opnd.getD k (Config.unsetWord k)

/-- TEXT register k; a free value while it holds ⊥ (assumption 9). -/
def charAt (text : List Byte) (k : Nat) : Byte := text.getD k (Config.unsetChar k)

/-- The request that the operand registers of a complete packet hold (R82, R83); none for an OPC outside the map. -/
def decodeFields (opc arg8 : Byte) (opnd : List Word) (text : List Byte) : Option Instr :=
  match opc.toNat with
  | 0x01 => some .init
  | 0x02 => some (.clear (opndAt opnd 0))
  | 0x03 => some (.drawPixel (sext16 (opndAt opnd 0)) (sext16 (opndAt opnd 1)) (opndAt opnd 2))
  | 0x04 => some (.drawGlyph arg8 (sext16 (opndAt opnd 0)) (sext16 (opndAt opnd 1)) (opndAt opnd 2) (opndAt opnd 3))
  | 0x05 => some (.drawText ((List.range arg8.toNat).map (charAt text)) (sext16 (opndAt opnd 0))
      (sext16 (opndAt opnd 1)) (opndAt opnd 2) (opndAt opnd 3))
  | 0x06 => some (.drawSmallBlock (sext16 (opndAt opnd 0)) (sext16 (opndAt opnd 1)) (opndAt opnd 2))
  | 0x07 => some (.drawHline (sext16 (opndAt opnd 0)) (sext16 (opndAt opnd 1)) (sext16 (opndAt opnd 2)) (opndAt opnd 3))
  | 0x08 => some (.drawVline (sext16 (opndAt opnd 0)) (sext16 (opndAt opnd 1)) (sext16 (opndAt opnd 2)) (opndAt opnd 3))
  | 0x09 => some (.drawSquareOutline (sext16 (opndAt opnd 0)) (sext16 (opndAt opnd 1)) (sext16 (opndAt opnd 2))
      (opndAt opnd 3))
  | _ => none

/-! ### The decoder -/

/-- The request at the head of a word sequence and the words after it. -/
def decodePacket : List Word → Except DecodeError (Instr × List Word)
  | [] => .error .noHeader
  | h :: ws =>
    let n := packetLen (hi8 h) (lo8 h) - 1
    if illegalHeader (hi8 h) (lo8 h) then .error (.illegalRequest h)
    else if ws.length < n then .error (.truncated (n - ws.length))
    else
      let r := (ws.take n).foldl (loadWord (lo8 h)) ([], [])
      match decodeFields (hi8 h) (lo8 h) r.1 r.2 with
      | some i => .ok (i, ws.drop n)
      | none => .error (.illegalRequest h)

/-- A command byte, by equality with the parameters (R91). -/
def decodeCommand (cfg : Config) (b : Byte) : Option PanelCmd :=
  if b = cfg.opcSlpout then some .slpout
  else if b = cfg.opcColmod then some .colmod
  else if b = cfg.opcMadctl then some .madctl
  else if b = cfg.opcDispon then some .dispon
  else if b = cfg.opcCaset then some .caset
  else if b = cfg.opcRaset then some .raset
  else if b = cfg.opcRamwr then some .ramwr
  else none

/-- The instruction that one whole packet or one command byte is. -/
def decode (cfg : Config) : Code → Except DecodeError Instr
  | .packet ws =>
    match decodePacket ws with
    | .error e => .error e
    | .ok (i, []) => .ok i
    | .ok (_, _ :: _) => .error .trailingWords
  | .command b =>
    match decodeCommand cfg b with
    | some c => .ok c.toInstr
    | none => .error (.unknownCommand b)

/-! ### The encoder -/

/-- The header word of R81. -/
def header (opc arg8 : Byte) : Word := joinBytes opc arg8

/-- Two characters a word, high byte first; the padding byte of an odd count is written 0x00 (R84). -/
def packText : List Byte → List Word
  | [] => []
  | [a] => [joinBytes a 0x00]
  | a :: b :: rest => joinBytes a b :: packText rest

/-- The words or the command byte of an instruction (R82, R91). -/
def encode (cfg : Config) : Instr → Code
  | .init => .packet [header 0x01 0x00]
  | .clear c => .packet [header 0x02 0x00, c]
  | .drawPixel x y c => .packet [header 0x03 0x00, field16 x, field16 y, c]
  | .drawGlyph code x y fg bg => .packet [header 0x04 code, field16 x, field16 y, fg, bg]
  | .drawText text x y fg bg =>
    .packet ([header 0x05 (BitVec.ofNat 8 text.length), field16 x, field16 y, fg, bg] ++ packText text)
  | .drawSmallBlock x y c => .packet [header 0x06 0x00, field16 x, field16 y, c]
  | .drawHline xs xe y c => .packet [header 0x07 0x00, field16 xs, field16 xe, field16 y, c]
  | .drawVline ys ye x c => .packet [header 0x08 0x00, field16 ys, field16 ye, field16 x, c]
  | .drawSquareOutline cx cy size c => .packet [header 0x09 0x00, field16 cx, field16 cy, field16 size, c]
  | .slpout => .command cfg.opcSlpout
  | .colmod => .command cfg.opcColmod
  | .madctl => .command cfg.opcMadctl
  | .dispon => .command cfg.opcDispon
  | .caset => .command cfg.opcCaset
  | .raset => .command cfg.opcRaset
  | .ramwr => .command cfg.opcRamwr

/-! ### Words numbered as the opcode table numbers them -/

/-- The machine form of an instruction whose bits are w (assumption 23): up to 8 bits a command byte, more a packet
whose word k is bits 16k+15 to 16k, as many words as the header asks for. -/
def tableCode (nbits w : Nat) : Code :=
  let v := w % 2 ^ nbits
  if nbits ≤ 8 then .command (BitVec.ofNat 8 v)
  else
    let h : Word := BitVec.ofNat 16 v
    .packet ((List.range (packetLen (hi8 h) (lo8 h))).map fun k => BitVec.ofNat 16 (v / 2 ^ (16 * k)))

/-- What the decoder reads from an opcode-table word, with the command bytes of `Config.standard`. -/
def decodeTableWord (nbits w : Nat) : Option Instr :=
  match decode Config.standard (tableCode nbits w) with
  | .ok i => some i
  | .error _ => none

end Sys2Proof
end

