-- ==== Sys2Proof/Machine/State.lean ====
section
/-! DEFINITION. The state of the LCDC: Block, Panel, Host port and Environment (spec/10_state.md, spec/00_scope.md R5),
as plain data, and its value right after reset. A field that the spec leaves at ⊥ ("no value", R12) is an Option or a
list that does not reach it; ⊥ is the spec's own state of that field (assumption 1). -/

namespace Sys2Proof.Machine

/-- The value of STATUS.CAUSE, R240. -/
inductive Cause where
  | none | busClaimFail | reinit | notInitialized | illegalRequest
  deriving DecidableEq, Repr

/-- The Block's mode, R34. -/
inductive Mode where
  | idle | rx | exec | halted
  deriving DecidableEq, Repr

/-- The bus line record of R36. `none` is ⊥: the line is undriven. -/
structure Lines where
  /-- the lines are configured as outputs -/
  cfg : Bool
  /-- chip select, 1 = inactive -/
  cs : Option Bool
  /-- the command/data line -/
  dc : Option Bool
  /-- the Panel's reset line -/
  rst : Option Bool
  clkHz : Nat
  mode : Nat
  deriving DecidableEq, Repr

/-- The Block's state, R22 to R36. STATUS, WIDTH and HEIGHT are computed from it (Machine/Flags.lean). -/
structure Block where
  mode : Mode
  /-- STATUS.INIT_DONE, the Transport Handle, R23 -/
  initDone : Bool
  /-- STATUS.ERR, sticky, R27 -/
  err : Bool
  /-- STATUS.CAUSE, R28 -/
  cause : Cause
  /-- OPC of R32 -/
  opc : Option Byte
  /-- ARG8 of R32 -/
  arg8 : Option Byte
  /-- OPND[0..3] of R32, as far as they are loaded -/
  opnd : List Word
  /-- TEXT[0..254] of R32, as far as they are loaded -/
  text : List Byte
  /-- NEED of R32 -/
  need : Nat
  /-- the expansion E of R33 -/
  events : List BusEvent
  /-- SEQ of R33 -/
  seq : Nat
  /-- the end-of-request update of R33 is INIT's: INIT_DONE is set when SEQ reaches |E| (assumption 15) -/
  initRun : Bool
  /-- the stream buffer SB of R35, as far as bytes are assembled in it; `none` is ⊥ -/
  sb : Option (List Byte)
  lines : Lines
  /-- the trace of R100: every bus event emitted since block reset, oldest first -/
  trace : List BusEvent
  deriving DecidableEq, Repr

/-- `pstate` of R37. -/
inductive PState where
  | unreset | inReset | recovering | active
  deriving DecidableEq, Repr

/-- The Panel commands that take argument bytes, R223. -/
inductive ArgCmd where
  | colmod | madctl | caset | raset
  deriving DecidableEq, Repr

/-- `rx` of R37: the Panel's receive mode. -/
inductive Rx where
  | idle
  | args (cmd : ArgCmd) (bs : List Byte)
  | stream
  deriving DecidableEq, Repr

/-- The Panel faults of R230. -/
inductive PanelFault where
  | notReset | timing | order | pixfmt | badWindow | badArgs | strayData | unknownCmd | underrun | oddByte | overrun
  deriving DecidableEq, Repr

/-- The Panel's state, R37. -/
structure Panel where
  pstate : PState
  tRst : Nat
  initStage : Option (Fin 5)
  slpPending : Option Bool
  tSlp : Option Nat
  sleep : Option Bool
  displayOn : Option Bool
  /-- COLMOD -/
  colmod : Option Byte
  /-- MADCTL -/
  madctl : Option Byte
  xs : Option Word
  xe : Option Word
  ys : Option Word
  ye : Option Word
  cx : Option Word
  cy : Option Word
  full : Option Bool
  rx : Rx
  hi : Option Byte
  /-- GRAM: the cells that hold a value, as (row-major index, value), indexes strictly rising (assumption 12) -/
  gram : List (Nat × Word)
  /-- PF: the sticky fault set, in the order of R230's table, no repeats (assumption 11) -/
  pf : List PanelFault
  deriving DecidableEq, Repr

/-- One access of the Host to the Block (R20, R21), or the Block's reset input (R270). `width` is in bits.
DESIGN CHOICE: the reset input is asserted by the Host, in the order of its list (assumption 30). -/
inductive HostOp where
  | write (offset width : Nat) (value : Word)
  | read (offset width : Nat)
  | blockReset
  deriving DecidableEq, Repr

/-- The Host agent of R5, as far as the Block sees it (assumption 4). -/
structure HostPort where
  /-- the accesses the Host has still to make, oldest first; a REQ write that is not enabled stays at the head (R21) -/
  pending : List HostOp
  /-- the values the Host's reads returned, oldest first -/
  readLog : List Word
  deriving DecidableEq, Repr

/-- The Environment agent of R5 (assumption 7). -/
structure Env where
  /-- the answers to the next `bus_claim_ok` draws, where they are given; past them a draw is free -/
  answers : List Bool
  /-- how many draws were taken -/
  draws : Nat
  deriving DecidableEq, Repr

/-- Who may move, for `State.turns` (assumption 3). -/
inductive Agent where
  | host | block
  deriving DecidableEq, Repr

/-- The whole machine. -/
structure State where
  /-- the parameters of R7; no step changes them -/
  cfg : Config
  block : Block
  panel : Panel
  host : HostPort
  env : Env
  /-- whose turn it is at the next steps where both Host and Block could move; when the list is out, the Block's -/
  turns : List Agent
  deriving DecidableEq, Repr

/-- Where the machine has no enabled step (spec/93_implementation_defined.md, treatment "stuck"). Both are safe: the
machine stops where the spec says that the run is stuck. -/
inductive Fault where
  /-- raised by `step`: the Host writes REQ and the Block is HALTED, R245 (I11); safe -/
  | stuckHalted
  /-- raised by `step`: a header was accepted and the Host has no operand word left to write, R285 (I12); safe -/
  | stuckAwaitingWords
  deriving DecidableEq, Repr

/-- What the model has no step for. -/
inductive Refusal where
  /-- raised by an arm of `exec` that has no meaning yet; safe -/
  | notModelled (mnemonic : String)
  /-- raised by `step`: a Host access that is not 16 bits wide or is at an odd offset, R20 (I1); safe -/
  | hostAccess (offset width : Nat)
  deriving DecidableEq, Repr

/-- The lines after block reset, R36. `clkHz` and `mode` are a DESIGN CHOICE (assumption 13). -/
def Lines.reset : Lines where
  cfg := false
  cs := none
  dc := none
  rst := none
  clkHz := 0
  mode := 0

/-- The Block after block reset, R270. -/
def Block.reset : Block where
  mode := .idle
  initDone := false
  err := false
  cause := .none
  opc := none
  arg8 := none
  opnd := []
  text := []
  need := 0
  events := []
  seq := 0
  initRun := false
  sb := none
  lines := Lines.reset
  trace := []

/-- The Panel at power-up, R37 and R271. -/
def Panel.powerUp : Panel where
  pstate := .unreset
  tRst := 0
  initStage := none
  slpPending := none
  tSlp := none
  sleep := none
  displayOn := none
  colmod := none
  madctl := none
  xs := none
  xe := none
  ys := none
  ye := none
  cx := none
  cy := none
  full := none
  rx := .idle
  hi := none
  gram := []
  pf := []

/-- The machine right after block reset and Panel power-up, with nothing written by the Host yet. -/
def State.reset : State where
  cfg := Config.standard
  block := Block.reset
  panel := Panel.powerUp
  host := ⟨[], []⟩
  env := ⟨[], 0⟩
  turns := []

end Sys2Proof.Machine
end

