-- ==== Sys2Proof/Machine/Operands.lean ====
section
/-! DEFINITION. Operand forms and the streams made from them: bounds and clamping (spec/00_scope.md R10), the 16-bit
color packer (spec/40_bus_transport.md R107, R108), the glyph ROM and rasterizer (spec/42_glyph_table.md), and the
packet's operand registers (spec/10_state.md R32). -/

namespace Sys2Proof.Machine

/-! ### Coordinates -/

/-- `inX(v)` of R10: 0 ≤ v ≤ W-1. -/
abbrev inX (v : Int) : Prop := 0 ≤ v ∧ v ≤ dispW - 1

/-- `inY(v)` of R10: 0 ≤ v ≤ H-1. -/
abbrev inY (v : Int) : Prop := 0 ≤ v ∧ v ≤ dispH - 1

/-- `max(v, 0)`: the start of a run clamped to the screen, R158. -/
def clampStart (v : Int) : Int := max v 0

/-- `min(v, extent-1)`: the end of a run clamped to the screen, R158. -/
def clampEnd (extent : Nat) (v : Int) : Int := min v (extent - 1)

/-! ### Color packer -/

/-- `pack(c)`: high byte first, R107. -/
def pack (c : Word) : List Byte := [hi8 c, lo8 c]

/-- `packRun(c, n)`: n pixels of one color, R108. -/
def packRun (c : Word) (n : Nat) : List Byte := (List.replicate n (pack c)).flatten

/-- `packList(cs)`, R108. -/
def packList (cs : List Word) : List Byte := cs.flatMap pack

/-! ### Glyph ROM and rasterizer -/

/-- The codes that R141 item 1 puts in SUPPORTED: digits, ' ', ':', '+', '-', '*' and 'H'. -/
def requiredChar (c : Byte) : Bool :=
  (0x30 ≤ c.toNat && c.toNat ≤ 0x39) || c == 0x20 || c == 0x3A || c == 0x2B || c == 0x2D || c == 0x2A || c == 0x48

/-- 'A' to 'Z'. -/
def upperLetter (c : Byte) : Bool := 0x41 ≤ c.toNat && c.toNat ≤ 0x5A

/-- SUPPORTED of R141; which other letters it holds is free (assumption 8). -/
def supportedChar (c : Byte) : Bool := requiredChar c || (upperLetter c && Config.letterSupported c)

/-- Row r of a supported character: 'H' row 0 is 0x82 (R141 item 3), every other row is free (item 4). -/
def romRow (c : Byte) (r : Nat) : Byte := if c = 0x48 ∧ r = 0 then 0x82 else Config.glyphRow c r

/-- `GlyphRom(code)`, R140. -/
def glyphRom (c : Byte) : Option (Vector Byte 8) :=
  if supportedChar c then
    some #v[romRow c 0, romRow c 1, romRow c 2, romRow c 3, romRow c 4, romRow c 5, romRow c 6, romRow c 7]
  else none

/-- BLANK of R142. -/
def blankGlyph : Vector Byte 8 := #v[0, 0, 0, 0, 0, 0, 0, 0]

/-- `rows(code)`, R142: an unsupported character is the blank glyph. -/
def glyphRows (c : Byte) : Vector Byte 8 :=
  match glyphRom c with
  | some g => g
  | none => blankGlyph

/-- One glyph row as 8 pixels, the most significant bit leftmost, R143. -/
def rowPixels (fg bg : Word) (row : Byte) : List Word :=
  [7, 6, 5, 4, 3, 2, 1, 0].map fun j => if row.getLsbD j then fg else bg

/-- The 64 pixels of a glyph, row-major, R143. -/
def glyphPixels (code : Byte) (fg bg : Word) : List Word := (glyphRows code).toList.flatMap (rowPixels fg bg)

/-- `Raster(code, fg, bg)`, R143. -/
def raster (code : Byte) (fg bg : Word) : List Byte := packList (glyphPixels code fg bg)

/-! ### Packet registers -/

/-- The registers after a header is accepted, R87; the operand registers hold no field of this packet yet
(assumption 19). -/
def Block.loadHeader (b : Block) (w : Word) : Block :=
  { b with opc := some (hi8 w), arg8 := some (lo8 w), opnd := [], text := [], need := 0 }

/-- The registers after one more word of the packet is stored, R87. -/
def Block.loadOperand (b : Block) (w : Word) : Block :=
  let r := loadWord (b.arg8.getD 0) (b.opnd, b.text) w
  { b with opnd := r.1, text := r.2, need := b.need - 1 }

/-- The request the registers of a complete packet hold. -/
def Block.request (b : Block) : Option Instr :=
  match b.opc, b.arg8 with
  | some opc, some arg8 => decodeFields opc arg8 b.opnd b.text
  | _, _ => none

end Sys2Proof.Machine
end

