-- ==== Sys2Proof/Machine/Flags.lean ====
section
/-! DEFINITION. The host-visible registers (spec/10_state.md R20 to R30) and the cause codes (spec/60_exceptions.md
R240). -/

namespace Sys2Proof.Machine

/-- The code of a cause, R240. -/
def Cause.code : Cause → BitVec 4
  | .none => 0x0
  | .busClaimFail => 0x1
  | .reinit => 0x2
  | .notInitialized => 0x3
  | .illegalRequest => 0x4

/-- STATUS.BUSY, R24 and R34. -/
def Block.busy (b : Block) : Bool := b.mode = .exec

/-- STATUS.RXPEND, R25 and R34. -/
def Block.rxpend (b : Block) : Bool := b.mode = .rx

/-- STATUS.HALTED, R26 and R34. -/
def Block.halted (b : Block) : Bool := b.mode = .halted

/-- `REQ_READY`, R21. -/
def Block.reqReady (b : Block) : Bool := !b.busy && !b.halted

/-- STATUS, R22: bits [15:12] and [7:5] read as zero. -/
def Block.status (b : Block) : Word :=
  0#4 ++ b.cause.code ++ 0#3 ++ BitVec.ofBool b.err ++ BitVec.ofBool b.halted ++ BitVec.ofBool b.rxpend
    ++ BitVec.ofBool b.busy ++ BitVec.ofBool b.initDone

/-- WIDTH, R29. -/
def widthReg : Word := 0x00A0

/-- HEIGHT, R29. -/
def heightReg : Word := 0x0080

/-- What a 16-bit read at an even offset returns, R20. -/
def Block.readReg (b : Block) (offset : Nat) : Word :=
  match offset with
  | 0x2 => b.status
  | 0x4 => widthReg
  | 0x6 => heightReg
  | _ => 0x0000

/-- An access the register block has a step for, R20: 16 bits wide, at an even offset. -/
def accessOk (offset width : Nat) : Bool := width == 16 && offset % 2 == 0

end Sys2Proof.Machine
end

