-- ==== Sys2Proof/Machine/Ops.lean ====
section
/-! DEFINITION. The shared operations: GRAM (spec/20_memory.md R60, spec/44_cursor_engine.md R221), raising an error or
a fatal event and returning from it (spec/60_exceptions.md R246 to R249), starting and ending an expansion
(spec/10_state.md R33), emitting a bus event (spec/40_bus_transport.md R100 to R106), block reset (spec/70_reset_and_hazards.md R270),
and who moves next. -/

namespace Sys2Proof.Machine

/-! ### GRAM -/

/-- The index of GRAM[c][r]; rows follow each other. -/
def gramIndex (c r : Nat) : Nat := r * dispW + c

/-- The cell at an index; `none` is ⊥. -/
def Memory.read : List (Nat × Word) → Nat → Option Word
  | [], _ => none
  | (k, v) :: m, a => if k = a then some v else Memory.read m a

/-- Store a cell, keeping the indexes strictly rising. -/
def Memory.write : List (Nat × Word) → Nat → Word → List (Nat × Word)
  | [], a, v => [(a, v)]
  | (k, u) :: m, a, v =>
    if a < k then (a, v) :: (k, u) :: m
    else if a = k then (a, v) :: m
    else (k, u) :: Memory.write m a v

/-- The canonical form: indexes strictly rising, each of them a cell of the W × H array. -/
abbrev Memory.wf (m : List (Nat × Word)) : Prop :=
  (m.map Prod.fst).Pairwise (· < ·) ∧ ∀ e ∈ m, e.1 < dispW * dispH

/-- GRAM[c][r] of R37; a cell that does not exist reads as ⊥. -/
def Panel.cell (p : Panel) (c r : Nat) : Option Word :=
  if c < dispW ∧ r < dispH then Memory.read p.gram (gramIndex c r) else none

/-! ### Errors, R247 to R249 -/

/-- `raise Error(cause)`, R247. The return is part of it: mode is IDLE again (R249).
DESIGN CHOICE: E and SEQ keep what the last expansion left in them (assumption 29). -/
def Block.raiseError (b : Block) (c : Cause) : Block := { b with err := true, cause := c, mode := .idle }

/-- `raise Fatal(cause)`, R248; only block reset leaves HALTED (R249).
DESIGN CHOICE: E and SEQ keep what the last expansion left in them (assumption 29). -/
def Block.raiseFatal (b : Block) (c : Cause) : Block := { b with cause := c, mode := .halted }

/-! ### Expansions, R33 -/

/-- A complete packet's expansion E, with SEQ at its first event. An empty expansion is over at once (R24).
`isInit` says that INIT_DONE is E's end-of-request update. -/
def Block.begin (b : Block) (isInit : Bool) (E : List BusEvent) : Block :=
  { b with events := E, seq := 0, initRun := isInit, mode := if E = [] then .idle else .exec }

/-- The request ends: SEQ = |E|, mode IDLE, SB holds ⊥ again (R35), and INIT_DONE is set after INIT (R23). -/
def Block.finish (b : Block) : Block :=
  { b with mode := .idle, initDone := b.initDone || b.initRun, initRun := false, sb := none }

/-- Event E[SEQ] has completed: SEQ rises by 1, and the request ends when SEQ = |E| (R33). -/
def Block.eventDone (b : Block) : Block :=
  let b := { b with seq := b.seq + 1 }
  if b.seq < b.events.length then b else b.finish

/-! ### Emission, R100 to R110 -/

/-- The lines once the event has completed. RST is driven to the event's level (R105), D/C stays at the level of the
last transfer, CS is inactive, 1, again (R110 steps 1 and 4). Lines that are not configured are not driven
(assumption 25). -/
def Lines.transfer (l : Lines) (dcCommand : Bool) (e : BusEvent) : Lines :=
  if l.cfg then
    match e with
    | .rst v => { l with rst := some v }
    | .delay _ => l
    | .cmd _ => { l with dc := some dcCommand, cs := some true }
    | .data _ => { l with dc := some (!dcCommand), cs := some true }
  else l

/-- The last command of a list of events is the memory-write command: the data that follow are a pixel stream. -/
def inStream (opcRamwr : Byte) : List BusEvent → Bool → Bool
  | [], b => b
  | .cmd c :: es, _ => inStream opcRamwr es (c = opcRamwr)
  | _ :: es, b => inStream opcRamwr es b

/-- SB once the event is emitted: the packer or the rasterizer has put the bytes of a pixel stream's transaction in it
(R35, R76; assumption 20). DESIGN CHOICE: at every other event of the request it keeps the bytes it held (assumption 20). -/
def Block.streamBuffer (b : Block) (opcRamwr : Byte) (e : BusEvent) : Option (List Byte) :=
  match e with
  | .data bs => if inStream opcRamwr (b.events.take b.seq) false then some bs else b.sb
  | _ => b.sb

/-- `Emit(e)` on the Block's side, R100: the trace, the lines and SB. -/
def Block.emit (b : Block) (cfg : Config) (e : BusEvent) : Block :=
  { b with
    trace := b.trace ++ [e]
    lines := b.lines.transfer cfg.dcCommand e
    sb := b.streamBuffer cfg.opcRamwr e }

/-- `TransportInit()` after a successful claim, R101. -/
def Lines.configure (clkHz : Nat) : Lines where
  cfg := true
  cs := some true
  dc := some true
  rst := some true
  clkHz := clkHz
  mode := 0

/-! ### The Environment -/

/-- The answer to the next `bus_claim_ok` draw: the given one, or a free value (assumption 7). -/
def Env.claim (e : Env) : Bool := e.answers.headD (Config.busClaim e.draws)

/-- The Environment after a draw. -/
def Env.drawn (e : Env) : Env := ⟨e.answers.tail, e.draws + 1⟩

/-! ### Whole-state forms -/

/-- Apply a function to the Block. -/
def State.onBlock (s : State) (f : Block → Block) : State := { s with block := f s.block }

/-- Apply a function to the Panel. -/
def State.onPanel (s : State) (f : Panel → Panel) : State := { s with panel := f s.panel }

/-- `dispatch()` of a request other than INIT, R246: NOT_INITIALIZED before INIT, the request's expansion after. -/
def State.draw (s : State) (E : List BusEvent) : State :=
  if s.block.initDone then s.onBlock (·.begin false E) else s.onBlock (·.raiseError .notInitialized)

/-- Block reset, R270: every Block field takes its reset value, the Panel keeps its state. -/
def State.blockReset (s : State) : State := { s with block := Block.reset }

/-- Apply a function to the next state of an outcome. -/
def mapNext (f : State → State) : Host.Outcome State Fault Refusal → Host.Outcome State Fault Refusal
  | .next s => .next (f s)
  | .fault r => .fault r
  | .refused r => .refused r

/-- The next state of an outcome, if there is one. -/
def nextState : Host.Outcome State Fault Refusal → Option State
  | .next s => some s
  | .fault _ => none
  | .refused _ => none

/-! ### Who moves -/

/-- The access writes a request word to REQ (R21, R80); only such a write feeds the decoder. -/
def HostOp.isReqWrite : HostOp → Bool
  | .write offset width _ => accessOk offset width && offset == 0
  | .read _ _ => false
  | .blockReset => false

/-- The Host's next access has a step: a REQ write only while REQ_READY (R21), everything else at any time.
DESIGN CHOICE: only the first access counts; a block reset behind a held REQ write waits with it (assumption 30). -/
def State.hostEnabled (s : State) : Bool :=
  match s.host.pending with
  | [] => false
  | op :: _ => !op.isReqWrite || s.block.reqReady

/-- Who takes this step (assumption 3); `none` when nobody can move. -/
def State.mover (s : State) : Option Agent :=
  if s.block.busy then
    if s.hostEnabled && s.turns.head? == some Agent.host then some .host else some .block
  else if s.hostEnabled then some .host
  else none

/-- The turn is used up. -/
def State.popTurn (s : State) : State := { s with turns := s.turns.tail }

/-- The Host's next access is taken from its list. -/
def State.popHost (s : State) : State := { s with host := { s.host with pending := s.host.pending.tail } }

/-- A read returned a value to the Host. -/
def State.logRead (s : State) (v : Word) : State :=
  { s with host := { s.host with readLog := s.host.readLog ++ [v] } }

end Sys2Proof.Machine
end

