-- ==== Sys2Proof/Machine/PanelOps.lean ====
section
/-! DEFINITION. The cursor engine: what the Panel does with one bus event (spec/44_cursor_engine.md R200 to R230). After a
panel fault the rules are applied as written, which R230 allows (assumption 10). -/

namespace Sys2Proof.Machine

/-! ### Faults -/

/-- The faults in the order of R230's table. -/
def PanelFault.all : List PanelFault :=
  [.notReset, .timing, .order, .pixfmt, .badWindow, .badArgs, .strayData, .unknownCmd, .underrun, .oddByte, .overrun]

/-- A fault added to a fault set. -/
def addFault (f : PanelFault) (pf : List PanelFault) : List PanelFault :=
  PanelFault.all.filter fun g => g = f || g ∈ pf

/-- `raise PanelFault(f)`, R230: sticky, and the rule that raises it goes on. -/
def Panel.raise (p : Panel) (f : PanelFault) : Panel := { p with pf := addFault f p.pf }

/-- `if b: raise PanelFault(f)`. -/
def Panel.raiseIf (p : Panel) (b : Bool) (f : PanelFault) : Panel := if b then p.raise f else p

/-! ### Reset and delay -/

/-- `Rst(0)`, R201. -/
def Panel.resetLow (p : Panel) : Panel :=
  if p.pstate = .inReset then p
  else { Panel.powerUp with
    pstate := .inReset
    initStage := some 0
    slpPending := some false
    tSlp := some 0
    sleep := some true
    displayOn := some false
    pf := p.pf }

/-- `Rst(1)`, R202. -/
def Panel.resetHigh (p : Panel) : Panel :=
  if p.pstate = .inReset then
    { p.raiseIf (p.tRst < tRstLowMin) .timing with pstate := .recovering, tRst := 0 }
  else p

/-- `Delay(ms)`, R204. -/
def Panel.delay (p : Panel) (ms : Nat) : Panel :=
  { p with
    tRst := if p.pstate = .inReset ∨ p.pstate = .recovering then p.tRst + ms else p.tRst
    tSlp := if p.slpPending = some true then p.tSlp.map (· + ms) else p.tSlp }

/-! ### Commands -/

/-- The `pstate` checks of R203 for a Panel that has had a reset pulse. -/
def Panel.admitReset (p : Panel) : Panel :=
  match p.pstate with
  | .unreset => p
  | .inReset => p.raise .timing
  | .recovering => { p.raiseIf (p.tRst < tRstHighMin) .timing with pstate := .active }
  | .active => p

/-- The sleep-out settle check of R203. -/
def Panel.admitSleep (p : Panel) : Panel :=
  if p.slpPending = some true then
    { p.raiseIf (p.tSlp.getD 0 < tSlpoutMin) .timing with slpPending := some false }
  else p

/-- The end of the previous receive mode, R205. -/
def Panel.closeRx (p : Panel) : Panel :=
  let q := match p.rx with
    | .stream => (p.raiseIf (p.hi ≠ none) .oddByte).raiseIf (p.full ≠ some true) .underrun
    | .args _ _ => p.raise .badArgs
    | .idle => p
  { q with rx := .idle, hi := none }

/-- `Cmd(b)` up to the command's own effect: R203, then R205. Before the first reset pulse the command goes no further
than PF_NOT_RESET, since every later check would read a ⊥ (assumption 10). -/
def Panel.command (effect : Panel → Panel) (p : Panel) : Panel :=
  if p.pstate = .unreset then p.raise .notReset else effect p.admitReset.admitSleep.closeRx

/-- "requires init_stage = k". -/
def Panel.requires (p : Panel) (k : Fin 5) : Panel := p.raiseIf (p.initStage ≠ some k) .order

/-- The command waits for its argument bytes. -/
def Panel.await (p : Panel) (cmd : ArgCmd) : Panel := { p with rx := .args cmd [] }

/-- SLPOUT's effect, R210. -/
def Panel.slpout (p : Panel) : Panel :=
  { p.requires 0 with sleep := some false, slpPending := some true, tSlp := some 0, initStage := some 1 }

/-- DISPON's effect, R213. -/
def Panel.dispon (p : Panel) : Panel := { p.requires 3 with displayOn := some true, initStage := some 4 }

/-- RAMWR's effect, R216. -/
def Panel.ramwr (p : Panel) : Panel :=
  let q := (p.requires 4).raiseIf (p.xs.isNone || p.xe.isNone || p.ys.isNone || p.ye.isNone) .badWindow
  { q with cx := p.xs, cy := p.ys, full := some false, hi := none, rx := .stream }

/-- What a command byte that is one of the seven does, R210 to R216. -/
def Panel.effect : PanelCmd → Panel → Panel
  | .slpout, p => p.slpout
  | .colmod, p => (p.requires 1).await .colmod
  | .madctl, p => (p.requires 2).await .madctl
  | .dispon, p => p.dispon
  | .caset, p => (p.requires 4).await .caset
  | .raset, p => (p.requires 4).await .raset
  | .ramwr, p => p.ramwr

/-- A command byte outside the set, R217. -/
def Panel.unknown (p : Panel) : Panel := p.raise .unknownCmd

/-! ### Argument bytes -/

/-- `need(cmd)`, R223. -/
def ArgCmd.need : ArgCmd → Nat
  | .colmod => 1
  | .madctl => 1
  | .caset => 4
  | .raset => 4

/-- COLMOD's argument, R211. -/
def Panel.setColmod (cfg : Config) (p : Panel) (b : Byte) : Panel :=
  { p.raiseIf (b ≠ cfg.pixfmt16) .pixfmt with colmod := some b, initStage := some 2 }

/-- MADCTL's argument, R212. -/
def Panel.setMadctl (p : Panel) (b : Byte) : Panel := { p with madctl := some b, initStage := some 3 }

/-- A bound pair that R214 and R215 accept: start ≤ end ≤ extent-1. -/
def boundsOk (extent : Nat) (v0 v1 : Word) : Bool := v0.toNat ≤ v1.toNat && v1.toNat ≤ extent - 1

/-- CASET's arguments, R214. -/
def Panel.setCols (p : Panel) (v0 v1 : Word) : Panel :=
  { p.raiseIf (!boundsOk dispW v0 v1) .badWindow with xs := some v0, xe := some v1 }

/-- RASET's arguments, R215. -/
def Panel.setRows (p : Panel) (v0 v1 : Word) : Panel :=
  { p.raiseIf (!boundsOk dispH v0 v1) .badWindow with ys := some v0, ye := some v1 }

/-- The completion step of a command, R223. -/
def Panel.complete (cfg : Config) (p : Panel) : ArgCmd → List Byte → Panel
  | .colmod, [b] => p.setColmod cfg b
  | .madctl, [b] => p.setMadctl b
  | .caset, [b0, b1, b2, b3] => p.setCols (joinBytes b0 b1) (joinBytes b2 b3)
  | .raset, [b0, b1, b2, b3] => p.setRows (joinBytes b0 b1) (joinBytes b2 b3)
  | _, _ => p

/-- An argument byte, R223. -/
def Panel.argByte (cfg : Config) (p : Panel) (cmd : ArgCmd) (bs : List Byte) (d : Byte) : Panel :=
  if bs.length + 1 < cmd.need then { p with rx := .args cmd (bs ++ [d]) }
  else { p.complete cfg cmd (bs ++ [d]) with rx := .idle }

/-! ### Pixel bytes -/

/-- `GramWrite(CX, CY, v)`, R221. A cell that does not exist, or a cursor at ⊥, is met only after a panel fault: nothing
is written then (assumption 10). -/
def Panel.gramWrite (p : Panel) (v : Word) : Panel :=
  match p.cx, p.cy with
  | some c, some r =>
    if c.toNat < dispW ∧ r.toNat < dispH then
      { p with gram := Memory.write p.gram (gramIndex c.toNat r.toNat) v }
    else p
  | _, _ => p

/-- `Advance()`, R222. A register at ⊥ is met only after a panel fault: the cursor stays then (assumption 10). -/
def Panel.advance (p : Panel) : Panel :=
  match p.xe, p.ye, p.cx, p.cy with
  | some xe, some ye, some cx, some cy =>
    if cx.toNat < xe.toNat then { p with cx := some (cx + 1) }
    else if cy.toNat < ye.toNat then { p with cx := p.xs, cy := some (cy + 1) }
    else { p with cx := p.xs, full := some true }
  | _, _, _, _ => p

/-- A pixel byte, R220: the high byte first. -/
def Panel.pixelByte (p : Panel) (d : Byte) : Panel :=
  if p.full = some true then p.raise .overrun
  else
    match p.hi with
    | none => { p with hi := some d }
    | some h => (({ p with hi := none } : Panel).gramWrite (joinBytes h d)).advance

/-! ### Data and event dispatch -/

/-- The `pstate` checks of R206. -/
def Panel.dataCheck (p : Panel) : Panel :=
  (p.raiseIf (p.pstate = .unreset) .notReset).raiseIf (p.pstate = .inReset) .timing

/-- One byte of a `Data` event, R206. -/
def Panel.byte (cfg : Config) (p : Panel) (d : Byte) : Panel :=
  match p.rx with
  | .idle => p.dataCheck.raise .strayData
  | .args cmd bs => p.dataCheck.argByte cfg cmd bs d
  | .stream => p.dataCheck.pixelByte d

/-- One bus event, to completion, R200. -/
def Panel.consume (cfg : Config) (p : Panel) : BusEvent → Panel
  | .rst false => p.resetLow
  | .rst true => p.resetHigh
  | .delay ms => p.delay ms
  | .cmd b =>
    match decodeCommand cfg b with
    | some c => p.command (Panel.effect c)
    | none => p.command Panel.unknown
  | .data bs => bs.foldl (Panel.byte cfg) p

/-- A trace, in order, R200. -/
def Panel.consumeAll (cfg : Config) (p : Panel) (es : List BusEvent) : Panel := es.foldl (Panel.consume cfg) p

end Sys2Proof.Machine
end

