-- ==== Sys2Proof/Machine/PanelCommands.lean ====
section
/-! DEFINITION. The meanings of the seven Panel commands: the Panel consumes the command byte
(spec/44_cursor_engine.md R203, R205, R210 to R216). A command's argument or pixel bytes arrive in later bus events. -/

namespace Sys2Proof.Machine

/-- SLPOUT, R210. -/
def execSlpout (s : State) : Host.Outcome State Fault Refusal :=
  .next (s.onPanel (Panel.command (Panel.effect .slpout)))

/-- COLMOD, R211. -/
def execColmod (s : State) : Host.Outcome State Fault Refusal :=
  .next (s.onPanel (Panel.command (Panel.effect .colmod)))

/-- MADCTL, R212. -/
def execMadctl (s : State) : Host.Outcome State Fault Refusal :=
  .next (s.onPanel (Panel.command (Panel.effect .madctl)))

/-- DISPON, R213. -/
def execDispon (s : State) : Host.Outcome State Fault Refusal :=
  .next (s.onPanel (Panel.command (Panel.effect .dispon)))

/-- CASET, R214. -/
def execCaset (s : State) : Host.Outcome State Fault Refusal :=
  .next (s.onPanel (Panel.command (Panel.effect .caset)))

/-- RASET, R215. -/
def execRaset (s : State) : Host.Outcome State Fault Refusal :=
  .next (s.onPanel (Panel.command (Panel.effect .raset)))

/-- RAMWR, R216. -/
def execRamwr (s : State) : Host.Outcome State Fault Refusal :=
  .next (s.onPanel (Panel.command (Panel.effect .ramwr)))

end Sys2Proof.Machine
end

