-- ==== Sys2Proof/Machine/Transport.lean ====
section
/-! DEFINITION. The event lists of the bus transport, the power-on sequence, the window address framer and the request
bodies (spec/40_bus_transport.md R109, spec/41_controller_protocol.md R120 to R129, spec/43_rendering_primitives.md R153 to
R160). -/

namespace Sys2Proof.Machine

/-- `Reset()`, R109. -/
def resetEvents (cfg : Config) : List BusEvent :=
  [.rst false, .delay cfg.tRstLow, .rst true, .delay cfg.tRstHigh]

/-- `PowerOnSequence()`, R120. -/
def powerOn (cfg : Config) : List BusEvent :=
  resetEvents cfg ++
    [.cmd cfg.opcSlpout, .delay cfg.tSlpout, .cmd cfg.opcColmod, .data [cfg.pixfmt16],
     .cmd cfg.opcMadctl, .data [cfg.madctlValue], .cmd cfg.opcDispon]

/-- Two window bounds as 4 bytes, big-endian, R125. -/
def boundBytes (a b : Int) : List Byte := [hi8 (field16 a), lo8 (field16 a), hi8 (field16 b), lo8 (field16 b)]

/-- `SetWindow(x0, y0, x1, y1)`, R125; it never checks a range (R126). -/
def setWindow (cfg : Config) (x0 y0 x1 y1 : Int) : List BusEvent :=
  [.cmd cfg.opcCaset, .data (boundBytes x0 x1), .cmd cfg.opcRaset, .data (boundBytes y0 y1), .cmd cfg.opcRamwr]

/-- `CLEAR`, R153: H data events of one line each. -/
def clearEvents (cfg : Config) (color : Word) : List BusEvent :=
  setWindow cfg 0 0 (dispW - 1) (dispH - 1) ++ List.replicate dispH (.data (packRun color dispW))

/-- `DRAW_PIXEL`, R154. -/
def pixelEvents (cfg : Config) (x y : Int) (color : Word) : List BusEvent :=
  if inX x ∧ inY y then setWindow cfg x y x y ++ [.data (pack color)] else []

/-- `Glyph(code, x, y, fg, bg)`, R155. -/
def glyphEvents (cfg : Config) (code : Byte) (x y : Int) (fg bg : Word) : List BusEvent :=
  if 0 ≤ x ∧ x + 7 ≤ dispW - 1 ∧ 0 ≤ y ∧ y + 7 ≤ dispH - 1 then
    setWindow cfg x y (x + 7) (y + 7) ++ [.data (raster code fg bg)]
  else []

/-- The loop of `DRAW_TEXT`, R156, from the column cx of the next character; TEXT_ADVANCE = 9. -/
def textEvents (cfg : Config) (y : Int) (fg bg : Word) : Int → List Byte → List BusEvent
  | _, [] => []
  | cx, c :: text =>
    if cx + 7 > dispW - 1 then [] else glyphEvents cfg c cx y fg bg ++ textEvents cfg y fg bg (cx + 9) text

/-- `DRAW_SMALL_BLOCK`, R157. -/
def blockEvents (cfg : Config) (x y : Int) (color : Word) : List BusEvent :=
  if 0 ≤ x ∧ x ≤ dispW - 2 ∧ 0 ≤ y ∧ y ≤ dispH - 2 then
    setWindow cfg x y (x + 1) (y + 1) ++ [.data (packRun color 4)]
  else []

/-- `HLine(xs, xe, y, c)`, R158. -/
def hlineEvents (cfg : Config) (xs xe y : Int) (color : Word) : List BusEvent :=
  let a := clampStart xs
  let b := clampEnd dispW xe
  if inY y ∧ a ≤ b then setWindow cfg a y b y ++ [.data (packRun color (b - a + 1).toNat)] else []

/-- `VLine(ys, ye, x, c)`, R159. -/
def vlineEvents (cfg : Config) (ys ye x : Int) (color : Word) : List BusEvent :=
  let a := clampStart ys
  let b := clampEnd dispH ye
  if inX x ∧ a ≤ b then setWindow cfg x a x b ++ [.data (packRun color (b - a + 1).toNat)] else []

/-- `DRAW_SQUARE_OUTLINE`, R160; SQUARE_PAD = 4 and `/ 2` rounds toward minus infinity. -/
def squareEvents (cfg : Config) (cx cy size : Int) (color : Word) : List BusEvent :=
  let s := size + 4
  let h := s / 2
  let x0 := cx - h
  let y0 := cy - h
  let x1 := x0 + s - 1
  let y1 := y0 + s - 1
  if inX cx ∧ inY cy then
    hlineEvents cfg x0 (x1 - 1) y0 color ++ vlineEvents cfg y0 (y1 - 1) x1 color
      ++ hlineEvents cfg (x0 + 1) x1 y1 color ++ vlineEvents cfg (y0 + 1) y1 x0 color
  else []

/-! ### On the wire (spec/20_memory.md R63, R110 step 3, spec/70_reset_and_hazards.md R282) -/

/-- The bytes an event shifts out. -/
def wireBytes : BusEvent → List Byte
  | .rst _ => []
  | .delay _ => []
  | .cmd b => [b]
  | .data bs => bs

/-- The bits on MOSI, each byte most significant bit first (R63, PRESUMED, assumption 18); one SCLK period each. -/
def wireBits (e : BusEvent) : List Bool :=
  (wireBytes e).flatMap fun b => [7, 6, 5, 4, 3, 2, 1, 0].map fun j => b.getLsbD j

/-- The bytes a list of events puts on the wire, R282. -/
def wireCount (es : List BusEvent) : Nat := (es.map fun e => (wireBytes e).length).sum

/-- The delays of a list of events, in ms, R282. -/
def delayCount (es : List BusEvent) : Nat :=
  (es.map fun e => match e with | .delay ms => ms | _ => 0).sum

end Sys2Proof.Machine
end

