-- ==== Sys2Proof/Machine/Requests.lean ====
section
/-! DEFINITION. The meanings of the nine requests: `dispatch()` of spec/60_exceptions.md R246 with the request's rule of
spec/43_rendering_primitives.md. A request computes its expansion in this one step; the Block then emits it one event a
step (spec/10_state.md R33). -/

namespace Sys2Proof.Machine

/-- INIT's dispatch and `TransportInit()`: R242, R241, R101. -/
def State.startInit (s : State) : State :=
  if s.block.initDone then s.onBlock (·.raiseFatal .reinit)
  else
    { s with
      env := s.env.drawn
      block :=
        if s.env.claim then
          ({ s.block with lines := Lines.configure s.cfg.spiClkHz } : Block).begin true (powerOn s.cfg)
        else s.block.raiseFatal .busClaimFail }

/-- INIT, R152. -/
def execInit (s : State) : Host.Outcome State Fault Refusal := .next s.startInit

/-- CLEAR, R153. -/
def execClear (color : Word) (s : State) : Host.Outcome State Fault Refusal :=
  .next (s.draw (clearEvents s.cfg color))

/-- DRAW_PIXEL, R154. -/
def execDrawPixel (x y : Int) (color : Word) (s : State) : Host.Outcome State Fault Refusal :=
  .next (s.draw (pixelEvents s.cfg x y color))

/-- DRAW_GLYPH, R155. -/
def execDrawGlyph (code : Byte) (x y : Int) (fg bg : Word) (s : State) : Host.Outcome State Fault Refusal :=
  .next (s.draw (glyphEvents s.cfg code x y fg bg))

/-- DRAW_TEXT, R156. -/
def execDrawText (text : List Byte) (x y : Int) (fg bg : Word) (s : State) : Host.Outcome State Fault Refusal :=
  .next (s.draw (textEvents s.cfg y fg bg x text))

/-- DRAW_SMALL_BLOCK, R157. -/
def execDrawSmallBlock (x y : Int) (color : Word) (s : State) : Host.Outcome State Fault Refusal :=
  .next (s.draw (blockEvents s.cfg x y color))

/-- DRAW_HLINE, R158. -/
def execDrawHline (xs xe y : Int) (color : Word) (s : State) : Host.Outcome State Fault Refusal :=
  .next (s.draw (hlineEvents s.cfg xs xe y color))

/-- DRAW_VLINE, R159. -/
def execDrawVline (ys ye x : Int) (color : Word) (s : State) : Host.Outcome State Fault Refusal :=
  .next (s.draw (vlineEvents s.cfg ys ye x color))

/-- DRAW_SQUARE_OUTLINE, R160. -/
def execDrawSquareOutline (cx cy size : Int) (color : Word) (s : State) : Host.Outcome State Fault Refusal :=
  .next (s.draw (squareEvents s.cfg cx cy size color))

end Sys2Proof.Machine
end

