-- ==== Sys2Proof/Machine/Dispatch.lean ====
section
/-! DEFINITION. One arm for each row of spec/opcode_table.json. -/

namespace Sys2Proof.Machine

def exec (i : Instr) (s : State) : Host.Outcome State Fault Refusal :=
  match i with
  | .init => Sys2Proof.Machine.execInit s
  | .clear color => Sys2Proof.Machine.execClear color s
  | .drawPixel x y color => Sys2Proof.Machine.execDrawPixel x y color s
  | .drawGlyph code x y fg bg => Sys2Proof.Machine.execDrawGlyph code x y fg bg s
  | .drawText text x y fg bg => Sys2Proof.Machine.execDrawText text x y fg bg s
  | .drawSmallBlock x y color => Sys2Proof.Machine.execDrawSmallBlock x y color s
  | .drawHline xs xe y color => Sys2Proof.Machine.execDrawHline xs xe y color s
  | .drawVline ys ye x color => Sys2Proof.Machine.execDrawVline ys ye x color s
  | .drawSquareOutline cx cy size color => Sys2Proof.Machine.execDrawSquareOutline cx cy size color s
  | .slpout => Sys2Proof.Machine.execSlpout s
  | .colmod => Sys2Proof.Machine.execColmod s
  | .madctl => Sys2Proof.Machine.execMadctl s
  | .dispon => Sys2Proof.Machine.execDispon s
  | .caset => Sys2Proof.Machine.execCaset s
  | .raset => Sys2Proof.Machine.execRaset s
  | .ramwr => Sys2Proof.Machine.execRamwr s

end Sys2Proof.Machine
end

