-- ==== Sys2Proof/Machine/Agents.lean ====
section
/-! DEFINITION. What each agent does when it moves: the Host's register access (spec/10_state.md R20, R21), the request
decoder (spec/30_encoding.md R87), and the sequencer with the Panel at the other end of the link (spec/40_bus_transport.md
R100, spec/20_memory.md R72). -/

namespace Sys2Proof.Machine

/-! ### The request decoder -/

/-- `dispatch()` on the registers of a complete packet, R246. Registers that hold no request of R82 are met from no run:
the answer is R86's ILLEGAL_REQUEST (assumption 22). -/
def State.dispatch (s : State) : Host.Outcome State Fault Refusal :=
  match s.block.request with
  | some i => exec i s
  | none => .next (s.onBlock (·.raiseError .illegalRequest))

/-- A header word is accepted, R87. -/
def State.acceptHeader (s : State) (w : Word) : Host.Outcome State Fault Refusal :=
  let n := packetLen (hi8 w) (lo8 w) - 1
  let s := s.onBlock (·.loadHeader w)
  if illegalHeader (hi8 w) (lo8 w) then .next (s.onBlock (·.raiseError .illegalRequest))
  else if n = 0 then s.dispatch
  else .next (s.onBlock fun b => { b with need := n, mode := .rx })

/-- An operand or text word is accepted, R87. -/
def State.acceptOperand (s : State) (w : Word) : Host.Outcome State Fault Refusal :=
  let s := s.onBlock (·.loadOperand w)
  if s.block.need = 0 then s.dispatch else .next s

/-- A word is written to REQ. It is never accepted in mode EXEC or HALTED (R21). -/
def State.acceptWord (s : State) (w : Word) : Host.Outcome State Fault Refusal :=
  match s.block.mode with
  | .idle => s.acceptHeader w
  | .rx => s.acceptOperand w
  | .exec => .next s
  | .halted => .next s

/-! ### The Host moves -/

/-- The Host makes its next access, R20, R21, R30, R270. -/
def hostStep (s : State) : Host.Outcome State Fault Refusal :=
  match s.host.pending with
  | [] => .next s
  | .blockReset :: _ => .next s.popHost.blockReset
  | .read offset width :: _ =>
    if accessOk offset width then .next (s.popHost.logRead (s.block.readReg offset))
    else .refused (.hostAccess offset width)
  | .write offset width v :: _ =>
    if accessOk offset width then
      if offset = 0 then s.popHost.acceptWord v else .next s.popHost
    else .refused (.hostAccess offset width)

/-! ### The Block moves -/

/-- The Panel consumes a command byte: the instruction it decodes to runs. -/
def panelCommand (s : State) (b : Byte) : Host.Outcome State Fault Refusal :=
  match decodeCommand s.cfg b with
  | some c => exec c.toInstr s
  | none => .next (s.onPanel (Panel.command Panel.unknown))

/-- The Panel consumes one bus event, R200. -/
def panelStep (s : State) (e : BusEvent) : Host.Outcome State Fault Refusal :=
  match e with
  | .rst false => .next (s.onPanel Panel.resetLow)
  | .rst true => .next (s.onPanel Panel.resetHigh)
  | .delay ms => .next (s.onPanel (·.delay ms))
  | .cmd b => panelCommand s b
  | .data bs => .next (s.onPanel fun p => bs.foldl (Panel.byte s.cfg) p)

/-- The Block emits E[SEQ] and the event completes at the Panel, R100: one event is one step (assumption 2). SEQ past the
end of E is met from no run: the request is over then (assumption 22). -/
def blockStep (s : State) : Host.Outcome State Fault Refusal :=
  match s.block.events[s.block.seq]? with
  | some e => mapNext (·.onBlock Block.eventDone) (panelStep (s.onBlock (·.emit s.cfg e)) e)
  | none => .next (s.onBlock Block.finish)

/-- Nobody can move. A HALTED Block with a Host write pending (R245) and a packet whose words never come (I12) are stuck;
otherwise the run has ended and the Block idles (R258, R285; assumption 16). DESIGN CHOICE: a block reset behind
the held write does not end the stuck run (assumption 30). -/
def idleStep (s : State) : Host.Outcome State Fault Refusal :=
  if s.host.pending ≠ [] then .fault .stuckHalted
  else if s.block.rxpend then .fault .stuckAwaitingWords
  else .next s

/-- One step of the machine. -/
def stepOnce (s : State) : Host.Outcome State Fault Refusal :=
  match s.mover with
  | some .host => hostStep s.popTurn
  | some .block => blockStep s.popTurn
  | none => idleStep s.popTurn

/-! ### Placing an instruction where the next step takes it (assumption 21) -/

/-- A request packet of which the Host still writes the last word: the words before it are in the operand registers. -/
def State.withPacket (s : State) : List Word → State
  | [] => s
  | h :: ws =>
    let b := s.block.loadHeader h
    let write (w : Word) : List HostOp := .write 0 16 w :: s.host.pending
    match ws.reverse with
    | [] =>
      { s with block := { s.block with mode := .idle }, host := { s.host with pending := write h }, turns := [] }
    | last :: _ =>
      { s with
        block := { ws.dropLast.foldl Block.loadOperand { b with need := ws.length } with mode := .rx }
        host := { s.host with pending := write last }
        turns := [] }

/-- A Panel command as the one event of the sequencer's expansion. -/
def State.withCommand (s : State) (b : Byte) : State :=
  { s with
    block := { s.block with events := [.cmd b], seq := 0, initRun := false, mode := .exec }
    turns := [] }

/-- The instruction whose machine form is c stands next. -/
def State.withCode (s : State) : Code → State
  | .packet ws => s.withPacket ws
  | .command b => s.withCommand b

end Sys2Proof.Machine
end

