-- ==== Sys2Proof/Machine/Step.lean ====
section
/-! DEFINITION. One step, and the placing of an instruction where the next step takes it. -/

namespace Sys2Proof.Machine

/-- One step of the machine: the Host makes one access, or the Block emits one bus event which the Panel consumes. -/
def step (s : State) : Host.Outcome State Fault Refusal := stepOnce s

/-- The state whose next step runs the instruction of an opcode-table word. -/
def State.withFetchWord (s : State) (nbits w : Nat) : State := s.withCode (tableCode nbits w)

end Sys2Proof.Machine
end

