-- ==== Sys2Proof/Safety.lean ====
section
/-! DEFINITION. What a good run is, in the terms the statements use: a complete Panel (spec/44_cursor_engine.md R237), the
end and the success of a run (spec/70_reset_and_hazards.md R285), a Panel ready to draw, and the invariant of the
block protocol (R238). -/

namespace Sys2Proof.Machine

/-- The Panel is complete, R237. -/
abbrev Panel.Complete (p : Panel) : Prop :=
  p.rx = .idle ∨ (p.rx = .stream ∧ p.full = some true ∧ p.hi = none)

/-- The run has ended, R285: the Host has no further request word to write (reads, ineffective writes and block resets may
be left, assumption 28), and no packet is running or partly received. Every event is consumed in the step that emits it. -/
abbrev State.Ended (s : State) : Prop :=
  (∀ op ∈ s.host.pending, op.isReqWrite = false) ∧ (s.block.mode = .idle ∨ s.block.mode = .halted) ∧ s.block.need = 0

/-- The run has ended and is successful, R285 and R237. -/
abbrev State.Successful (s : State) : Prop :=
  s.Ended ∧ s.block.halted = false ∧ s.block.err = false ∧ s.panel.pf = [] ∧ s.panel.Complete

/-- The Panel as the power-on sequence and every whole request leave it: awake, lit, complete and without a fault. -/
abbrev Panel.Ready (p : Panel) : Prop :=
  p.pstate = .active ∧ p.initStage = some 4 ∧ p.slpPending = some false ∧ p.pf = [] ∧ p.Complete

/-- While its reset line is low the Panel holds what R201 gave it. -/
abbrev Panel.ResetHeld (p : Panel) : Prop :=
  p.pstate = .inReset →
    p.initStage = some 0 ∧ p.slpPending = some false ∧ p.rx = .idle ∧ p.hi = none

/-- The Panel as the rest of the running expansion will leave it. -/
def State.panelAtEnd (s : State) : Panel := s.panel.consumeAll s.cfg (s.block.events.drop s.block.seq)

/-- The invariant behind R238: no panel fault has been raised, what the running request has still to emit raises none
either and leaves the Panel ready (so it is complete after every request), and once INIT is done the Panel is ready
between requests. -/
structure State.ProtocolInv (s : State) : Prop where
  legal : s.cfg.Legal
  noFault : s.panel.pf = []
  resetHeld : s.panel.ResetHeld
  running : s.block.mode = .exec →
    s.block.seq < s.block.events.length ∧ (s.block.initDone = true ∨ s.block.initRun = true) ∧ s.panelAtEnd.Ready
  between : s.block.mode ≠ .exec → s.block.initDone = true → s.panel.Ready
  /-- in mode RX words are missing, R34 -/
  receiving : s.block.mode = .rx → 0 < s.block.need

/-! ### Admission of a command -/

/-- A command now passes R203 and R205 without a fault: the Panel is past its reset hold and its settle time, and no
argument list and no stream is open. No fault was raised before: after one, R230 leaves the Panel's state open. -/
abbrev Panel.Admits (p : Panel) : Prop :=
  (p.pstate = .active ∨ (p.pstate = .recovering ∧ tRstHighMin ≤ p.tRst)) ∧
  (p.slpPending = some false ∨ (p.slpPending = some true ∧ tSlpoutMin ≤ p.tSlp.getD 0)) ∧
  p.Complete ∧ p.pf = []

/-- The Panel after R203 and R205 have let a command pass. -/
def Panel.admitted (p : Panel) : Panel :=
  { p with pstate := .active, slpPending := some false, rx := .idle, hi := none }

/-- The stage a command requires, R210 to R216. -/
def commandStage : PanelCmd → Fin 5
  | .slpout => 0
  | .colmod => 1
  | .madctl => 2
  | .dispon => 3
  | .caset => 4
  | .raset => 4
  | .ramwr => 4

/-! ### Windows and pixels -/

/-- Cell (a, b) lies in the window. -/
abbrev InWindow (x0 y0 x1 y1 : Int) (a b : Nat) : Prop := x0 ≤ a ∧ (a : Int) ≤ x1 ∧ y0 ≤ b ∧ (b : Int) ≤ y1

/-- The place of cell (a, b) in its window's stream, R225. -/
def streamPlace (x0 y0 x1 : Int) (a b : Nat) : Nat := ((b - y0) * (x1 - x0 + 1) + (a - x0)).toNat

/-- The color R143 gives row r, column k of a glyph. -/
def glyphColor (code : Byte) (fg bg : Word) (r k : Nat) : Word :=
  if ((glyphRows code).toList.getD r 0).getLsbD (7 - k) then fg else bg

/-- The expansion of a drawing request; the other instructions have none. -/
def drawExpansion (cfg : Config) : Instr → Option (List BusEvent)
  | .init => none
  | .clear c => some (clearEvents cfg c)
  | .drawPixel x y c => some (pixelEvents cfg x y c)
  | .drawGlyph code x y fg bg => some (glyphEvents cfg code x y fg bg)
  | .drawText text x y fg bg => some (textEvents cfg y fg bg x text)
  | .drawSmallBlock x y c => some (blockEvents cfg x y c)
  | .drawHline xs xe y c => some (hlineEvents cfg xs xe y c)
  | .drawVline ys ye x c => some (vlineEvents cfg ys ye x c)
  | .drawSquareOutline cx cy size c => some (squareEvents cfg cx cy size c)
  | .slpout => none
  | .colmod => none
  | .madctl => none
  | .dispon => none
  | .caset => none
  | .raset => none
  | .ramwr => none

/-! ### Runs -/

/-- Run steps until the Block is no longer busy, at most n of them. -/
def runBusy : Nat → State → Option State
  | 0, s => some s
  | n + 1, s =>
    if s.block.busy then
      match step s with
      | .next t => runBusy n t
      | .fault _ => none
      | .refused _ => none
    else some s

/-- Run n steps. -/
def runSteps : Nat → State → Option State
  | 0, s => some s
  | n + 1, s =>
    match step s with
    | .next t => runSteps n t
    | .fault _ => none
    | .refused _ => none

/-- Dispatch a request and run its expansion to the end. -/
def runRequest (i : Instr) (s : State) : Option State :=
  match exec i s with
  | .next t => runBusy t.block.events.length t
  | .fault _ => none
  | .refused _ => none

/-- A state in which a drawing request draws: legal parameters, INIT done, the Panel ready, and no turn given to the Host
while the Block is busy. -/
abbrev State.CanDraw (s : State) : Prop :=
  s.cfg.Legal ∧ s.block.initDone = true ∧ s.panel.Ready ∧ s.turns = []

/-- A state from which INIT brings the Panel up: legal parameters, INIT not done, the bus claim granted, no panel fault
so far, and no turn given to the Host while the Block is busy. -/
abbrev State.CanInit (s : State) : Prop :=
  s.cfg.Legal ∧ s.block.initDone = false ∧ s.env.claim = true ∧ s.panel.pf = [] ∧ s.panel.ResetHeld ∧ s.turns = []

end Sys2Proof.Machine
end

