-- ==== Sys2Proof/Certificates/Slice0/Obligations.lean ====
section
/-! DEFINITION. The statements for the provers. -/

open Sys2Proof Sys2Proof.Machine

/-! ### Encoding -/

/-- Decoding the encoding of a well-formed instruction gives it back, for all sixteen instructions and every operand
value (R81 to R84, R91). -/
def Obligations.DecodeEncodeRoundTrip : Prop :=
  ∀ (cfg : Config) (i : Instr), cfg.Legal → i.WellFormed → decode cfg (encode cfg i) = .ok i

/-- A packet that decodes is the encoding of its instruction, but for the padding byte of a DRAW_TEXT of odd length. -/
def Obligations.EncodeRecoversThePacket : Prop :=
  ∀ (cfg : Config) (ws : List Word) (i : Instr), decode cfg (.packet ws) = .ok i →
    i.WellFormed ∧
    ((∀ text x y fg bg, i = .drawText text x y fg bg → text.length % 2 = 0) → encode cfg i = .packet ws)

/-- R85: the packet length is a function of the header alone, by the table, and never above 133 words. -/
def Obligations.PacketLengthTable : Prop :=
  (∀ opc arg8 : Byte, packetLen opc arg8 =
    if illegalHeader opc arg8 then 1
    else if opc = 0x01 then 1
    else if opc = 0x02 then 2
    else if opc = 0x03 ∨ opc = 0x06 then 4
    else if opc = 0x05 then 5 + (arg8.toNat + 1) / 2
    else 5) ∧
  (∀ opc arg8 : Byte, packetLen opc arg8 ≤ 133) ∧ packetLen 0x05 0xFF = 133

/-- R86: a header is rejected exactly when its OPC is outside 0x01 to 0x09, or its ARG8 is nonzero and its OPC is neither
0x04 nor 0x05; after any other header every sequence of that many words is a packet. -/
def Obligations.IllegalHeadersExactly : Prop :=
  ∀ (opc arg8 : Byte) (ws : List Word),
    ((opc.toNat < 1 ∨ 9 < opc.toNat ∨ (opc ≠ 0x04 ∧ opc ≠ 0x05 ∧ arg8 ≠ 0x00)) →
      decodePacket (header opc arg8 :: ws) = .error (.illegalRequest (header opc arg8))) ∧
    (¬ (opc.toNat < 1 ∨ 9 < opc.toNat ∨ (opc ≠ 0x04 ∧ opc ≠ 0x05 ∧ arg8 ≠ 0x00)) →
      ws.length + 1 = packetLen opc arg8 → ∃ i, decodePacket (header opc arg8 :: ws) = .ok (i, []))

/-- R84: text word k holds character 2k in its high byte and, where there is one, character 2k+1 in its low byte; the low
byte of the last word of an odd count is ignored. -/
def Obligations.TextWordsHoldTheCharacters : Prop :=
  ∀ (n : Byte) (x y fg bg : Word) (ws : List Word), ws.length = (n.toNat + 1) / 2 →
    ∃ text : List Byte,
      decodePacket (header 0x05 n :: x :: y :: fg :: bg :: ws) = .ok (.drawText text x.toInt y.toInt fg bg, []) ∧
      text.length = n.toNat ∧
      ∀ k, k < n.toNat → text[k]? = (ws[k / 2]?).map fun w => if k % 2 = 0 then hi8 w else lo8 w

/-- R91, R92: under legal parameters a command byte is decoded by equality with the seven of them, and any other byte is no
command. -/
def Obligations.CommandBytesByEquality : Prop :=
  ∀ (cfg : Config), cfg.Legal → ∀ b : Byte,
    (decodeCommand cfg b = some .slpout ↔ b = cfg.opcSlpout) ∧ (decodeCommand cfg b = some .colmod ↔ b = cfg.opcColmod) ∧
    (decodeCommand cfg b = some .madctl ↔ b = cfg.opcMadctl) ∧ (decodeCommand cfg b = some .dispon ↔ b = cfg.opcDispon) ∧
    (decodeCommand cfg b = some .caset ↔ b = cfg.opcCaset) ∧ (decodeCommand cfg b = some .raset ↔ b = cfg.opcRaset) ∧
    (decodeCommand cfg b = some .ramwr ↔ b = cfg.opcRamwr) ∧ (decodeCommand cfg b = none ↔ b ∉ cfg.opcodes)

/-- Packets written out from the table of R82 decode to the instruction they stand for. So does the command byte 0x2A: R91
leaves the byte of CASET to a parameter, and 0x2A is its presumed default (general knowledge G1, log 5). -/
def Obligations.SampleWordsDecode : Prop :=
  decode Config.standard (.packet [0x0100]) = .ok .init ∧
  decode Config.standard (.packet [0x0700, 0xFFFB, 0x00C8, 0x000A, 0x07E0]) = .ok (.drawHline (-5) 200 10 0x07E0) ∧
  decode Config.standard (.packet [0x0448, 0x0098, 0x0078, 0xFFFF, 0x0000]) = .ok (.drawGlyph 0x48 152 120 0xFFFF 0x0000) ∧
  decode Config.standard (.packet [0x0900, 0x0050, 0x0040, 0x000A, 0x001F]) =
    .ok (.drawSquareOutline 80 64 10 0x001F) ∧
  decode Config.standard (.command 0x2A) = .ok .caset ∧
  decode Config.standard (.packet [0x0301]) = .error (.illegalRequest 0x0301)

/-! ### A step runs the decoded instruction -/

/-- When the last word of a packet is accepted, the step is `exec` of the request that the operand registers then hold;
when the INIT header is accepted, it is `exec` of INIT (R87). The step takes the Host's access and its turn off their
lists and stores the word. -/
def Obligations.StepRunsTheDecodedRequest : Prop :=
  (∀ (s : State) (w : Word) (rest : List HostOp) (opc arg8 : Byte) (i : Instr),
    s.block.mode = .rx → s.block.need = 1 → s.host.pending = .write 0 16 w :: rest →
    s.block.opc = some opc → s.block.arg8 = some arg8 →
    decodeFields opc arg8 (loadWord arg8 (s.block.opnd, s.block.text) w).1
      (loadWord arg8 (s.block.opnd, s.block.text) w).2 = some i →
    step s = exec i { s with
      turns := s.turns.tail
      host := { s.host with pending := rest }
      block := { s.block with
        opnd := (loadWord arg8 (s.block.opnd, s.block.text) w).1
        text := (loadWord arg8 (s.block.opnd, s.block.text) w).2
        need := 0 } }) ∧
  (∀ (s : State) (rest : List HostOp), s.block.mode = .idle → s.host.pending = .write 0 16 0x0100 :: rest →
    step s = exec .init { s with
      turns := s.turns.tail
      host := { s.host with pending := rest }
      block := { s.block with opc := some 0x01, arg8 := some 0x00, opnd := [], text := [], need := 0 } })

/-- When the event the sequencer points at is a command byte of the set, the step is `exec` of that command, on the state
in which the Block has emitted the event, followed by the completion of the event (R33, R100, R200). -/
def Obligations.StepRunsTheDecodedCommand : Prop :=
  ∀ (s : State) (b : Byte) (c : PanelCmd), s.mover = some .block →
    s.block.events[s.block.seq]? = some (.cmd b) → decodeCommand s.cfg b = some c →
    step s = mapNext (·.onBlock Block.eventDone)
      (exec c.toInstr { s with turns := s.turns.tail, block := s.block.emit s.cfg (.cmd b) })

/-- The words of one packet, written to REQ one after the other, are received word by word, and the last one runs the
request that `decodePacket` reads from them (R80, R87). -/
def Obligations.PacketWordsRunTheRequest : Prop :=
  ∀ (s : State) (h : Word) (ws : List Word) (i : Instr) (rest : List HostOp),
    decodePacket (h :: ws) = .ok (i, []) → s.block.mode = .idle →
    s.host.pending = (h :: ws).map (HostOp.write 0 16) ++ rest →
    ∃ t u : State, runSteps ws.length s = some t ∧ step t = exec i u ∧
      t.block.trace = s.block.trace ∧ t.panel = s.panel ∧
      u.cfg = s.cfg ∧ u.panel = s.panel ∧ u.env = s.env ∧ u.host = ⟨rest, s.host.readLog⟩ ∧
      u.block = { s.block with
        opc := some (hi8 h), arg8 := some (lo8 h), need := 0, mode := if ws = [] then .idle else .rx
        opnd := (ws.foldl (loadWord (lo8 h)) ([], [])).1, text := (ws.foldl (loadWord (lo8 h)) ([], [])).2 }

/-- A busy Block whose turn it is emits E[SEQ], the Panel consumes it, and SEQ rises by 1; at SEQ = |E| the request is over
(R33, R72, R100). -/
def Obligations.StepEmitsOneEvent : Prop :=
  ∀ (s : State) (e : BusEvent), s.mover = some .block → s.block.events[s.block.seq]? = some e →
    ∃ t, step s = .next t ∧
      t.block.trace = s.block.trace ++ [e] ∧ t.block.seq = s.block.seq + 1 ∧ t.block.events = s.block.events ∧
      t.panel = s.panel.consume s.cfg e ∧
      t.block.mode = (if s.block.seq + 1 < s.block.events.length then .exec else .idle) ∧
      t.block.initDone = (if s.block.seq + 1 < s.block.events.length then s.block.initDone
        else (s.block.initDone || s.block.initRun)) ∧
      t.block.err = s.block.err ∧ t.block.cause = s.block.cause ∧ t.block.opc = s.block.opc ∧
      t.block.arg8 = s.block.arg8 ∧ t.block.opnd = s.block.opnd ∧ t.block.text = s.block.text ∧
      t.block.need = s.block.need ∧ t.host = s.host ∧ t.env = s.env ∧ t.cfg = s.cfg

/-- R105, R106, R110: what an event does to the lines once they are configured: `Rst(l)` drives the reset line to l, `Delay`
changes no line, and a command or data transfer leaves chip select inactive and D/C at its own level. That the lines hold
these levels after the event is the model's reading of the informative R110 (log 26), and the polarities are presumed (log
18; D/C's is the parameter `dcCommand`). The clock rate and the SPI mode stay. -/
def Obligations.EventsDriveTheLines : Prop :=
  ∀ (s : State) (e : BusEvent), s.mover = some .block → s.block.events[s.block.seq]? = some e →
    s.block.lines.cfg = true →
    ∃ t, step s = .next t ∧ t.block.lines = { s.block.lines with
      rst := match e with
        | .rst l => some l
        | .delay _ => s.block.lines.rst
        | .cmd _ => s.block.lines.rst
        | .data _ => s.block.lines.rst
      dc := match e with
        | .rst _ => s.block.lines.dc
        | .delay _ => s.block.lines.dc
        | .cmd _ => some s.cfg.dcCommand
        | .data _ => some (!s.cfg.dcCommand)
      cs := match e with
        | .rst _ => s.block.lines.cs
        | .delay _ => s.block.lines.cs
        | .cmd _ => some true
        | .data _ => some true }

/-- A running expansion is emitted whole and in order, with no event of another request between, and the Panel consumes it
in that order (R33, R68, R72). -/
def Obligations.ExpansionIsEmittedWhole : Prop :=
  ∀ (s : State), s.block.mode = .exec → s.block.seq < s.block.events.length → s.turns = [] →
    ∃ t, runSteps (s.block.events.length - s.block.seq) s = some t ∧
      t.block.trace = s.block.trace ++ s.block.events.drop s.block.seq ∧
      t.panel = s.panel.consumeAll s.cfg (s.block.events.drop s.block.seq) ∧
      t.block.mode = .idle ∧ t.block.seq = s.block.events.length ∧ t.block.sb = none ∧
      t.block.initDone = (s.block.initDone || s.block.initRun) ∧
      t.block.err = s.block.err ∧ t.block.cause = s.block.cause ∧
      t.host = s.host ∧ t.env = s.env ∧ t.cfg = s.cfg

/-- No event is emitted but by a busy Block: in every other mode a step leaves the trace and the Panel as they are, or is a
block reset. -/
def Obligations.OnlyABusyBlockEmits : Prop :=
  ∀ (s t : State), s.block.mode ≠ .exec → step s = .next t →
    t.panel = s.panel ∧
    (t.block.trace = s.block.trace ∨ (s.host.pending.head? = some .blockReset ∧ t.block = Block.reset))

/-! ### The Host's accesses -/

/-- R20, R29, R30: a 16-bit read at an even offset returns STATUS, WIDTH, HEIGHT or zero and changes nothing else; a 16-bit
write at an even offset other than REQ's has no effect; an access of another width or at an odd offset has no step. -/
def Obligations.HostRegisterAccesses : Prop :=
  ∀ (s : State) (rest : List HostOp), s.mover = some .host →
    (∀ offset, offset % 2 = 0 → s.host.pending = .read offset 16 :: rest →
      step s = .next { s with
        turns := s.turns.tail
        host := ⟨rest, s.host.readLog ++
          [if offset = 2 then s.block.status else if offset = 4 then 160 else if offset = 6 then 128 else 0]⟩ }) ∧
    (∀ offset v, offset % 2 = 0 → offset ≠ 0 → s.host.pending = .write offset 16 v :: rest →
      step s = .next { s with turns := s.turns.tail, host := { s.host with pending := rest } }) ∧
    (∀ offset width v, (width ≠ 16 ∨ offset % 2 = 1) →
      (s.host.pending = .read offset width :: rest ∨ s.host.pending = .write offset width v :: rest) →
      step s = .refused (.hostAccess offset width))

/-- R21, R245: a REQ write waits while the Block is busy: it stays the Host's next access and the Block moves. With the Block
HALTED, REQ is never ready: a REQ write is never accepted and the run is stuck, no step emits an event, and only a block
reset changes the Block. R285 (I12): a packet partly received with no Host access left is stuck too. R285, R258: a run that
has ended stays ended and emits nothing, and with no access left the Block idles. That a stuck run is a fault of `step` and
an idle one a step that only uses up a turn is the model's choice (log 16, log 3); that only words for REQ count as words
left to write is its reading (log 28); and so is it that a block reset behind the held write is not taken (log 30, a
DESIGN CHOICE). -/
def Obligations.ReqWriteWaitsUntilReady : Prop :=
  ∀ s : State,
    (∀ (w : Word) (rest : List HostOp), s.host.pending = .write 0 16 w :: rest →
      (s.block.mode = .exec → s.mover = some .block ∧ ∀ t, step s = .next t → t.host = s.host ∧
        t.block.opc = s.block.opc ∧ t.block.arg8 = s.block.arg8 ∧ t.block.opnd = s.block.opnd ∧
        t.block.text = s.block.text ∧ t.block.need = s.block.need) ∧
      (s.block.mode = .halted → step s = .fault .stuckHalted)) ∧
    (s.block.mode = .halted → s.block.reqReady = false ∧
      ∀ t, step s = .next t → t.panel = s.panel ∧
        (t.block = s.block ∨ (s.host.pending.head? = some .blockReset ∧ t.block = Block.reset))) ∧
    (s.block.mode = .rx → s.host.pending = [] → step s = .fault .stuckAwaitingWords) ∧
    (s.Ended →
      (s.host.pending = [] → step s = .next { s with turns := s.turns.tail }) ∧
      ∀ t, step s = .next t → t.Ended ∧ t.panel = s.panel ∧
        (t.block = s.block ∨ (s.host.pending.head? = some .blockReset ∧ t.block = Block.reset)))

/-- R270: block reset gives every Block field its reset value and leaves the Panel as it is; only the operand count NEED,
the line clock fields and the model's own `initRun` have a value the model chose (log 13, 14, 15). -/
def Obligations.BlockResetKeepsThePanel : Prop :=
  ∀ (s : State) (rest : List HostOp), s.mover = some .host → s.host.pending = .blockReset :: rest →
    ∃ t, step s = .next t ∧ t.panel = s.panel ∧ t.cfg = s.cfg ∧ t.env = s.env ∧ t.host = ⟨rest, s.host.readLog⟩ ∧
      t.block.status = 0x0000 ∧ t.block.readReg 4 = 0x00A0 ∧ t.block.readReg 6 = 0x0080 ∧
      t.block.mode = .idle ∧ t.block.initDone = false ∧ t.block.err = false ∧
      t.block.cause = .none ∧ t.block.opc = none ∧ t.block.arg8 = none ∧ t.block.opnd = [] ∧ t.block.text = [] ∧
      t.block.events = [] ∧ t.block.seq = 0 ∧ t.block.sb = none ∧ t.block.lines.cfg = false ∧
      t.block.lines.cs = none ∧ t.block.lines.dc = none ∧ t.block.lines.rst = none ∧ t.block.trace = []

/-- R22, R34: STATUS is a function of the mode and of INIT_DONE, ERR and CAUSE; its reserved bits read as zero. R240:
the code of each cause. -/
def Obligations.StatusFields : Prop :=
  ∀ b : Block,
    b.status.getLsbD 0 = b.initDone ∧
    b.status.getLsbD 1 = decide (b.mode = .exec) ∧
    b.status.getLsbD 2 = decide (b.mode = .rx) ∧
    b.status.getLsbD 3 = decide (b.mode = .halted) ∧
    b.status.getLsbD 4 = b.err ∧
    b.status.extractLsb' 5 3 = 0 ∧
    b.status.extractLsb' 8 4 = b.cause.code ∧
    b.status.extractLsb' 12 4 = 0 ∧
    b.cause.code.toNat ≤ 4 ∧
    (b.status.extractLsb' 8 4).toNat = (match b.cause with
      | .none => 0
      | .busClaimFail => 1
      | .reinit => 2
      | .notInitialized => 3
      | .illegalRequest => 4)

/-- R270, R271, R36: the values the spec gives the Block after block reset, its constant registers among them, and the Panel
at power-up. -/
def Obligations.ResetState : Prop :=
  State.reset.block.status = 0x0000 ∧ State.reset.block.mode = .idle ∧ State.reset.block.events = [] ∧
  State.reset.block.seq = 0 ∧ State.reset.block.opc = none ∧ State.reset.block.arg8 = none ∧
  State.reset.block.opnd = [] ∧ State.reset.block.text = [] ∧ State.reset.block.sb = none ∧
  State.reset.block.trace = [] ∧ State.reset.block.lines.cfg = false ∧ State.reset.block.lines.cs = none ∧
  State.reset.block.lines.dc = none ∧ State.reset.block.lines.rst = none ∧
  State.reset.block.readReg 4 = 0x00A0 ∧ State.reset.block.readReg 6 = 0x0080 ∧
  State.reset.panel.pstate = .unreset ∧ State.reset.panel.tRst = 0 ∧ State.reset.panel.rx = .idle ∧
  State.reset.panel.hi = none ∧ State.reset.panel.pf = [] ∧ State.reset.panel.initStage = none ∧
  State.reset.panel.slpPending = none ∧ State.reset.panel.tSlp = none ∧ State.reset.panel.sleep = none ∧
  State.reset.panel.displayOn = none ∧ State.reset.panel.colmod = none ∧ State.reset.panel.madctl = none ∧
  State.reset.panel.xs = none ∧ State.reset.panel.xe = none ∧ State.reset.panel.ys = none ∧ State.reset.panel.ye = none ∧
  State.reset.panel.cx = none ∧ State.reset.panel.cy = none ∧ State.reset.panel.full = none ∧
  ∀ c r, State.reset.panel.cell c r = none

/-- R23, R26, R27: INIT_DONE, ERR and HALTED go back to 0 only by a block reset. INIT_DONE rises only where the last event
of an INIT completes, HALTED only with a fatal cause and without ERR, and ERR only with a non-fatal cause and without
HALTED; while HALTED is 1, BUSY, RXPEND and REQ_READY are 0. No step changes a parameter of R7. -/
def Obligations.StickyStatusBits : Prop :=
  ∀ (s t : State), step s = .next t → t.cfg = s.cfg ∧
    (t.block.halted = true → t.block.busy = false ∧ t.block.rxpend = false ∧ t.block.reqReady = false) ∧
    ((s.host.pending.head? = some .blockReset ∧ t.block = Block.reset) ∨
    ((s.block.initDone = true → t.block.initDone = true) ∧
     (s.block.err = true → t.block.err = true) ∧
     (s.block.halted = true → t.block.halted = true) ∧
     (s.block.initDone = false → t.block.initDone = true →
       s.block.mode = .exec ∧ s.block.initRun = true ∧ s.block.events.length ≤ s.block.seq + 1) ∧
     (s.block.halted = false → t.block.halted = true →
       (t.block.cause = .busClaimFail ∨ t.block.cause = .reinit) ∧ t.block.err = s.block.err) ∧
     (s.block.err = false → t.block.err = true →
       (t.block.cause = .notInitialized ∨ t.block.cause = .illegalRequest) ∧ t.block.halted = false)))

/-! ### Errors -/

/-- R243, R86: an ILLEGAL header is consumed alone and raises ILLEGAL_REQUEST: ERR and CAUSE are set, the Block is at once
ready for the next header, nothing is emitted. The header is in OPC and ARG8 (R87); that the other operand registers are
emptied by a header is the model's reading (log 19), and NEED 0 its choice (log 14), as it is that E and SEQ stay (log 29). -/
def Obligations.IllegalHeaderRaisesTheError : Prop :=
  ∀ (s : State) (h : Word) (rest : List HostOp), s.block.mode = .idle → s.host.pending = .write 0 16 h :: rest →
    ((hi8 h).toNat < 1 ∨ 9 < (hi8 h).toNat ∨ (hi8 h ≠ 0x04 ∧ hi8 h ≠ 0x05 ∧ lo8 h ≠ 0x00)) →
    step s = .next { s with
      turns := s.turns.tail
      host := { s.host with pending := rest }
      block := { s.block with
        opc := some (hi8 h), arg8 := some (lo8 h), opnd := [], text := [], need := 0
        err := true, cause := .illegalRequest, mode := .idle } }

/-- R244: each of the eight drawing requests, dispatched before INIT is done, raises NOT_INITIALIZED and has no other
effect. So the words of any packet but INIT's, written before INIT is done, are all consumed and nothing is emitted. That
E and SEQ stay is the model's choice (log 29). -/
def Obligations.DrawingBeforeInitRaisesTheError : Prop :=
  (∀ (s : State) (i : Instr) (E : List BusEvent), drawExpansion s.cfg i = some E → s.block.initDone = false →
    exec i s = .next { s with block := { s.block with err := true, cause := .notInitialized, mode := .idle } }) ∧
  (∀ (s : State) (h : Word) (ws : List Word) (i : Instr) (rest : List HostOp),
    decodePacket (h :: ws) = .ok (i, []) → i ≠ .init → s.block.mode = .idle → s.block.initDone = false →
    s.host.pending = (h :: ws).map (HostOp.write 0 16) ++ rest →
    ∃ t, runSteps (ws.length + 1) s = some t ∧ t.host = ⟨rest, s.host.readLog⟩ ∧ t.block.err = true ∧
      t.block.cause = .notInitialized ∧ t.block.mode = .idle ∧ t.block.initDone = false ∧ t.block.need = 0 ∧
      t.block.trace = s.block.trace ∧ t.block.lines = s.block.lines ∧ t.panel = s.panel ∧ t.env = s.env)

/-- R241, R242, R248: a second INIT is fatal, and so is an INIT whose bus claim is refused: HALTED and CAUSE are set, ERR is
not, nothing is emitted, the lines stay as they are; only the refused claim has drawn from the Environment. That E and SEQ stay is the
model's choice (log 29). -/
def Obligations.FatalInits : Prop :=
  ∀ s : State,
    (s.block.initDone = true →
      exec .init s = .next { s with block := { s.block with cause := .reinit, mode := .halted } }) ∧
    (s.block.initDone = false → s.env.claim = false →
      exec .init s = .next { s with
        env := ⟨s.env.answers.tail, s.env.draws + 1⟩
        block := { s.block with cause := .busClaimFail, mode := .halted } })

/-! ### Requests: what each one emits -/

/-- R101, R120, R152: the word 0x0100 is INIT; INIT with the claim granted configures the lines and starts the eleven events of the power-on
sequence; INIT_DONE is set at their end. -/
def Obligations.InitStartsThePowerOnSequence : Prop :=
  decodePacket [0x0100] = .ok (.init, []) ∧
  ∀ s : State, s.block.initDone = false → s.env.claim = true →
    exec .init s = .next { s with
      env := ⟨s.env.answers.tail, s.env.draws + 1⟩
      block := { s.block with
        lines := { cfg := true, cs := some true, dc := some true, rst := some true, clkHz := s.cfg.spiClkHz, mode := 0 }
        events := [.rst false, .delay s.cfg.tRstLow, .rst true, .delay s.cfg.tRstHigh, .cmd s.cfg.opcSlpout,
          .delay s.cfg.tSlpout, .cmd s.cfg.opcColmod, .data [s.cfg.pixfmt16], .cmd s.cfg.opcMadctl,
          .data [s.cfg.madctlValue], .cmd s.cfg.opcDispon]
        seq := 0, initRun := true, mode := .exec } }

/-- R153: the words 0x0200, color are CLEAR; it frames the whole screen and streams 128 rows of 160 pixels, each pixel high byte first. -/
def Obligations.ClearExpansion : Prop :=
  (∀ w : Word, decodePacket [0x0200, w] = .ok (.clear w, [])) ∧
  ∀ (s : State) (c : Word), s.block.initDone = true →
    exec (.clear c) s = .next { s with block := { s.block with
      events := [.cmd s.cfg.opcCaset, .data [0x00, 0x00, 0x00, 0x9F], .cmd s.cfg.opcRaset, .data [0x00, 0x00, 0x00, 0x7F],
        .cmd s.cfg.opcRamwr] ++ List.replicate 128 (.data (List.replicate 160 [hi8 c, lo8 c]).flatten)
      seq := 0, initRun := false, mode := .exec } }

/-- R154: the words 0x0300, x, y, color are DRAW_PIXEL; it frames its 1×1 window and streams one color, or does nothing when it is out of range. -/
def Obligations.DrawPixelExpansion : Prop :=
  (∀ w1 w2 w3 : Word, decodePacket [0x0300, w1, w2, w3] = .ok (.drawPixel w1.toInt w2.toInt w3, [])) ∧
  ∀ (s : State) (x y : Int) (c : Word), s.block.initDone = true →
    exec (.drawPixel x y c) s = .next { s with block := { s.block with
      events := if 0 ≤ x ∧ x ≤ 159 ∧ 0 ≤ y ∧ y ≤ 127 then setWindow s.cfg x y x y ++ [.data [hi8 c, lo8 c]] else []
      seq := 0, initRun := false
      mode := if 0 ≤ x ∧ x ≤ 159 ∧ 0 ≤ y ∧ y ≤ 127 then .exec else .idle } }

/-- R155: a header of OPC 0x04 and the words x, y, fg, bg are DRAW_GLYPH; it frames an 8×8 window and streams its raster, or does nothing unless the whole cell fits. -/
def Obligations.DrawGlyphExpansion : Prop :=
  (∀ (code : Byte) (w1 w2 w3 w4 : Word), decodePacket [header 0x04 code, w1, w2, w3, w4] =
    .ok (.drawGlyph code w1.toInt w2.toInt w3 w4, [])) ∧
  ∀ (s : State) (code : Byte) (x y : Int) (fg bg : Word), s.block.initDone = true →
    exec (.drawGlyph code x y fg bg) s = .next { s with block := { s.block with
      events := if 0 ≤ x ∧ x ≤ 152 ∧ 0 ≤ y ∧ y ≤ 120 then
        setWindow s.cfg x y (x + 7) (y + 7) ++ [.data (raster code fg bg)] else []
      seq := 0, initRun := false
      mode := if 0 ≤ x ∧ x ≤ 152 ∧ 0 ≤ y ∧ y ≤ 120 then .exec else .idle } }

/-- R156, R164, R166: DRAW_TEXT emits the glyphs of its characters at x, x+9, x+18, ..., one after the other; character k is
drawn exactly when 0 ≤ x + 9k ≤ 152 and 0 ≤ y ≤ 120. That is the glyph sequence that ends where x + 9k is above 152, and
every glyph after that end is a no-op. At most 17 glyphs are drawn, and 17 are for x from 0 to 8 and 17 or more
characters. -/
def Obligations.DrawTextExpansion : Prop :=
  ∀ (s : State) (text : List Byte) (x y : Int) (fg bg : Word), s.block.initDone = true →
    ∃ E, exec (.drawText text x y fg bg) s = .next { s with block := { s.block with
        events := E, seq := 0, initRun := false, mode := if E = [] then .idle else .exec } } ∧
      E = (text.zipIdx.flatMap fun ck =>
        if 0 ≤ x + 9 * ck.2 ∧ x + 9 * ck.2 ≤ 152 ∧ 0 ≤ y ∧ y ≤ 120 then
          setWindow s.cfg (x + 9 * ck.2) y (x + 9 * ck.2 + 7) (y + 7) ++ [.data (raster ck.1 fg bg)] else []) ∧
      E = ((text.zipIdx.takeWhile fun ck => decide (x + 9 * (ck.2 : Int) ≤ 152)).flatMap fun ck =>
        glyphEvents s.cfg ck.1 (x + 9 * ck.2) y fg bg) ∧
      (∀ ck ∈ text.zipIdx, 152 < x + 9 * (ck.2 : Int) → glyphEvents s.cfg ck.1 (x + 9 * ck.2) y fg bg = []) ∧
      E.length ≤ 6 * 17 ∧ (0 ≤ x → x ≤ 8 → 17 ≤ text.length → 0 ≤ y → y ≤ 120 → E.length = 6 * 17)

/-- R157: the words 0x0600, x, y, color are DRAW_SMALL_BLOCK; it frames a 2×2 window and streams four pixels, or does nothing unless the block fits. -/
def Obligations.DrawSmallBlockExpansion : Prop :=
  (∀ w1 w2 w3 : Word, decodePacket [0x0600, w1, w2, w3] = .ok (.drawSmallBlock w1.toInt w2.toInt w3, [])) ∧
  ∀ (s : State) (x y : Int) (c : Word), s.block.initDone = true →
    exec (.drawSmallBlock x y c) s = .next { s with block := { s.block with
      events := if 0 ≤ x ∧ x ≤ 158 ∧ 0 ≤ y ∧ y ≤ 126 then
        setWindow s.cfg x y (x + 1) (y + 1) ++ [.data [hi8 c, lo8 c, hi8 c, lo8 c, hi8 c, lo8 c, hi8 c, lo8 c]] else []
      seq := 0, initRun := false
      mode := if 0 ≤ x ∧ x ≤ 158 ∧ 0 ≤ y ∧ y ≤ 126 then .exec else .idle } }

/-- R158, R159: the words of OPC 0x07 and 0x08 are DRAW_HLINE and DRAW_VLINE; DRAW_HLINE clamps its run to columns 0 to 159 and DRAW_VLINE to rows 0 to 127, both ends inclusive, and
streams one color for each cell, or does nothing when the fixed coordinate is out of range or the run is empty. -/
def Obligations.DrawLineExpansions : Prop :=
  (∀ w1 w2 w3 w4 : Word,
    decodePacket [0x0700, w1, w2, w3, w4] = .ok (.drawHline w1.toInt w2.toInt w3.toInt w4, []) ∧
    decodePacket [0x0800, w1, w2, w3, w4] = .ok (.drawVline w1.toInt w2.toInt w3.toInt w4, [])) ∧
  ∀ (s : State) (v0 v1 w : Int) (c : Word), s.block.initDone = true →
    exec (.drawHline v0 v1 w c) s = .next { s with block := { s.block with
      events := if 0 ≤ w ∧ w ≤ 127 ∧ max v0 0 ≤ min v1 159 then
        setWindow s.cfg (max v0 0) w (min v1 159) w ++ [.data (packRun c (min v1 159 - max v0 0 + 1).toNat)] else []
      seq := 0, initRun := false
      mode := if 0 ≤ w ∧ w ≤ 127 ∧ max v0 0 ≤ min v1 159 then .exec else .idle } } ∧
    exec (.drawVline v0 v1 w c) s = .next { s with block := { s.block with
      events := if 0 ≤ w ∧ w ≤ 159 ∧ max v0 0 ≤ min v1 127 then
        setWindow s.cfg w (max v0 0) w (min v1 127) ++ [.data (packRun c (min v1 127 - max v0 0 + 1).toNat)] else []
      seq := 0, initRun := false
      mode := if 0 ≤ w ∧ w ≤ 159 ∧ max v0 0 ≤ min v1 127 then .exec else .idle } }

/-- R160: the words of OPC 0x09 are DRAW_SQUARE_OUTLINE; with its center on the screen it emits
its four edges as line requests, in the order top, right, bottom, left; otherwise it does nothing. -/
def Obligations.DrawSquareOutlineExpansion : Prop :=
  (∀ w1 w2 w3 w4 : Word,
    decodePacket [0x0900, w1, w2, w3, w4] = .ok (.drawSquareOutline w1.toInt w2.toInt w3.toInt w4, [])) ∧
  ∀ (s : State) (cx cy size : Int) (c : Word), s.block.initDone = true →
    ∃ E, exec (.drawSquareOutline cx cy size c) s = .next { s with block := { s.block with
        events := E, seq := 0, initRun := false, mode := if E = [] then .idle else .exec } } ∧
      (¬ (0 ≤ cx ∧ cx ≤ 159 ∧ 0 ≤ cy ∧ cy ≤ 127) → E = []) ∧
      ((0 ≤ cx ∧ cx ≤ 159 ∧ 0 ≤ cy ∧ cy ≤ 127) → ∀ h x0 y0 x1 y1 : Int,
        2 * h ≤ size + 4 ∧ size + 4 < 2 * h + 2 → x0 = cx - h → y0 = cy - h →
        x1 = x0 + (size + 4) - 1 → y1 = y0 + (size + 4) - 1 →
        E = hlineEvents s.cfg x0 (x1 - 1) y0 c ++ vlineEvents s.cfg y0 (y1 - 1) x1 c ++
          hlineEvents s.cfg (x0 + 1) x1 y1 c ++ vlineEvents s.cfg (y0 + 1) y1 x0 c)

/-- R161: with an anchor at x ≥ 160 or y ≥ 128 no drawing request emits anything; nor does one with a negative anchor
coordinate, but for DRAW_TEXT and the lines. CLEAR has no anchor and always draws. -/
def Obligations.OutOfRangeAnchorsEmitNothing : Prop :=
  (∀ (cfg : Config) (x y : Int) (c fg bg : Word), 160 ≤ x ∨ 128 ≤ y →
    drawExpansion cfg (.drawPixel x y c) = some [] ∧
    (∀ code, drawExpansion cfg (.drawGlyph code x y fg bg) = some []) ∧
    (∀ text, drawExpansion cfg (.drawText text x y fg bg) = some []) ∧
    drawExpansion cfg (.drawSmallBlock x y c) = some [] ∧
    (∀ xe, drawExpansion cfg (.drawHline x xe y c) = some []) ∧
    (∀ ye, drawExpansion cfg (.drawVline y ye x c) = some []) ∧
    (∀ size, drawExpansion cfg (.drawSquareOutline x y size c) = some [])) ∧
  (∀ (cfg : Config) (x y : Int) (c fg bg : Word), x < 0 ∨ y < 0 →
    drawExpansion cfg (.drawPixel x y c) = some [] ∧
    (∀ code, drawExpansion cfg (.drawGlyph code x y fg bg) = some []) ∧
    drawExpansion cfg (.drawSmallBlock x y c) = some [] ∧
    (∀ size, drawExpansion cfg (.drawSquareOutline x y size c) = some [])) ∧
  (∀ (cfg : Config) (c : Word), ∃ e E, drawExpansion cfg (.clear c) = some (e :: E))

/-- R165: DRAW_PIXEL x, y, c and DRAW_HLINE x, x, y, c emit the same trace: the 1×1 window and one color where x and y are on
the screen, nothing elsewhere. -/
def Obligations.PixelIsAOnePixelLine : Prop :=
  ∀ (cfg : Config) (x y : Int) (c : Word),
    drawExpansion cfg (.drawPixel x y c) = drawExpansion cfg (.drawHline x x y c) ∧
    drawExpansion cfg (.drawHline x x y c) = some
      (if inX x ∧ inY y then setWindow cfg x y x y ++ [.data (pack c)] else [])

/-- R125 to R129: every drawing request's expansion is a sequence of framed windows: the five events of SetWindow with bounds in
range, each bound sent high byte first, directly followed by data events of exactly 2 bytes for each cell of the window,
none of them empty or above 320 bytes. -/
def Obligations.ExpansionsAreFramedWindows : Prop :=
  ∀ (cfg : Config) (i : Instr) (E : List BusEvent), drawExpansion cfg i = some E →
    ∃ frames : List ((Int × Int × Int × Int) × List (List Byte)),
      E = (frames.flatMap fun f =>
        [.cmd cfg.opcCaset,
          .data [hi8 (field16 f.1.1), lo8 (field16 f.1.1), hi8 (field16 f.1.2.2.1), lo8 (field16 f.1.2.2.1)],
          .cmd cfg.opcRaset,
          .data [hi8 (field16 f.1.2.1), lo8 (field16 f.1.2.1), hi8 (field16 f.1.2.2.2), lo8 (field16 f.1.2.2.2)],
          .cmd cfg.opcRamwr] ++ f.2.map BusEvent.data) ∧
      ∀ f ∈ frames,
        0 ≤ f.1.1 ∧ f.1.1 ≤ f.1.2.2.1 ∧ f.1.2.2.1 ≤ 159 ∧
        0 ≤ f.1.2.1 ∧ f.1.2.1 ≤ f.1.2.2.2 ∧ f.1.2.2.2 ≤ 127 ∧
        ((f.2.map List.length).sum : Int) = 2 * ((f.1.2.2.1 - f.1.1 + 1) * (f.1.2.2.2 - f.1.2.1 + 1)) ∧
        ∀ bs ∈ f.2, 1 ≤ bs.length ∧ bs.length ≤ 320

/-- R143, R144, R145: pixel 8r + k of a glyph is fg where bit 7-k of its row r is set and bg elsewhere, and the raster is those 64
pixels packed, 128 bytes; swapping fg and bg swaps them in every pixel. -/
def Obligations.RasterSelectsByGlyphBit : Prop :=
  ∀ (code : Byte) (fg bg : Word),
    raster code fg bg = packList (glyphPixels code fg bg) ∧ (glyphPixels code fg bg).length = 64 ∧
    (raster code fg bg).length = 128 ∧
    ∀ r k, r < 8 → k < 8 → (glyphPixels code fg bg)[8 * r + k]? =
      some (if ((glyphRows code).toList.getD r 0).getLsbD (7 - k) then fg else bg) ∧
      (glyphPixels code bg fg)[8 * r + k]? =
        some (if ((glyphRows code).toList.getD r 0).getLsbD (7 - k) then bg else fg)

/-- R141, R142: the supported set holds the required characters and otherwise only uppercase letters, row 0 of 'H' is 0x82,
and an unsupported character has the blank rows, so its raster is 64 times bg. -/
def Obligations.GlyphRomConstraints : Prop :=
  (∀ c : Byte, (0x30 ≤ c.toNat ∧ c.toNat ≤ 0x39) ∨ c ∈ ([0x20, 0x3A, 0x2B, 0x2D, 0x2A, 0x48] : List Byte) →
    glyphRom c ≠ none) ∧
  (∀ c : Byte, glyphRom c ≠ none →
    (0x30 ≤ c.toNat ∧ c.toNat ≤ 0x39) ∨ c ∈ ([0x20, 0x3A, 0x2B, 0x2D, 0x2A] : List Byte) ∨
      (0x41 ≤ c.toNat ∧ c.toNat ≤ 0x5A)) ∧
  (glyphRows 0x48).toList[0]? = some 0x82 ∧
  (∀ c : Byte, glyphRom c = none → glyphRows c = #v[0, 0, 0, 0, 0, 0, 0, 0] ∧
    ∀ fg bg : Word, raster c fg bg = packRun bg 64)

/-! ### Panel commands -/

/-- R210 to R215: SLPOUT and DISPON, admitted at their stage, take effect at once; COLMOD, MADCTL, CASET and RASET, admitted
at theirs, wait for their argument bytes. Nothing else changes. At another stage each of the seven raises PF_ORDER. -/
def Obligations.CommandsTakeEffectAtTheirStage : Prop :=
  ∀ s : State, s.panel.Admits →
    (s.panel.initStage = some 0 → exec .slpout s = .next { s with panel := { s.panel.admitted with
      sleep := some false, slpPending := some true, tSlp := some 0, initStage := some 1 } }) ∧
    (s.panel.initStage = some 1 →
      exec .colmod s = .next { s with panel := { s.panel.admitted with rx := .args .colmod [] } }) ∧
    (s.panel.initStage = some 2 →
      exec .madctl s = .next { s with panel := { s.panel.admitted with rx := .args .madctl [] } }) ∧
    (s.panel.initStage = some 3 → exec .dispon s = .next { s with panel := { s.panel.admitted with
      displayOn := some true, initStage := some 4 } }) ∧
    (s.panel.initStage = some 4 →
      exec .caset s = .next { s with panel := { s.panel.admitted with rx := .args .caset [] } } ∧
      exec .raset s = .next { s with panel := { s.panel.admitted with rx := .args .raset [] } }) ∧
    (∀ c : PanelCmd, s.panel.initStage ≠ some (commandStage c) →
      ∃ t, exec c.toInstr s = .next t ∧ .order ∈ t.panel.pf)

/-- R216: RAMWR, admitted at stage 4 with a window set, primes the stream at the window's top-left corner; at another stage it
raises PF_ORDER, and with a window register unset PF_BAD_WINDOW. -/
def Obligations.RamwrPrimesTheStream : Prop :=
  (∀ (s : State) (x0 x1 y0 y1 : Word), s.panel.Admits → s.panel.initStage = some 4 →
    s.panel.xs = some x0 → s.panel.xe = some x1 → s.panel.ys = some y0 → s.panel.ye = some y1 →
    exec .ramwr s = .next { s with panel := { s.panel.admitted with
      cx := some x0, cy := some y0, full := some false, hi := none, rx := .stream } }) ∧
  (∀ s : State, s.panel.Admits → s.panel.initStage ≠ some 4 → ∃ t, exec .ramwr s = .next t ∧ .order ∈ t.panel.pf) ∧
  (∀ s : State, s.panel.Admits →
    (s.panel.xs = none ∨ s.panel.xe = none ∨ s.panel.ys = none ∨ s.panel.ye = none) →
    ∃ t, exec .ramwr s = .next t ∧ .badWindow ∈ t.panel.pf)

/-- The frame of the seven Panel commands: whatever the Panel's state, a command completes, changes nothing outside the
Panel and removes no fault; and if it leaves the Panel without a fault (R230), it has changed no GRAM cell, no window
register, neither COLMOD nor MADCTL nor the reset clock; only SLPOUT has written `sleep` and the settle clock, only DISPON
`display_on`, and only RAMWR the cursor and `full`. -/
def Obligations.PanelCommandFrame : Prop :=
  ∀ (s : State) (c : PanelCmd), ∃ t, exec c.toInstr s = .next t ∧
    t = { s with panel := t.panel } ∧ (∀ f ∈ s.panel.pf, f ∈ t.panel.pf) ∧
    (t.panel.pf = [] →
      (∀ a b, t.panel.cell a b = s.panel.cell a b) ∧
      t.panel.xs = s.panel.xs ∧ t.panel.xe = s.panel.xe ∧ t.panel.ys = s.panel.ys ∧ t.panel.ye = s.panel.ye ∧
      t.panel.colmod = s.panel.colmod ∧ t.panel.madctl = s.panel.madctl ∧ t.panel.tRst = s.panel.tRst ∧
      t.panel.hi = none ∧ t.panel.pstate = .active ∧
      (c ≠ .slpout → t.panel.sleep = s.panel.sleep ∧ t.panel.tSlp = s.panel.tSlp) ∧
      (c ≠ .dispon → t.panel.displayOn = s.panel.displayOn) ∧
      (c ≠ .slpout → c ≠ .dispon → t.panel.initStage = s.panel.initStage) ∧
      (c ≠ .ramwr → t.panel.cx = s.panel.cx ∧ t.panel.cy = s.panel.cy ∧ t.panel.full = s.panel.full))

/-- R203, R205, R210 to R216: what a command that comes at the wrong moment raises: before any reset pulse PF_NOT_RESET;
while reset is low, less than 50 ms after it or less than 120 ms after SLPOUT PF_TIMING; out of the stage order PF_ORDER;
on an open argument list PF_BAD_ARGS; on a stream short of pixels PF_UNDERRUN; on half a pixel PF_ODD_BYTE. -/
def Obligations.MistimedCommandsRaiseTheirFault : Prop :=
  ∀ (s : State) (c : PanelCmd), ∃ t, exec c.toInstr s = .next t ∧
    (s.panel.pstate = .unreset → .notReset ∈ t.panel.pf) ∧
    (s.panel.pstate = .inReset → .timing ∈ t.panel.pf) ∧
    (s.panel.pstate = .recovering → s.panel.tRst < 50 → .timing ∈ t.panel.pf) ∧
    (s.panel.pstate ≠ .unreset → s.panel.slpPending = some true → (∃ n, s.panel.tSlp = some n ∧ n < 120) →
      .timing ∈ t.panel.pf) ∧
    (s.panel.pstate ≠ .unreset → s.panel.initStage ≠ some (commandStage c) → .order ∈ t.panel.pf) ∧
    (s.panel.pstate ≠ .unreset → (∃ a bs, s.panel.rx = .args a bs) → .badArgs ∈ t.panel.pf) ∧
    (s.panel.pstate ≠ .unreset → s.panel.rx = .stream → s.panel.full = some false → .underrun ∈ t.panel.pf) ∧
    (s.panel.pstate ≠ .unreset → s.panel.rx = .stream → s.panel.hi ≠ none → .oddByte ∈ t.panel.pf)

/-! ### The cursor engine -/

/-- R201, R202, R204: the reset pulse. A falling reset line gives the Panel its after-reset state from any state, faults
kept; the rising line starts recovery and raises PF_TIMING if it was low for less than 50 ms; a delay advances only the
hazard clocks. Where a fault was raised before, or is raised by this edge, R230 leaves the Panel's other state open: what
Rst(1) and Delay leave in it then is the model's choice to apply the rules as written (log 10); Rst(0) acts so by R201. -/
def Obligations.ResetPulse : Prop :=
  ∀ (cfg : Config) (p : Panel),
    (p.pstate ≠ .inReset → p.consume cfg (.rst false) =
      { pstate := .inReset, tRst := 0, initStage := some 0, slpPending := some false, tSlp := some 0, sleep := some true,
        displayOn := some false, colmod := none, madctl := none, xs := none, xe := none, ys := none, ye := none, cx := none,
        cy := none, full := none, rx := .idle, hi := none, gram := [], pf := p.pf }) ∧
    (p.pstate = .inReset → p.consume cfg (.rst false) = p) ∧
    (p.pstate = .inReset → 50 ≤ p.tRst → p.consume cfg (.rst true) = { p with pstate := .recovering, tRst := 0 }) ∧
    (p.pstate = .inReset → p.tRst < 50 → .timing ∈ (p.consume cfg (.rst true)).pf ∧
      (p.consume cfg (.rst true)).pstate = .recovering) ∧
    (p.pstate ≠ .inReset → p.consume cfg (.rst true) = p) ∧
    (∀ ms, p.consume cfg (.delay ms) = { p with
      tRst := if p.pstate = .inReset ∨ p.pstate = .recovering then p.tRst + ms else p.tRst
      tSlp := if p.slpPending = some true then p.tSlp.map (· + ms) else p.tSlp })

/-- R211, R212, R214, R215, R223: argument bytes at an active Panel without a fault (R230): each command's register takes its bytes, high byte
first, and a bad pixel format or window is a fault. -/
def Obligations.ArgumentBytesSetTheRegisters : Prop :=
  ∀ (cfg : Config) (p : Panel), p.pstate = .active → p.pf = [] →
    (∀ b, p.rx = .args .colmod [] → b = cfg.pixfmt16 →
      p.consume cfg (.data [b]) = { p with rx := .idle, colmod := some b, initStage := some 2 }) ∧
    (∀ b, p.rx = .args .colmod [] → b ≠ cfg.pixfmt16 → .pixfmt ∈ (p.consume cfg (.data [b])).pf) ∧
    (∀ b, p.rx = .args .madctl [] →
      p.consume cfg (.data [b]) = { p with rx := .idle, madctl := some b, initStage := some 3 }) ∧
    (∀ b0 b1 b2 b3, p.rx = .args .caset [] →
      (b0.toNat * 256 + b1.toNat ≤ b2.toNat * 256 + b3.toNat ∧ b2.toNat * 256 + b3.toNat ≤ 159 →
        p.consume cfg (.data [b0, b1, b2, b3]) =
          { p with rx := .idle, xs := some (joinBytes b0 b1), xe := some (joinBytes b2 b3) }) ∧
      (¬ (b0.toNat * 256 + b1.toNat ≤ b2.toNat * 256 + b3.toNat ∧ b2.toNat * 256 + b3.toNat ≤ 159) →
        .badWindow ∈ (p.consume cfg (.data [b0, b1, b2, b3])).pf)) ∧
    (∀ b0 b1 b2 b3, p.rx = .args .raset [] →
      (b0.toNat * 256 + b1.toNat ≤ b2.toNat * 256 + b3.toNat ∧ b2.toNat * 256 + b3.toNat ≤ 127 →
        p.consume cfg (.data [b0, b1, b2, b3]) =
          { p with rx := .idle, ys := some (joinBytes b0 b1), ye := some (joinBytes b2 b3) }) ∧
      (¬ (b0.toNat * 256 + b1.toNat ≤ b2.toNat * 256 + b3.toNat ∧ b2.toNat * 256 + b3.toNat ≤ 127) →
        .badWindow ∈ (p.consume cfg (.data [b0, b1, b2, b3])).pf))

/-- R220, R221, R222: at an active Panel without a fault (R230), a pixel's high byte is latched; its low byte stores the pixel
at the cursor, leaves every other cell as it was, and advances the cursor row-major in the window; a byte after the last
pixel is PF_OVERRUN. -/
def Obligations.PixelStoresAndAdvances : Prop :=
  (∀ (cfg : Config) (p : Panel) (d : Byte), p.pstate = .active → p.pf = [] → p.rx = .stream →
    (p.full = some false → p.hi = none → p.consume cfg (.data [d]) = { p with hi := some d }) ∧
    (p.full = some true → .overrun ∈ (p.consume cfg (.data [d])).pf)) ∧
  ∀ (cfg : Config) (p : Panel) (x0 x1 y0 y1 cx cy : Word) (h d : Byte),
    p.pstate = .active → p.pf = [] → p.rx = .stream → p.full = some false → p.hi = some h →
    p.xs = some x0 → p.xe = some x1 → p.ys = some y0 → p.ye = some y1 → p.cx = some cx → p.cy = some cy →
    cx.toNat ≤ x1.toNat → cy.toNat ≤ y1.toNat → x1.toNat < 160 → y1.toNat < 128 →
    ∃ q, p.consume cfg (.data [d]) = q ∧
      q.cell cx.toNat cy.toNat = some (joinBytes h d) ∧
      (∀ a b, (a ≠ cx.toNat ∨ b ≠ cy.toNat) → q.cell a b = p.cell a b) ∧
      q.hi = none ∧ q.rx = .stream ∧ q.pf = p.pf ∧ q.xs = p.xs ∧ q.xe = p.xe ∧ q.ys = p.ys ∧ q.ye = p.ye ∧
      (cx.toNat < x1.toNat → q.cx = some (cx + 1) ∧ q.cy = some cy ∧ q.full = some false) ∧
      (cx.toNat = x1.toNat → cy.toNat < y1.toNat → q.cx = some x0 ∧ q.cy = some (cy + 1) ∧ q.full = some false) ∧
      (cx.toNat = x1.toNat → cy.toNat = y1.toNat → q.cx = some x0 ∧ q.cy = some cy ∧ q.full = some true)

/-- R206, R217, R220, R224: bytes that the protocol has no place for. A data byte: PF_STRAY_DATA with no receive mode open,
PF_OVERRUN past the last pixel, PF_NOT_RESET and PF_TIMING before and in reset. A command byte that is none of the seven
parameters, once there was a reset pulse: PF_UNKNOWN_CMD. -/
def Obligations.StrayBytesRaiseTheirFault : Prop :=
  ∀ (cfg : Config) (p : Panel) (d : Byte),
    (p.rx = .idle → .strayData ∈ (p.consume cfg (.data [d])).pf) ∧
    (p.rx = .stream → p.full = some true → .overrun ∈ (p.consume cfg (.data [d])).pf) ∧
    (p.pstate = .unreset → .notReset ∈ (p.consume cfg (.data [d])).pf) ∧
    (p.pstate = .inReset → .timing ∈ (p.consume cfg (.data [d])).pf) ∧
    (p.pstate ≠ .unreset → d ∉ cfg.opcodes → .unknownCmd ∈ (p.consume cfg (.cmd d)).pf)

/-- R207: how a stream is split into data events makes no difference to the Panel. -/
def Obligations.SegmentationInvariance : Prop :=
  ∀ (cfg : Config) (p : Panel) (bs1 bs2 : List Byte),
    p.consume cfg (.data (bs1 ++ bs2)) = (p.consume cfg (.data bs1)).consume cfg (.data bs2)

/-- R225: at a ready Panel whose window is set, RAMWR followed by exactly the window's pixels, in any split into data events,
sets each cell of the window to its pixel in row-major order, leaves every other cell as it was and the Panel ready and
full, with no fault; so does a framed window followed by its pixels, whatever the window was before. -/
def Obligations.WindowFill : Prop :=
  (∀ (cfg : Config) (p : Panel) (x0 y0 x1 y1 : Word) (cs : List Word) (bss : List (List Byte)),
    cfg.Legal → p.Ready → p.xs = some x0 → p.xe = some x1 → p.ys = some y0 → p.ye = some y1 →
    x0.toNat ≤ x1.toNat → x1.toNat ≤ 159 → y0.toNat ≤ y1.toNat → y1.toNat ≤ 127 →
    cs.length = (x1.toNat - x0.toNat + 1) * (y1.toNat - y0.toNat + 1) → bss.flatten = packList cs →
    ∃ q, p.consumeAll cfg (.cmd cfg.opcRamwr :: bss.map BusEvent.data) = q ∧ q.Ready ∧ q.full = some true ∧
      (∀ k, k < cs.length → q.cell (x0.toNat + k % (x1.toNat - x0.toNat + 1)) (y0.toNat + k / (x1.toNat - x0.toNat + 1)) =
        cs[k]?) ∧
      (∀ a b, ¬ (x0.toNat ≤ a ∧ a ≤ x1.toNat ∧ y0.toNat ≤ b ∧ b ≤ y1.toNat) → q.cell a b = p.cell a b)) ∧
  ∀ (cfg : Config) (p : Panel) (x0 y0 x1 y1 : Int) (cs : List Word) (bss : List (List Byte)),
    cfg.Legal → p.Ready → 0 ≤ x0 → x0 ≤ x1 → x1 ≤ 159 → 0 ≤ y0 → y0 ≤ y1 → y1 ≤ 127 →
    (cs.length : Int) = (x1 - x0 + 1) * (y1 - y0 + 1) → bss.flatten = packList cs →
    ∃ q, p.consumeAll cfg (setWindow cfg x0 y0 x1 y1 ++ bss.map BusEvent.data) = q ∧ q.Ready ∧ q.full = some true ∧
      (∀ a b, InWindow x0 y0 x1 y1 a b → q.cell a b = cs[streamPlace x0 y0 x1 a b]?) ∧
      (∀ a b, ¬ InWindow x0 y0 x1 y1 a b → q.cell a b = p.cell a b)

/-- R230: no step removes a panel fault. -/
def Obligations.PanelFaultsAreSticky : Prop :=
  ∀ (s t : State), step s = .next t → ∀ f ∈ s.panel.pf, f ∈ t.panel.pf

/-- R200, R251: there is no read-back path: two machines that differ only in the Panel take the same step everywhere else. -/
def Obligations.NothingFlowsBackFromThePanel : Prop :=
  ∀ (s : State) (p : Panel),
    (∀ t, step s = .next t → ∃ u, step { s with panel := p } = .next u ∧
      u.block = t.block ∧ u.host = t.host ∧ u.env = t.env ∧ u.cfg = t.cfg ∧ u.turns = t.turns) ∧
    (∀ f, step s = .fault f → step { s with panel := p } = .fault f) ∧
    (∀ r, step s = .refused r → step { s with panel := p } = .refused r)

/-! ### Whole requests: what each one leaves in GRAM -/

/-- R152, R238: INIT, run to its end, has emitted the power-on sequence, set INIT_DONE, and left the Panel awake, lit,
configured and without a fault; and every cell, the window and the cursor at ⊥, unless the reset line was low already, as a
block reset in the middle of an earlier INIT leaves it: its low level is then no edge (R201). -/
def Obligations.InitBringsThePanelUp : Prop :=
  ∀ s : State, s.CanInit →
    ∃ t, runRequest .init s = some t ∧ t.block.initDone = true ∧ t.block.mode = .idle ∧
      t.block.trace = s.block.trace ++ [.rst false, .delay s.cfg.tRstLow, .rst true, .delay s.cfg.tRstHigh,
        .cmd s.cfg.opcSlpout, .delay s.cfg.tSlpout, .cmd s.cfg.opcColmod, .data [s.cfg.pixfmt16], .cmd s.cfg.opcMadctl,
        .data [s.cfg.madctlValue], .cmd s.cfg.opcDispon] ∧
      t.block.err = s.block.err ∧ t.block.cause = s.block.cause ∧
      t.block.lines.cfg = true ∧ t.block.lines.rst = some true ∧ t.block.lines.clkHz = s.cfg.spiClkHz ∧
      t.block.lines.mode = 0 ∧
      t.panel.Ready ∧ t.panel.sleep = some false ∧ t.panel.displayOn = some true ∧
      t.panel.colmod = some s.cfg.pixfmt16 ∧ t.panel.madctl = some s.cfg.madctlValue ∧
      (s.panel.pstate ≠ .inReset → (∀ a b, t.panel.cell a b = none) ∧ t.panel = {
        pstate := .active, tRst := s.cfg.tRstHigh, initStage := some 4, slpPending := some false
        tSlp := some s.cfg.tSlpout, sleep := some false, displayOn := some true
        colmod := some s.cfg.pixfmt16, madctl := some s.cfg.madctlValue, xs := none, xe := none, ys := none, ye := none
        cx := none, cy := none, full := none, rx := .idle, hi := none, gram := [], pf := [] })

/-- R153: CLEAR, run to its end, leaves every cell of the screen at its color. -/
def Obligations.ClearFillsTheScreen : Prop :=
  ∀ (s : State) (c : Word), s.CanDraw →
    ∃ t, runRequest (.clear c) s = some t ∧ t.panel.Ready ∧ t.block.mode = .idle ∧
      ∀ a b, a < 160 → b < 128 → t.panel.cell a b = some c

/-- R154, R157: DRAW_PIXEL and DRAW_SMALL_BLOCK, run to their end, set their one cell or their four cells if they fit on the
screen, and no other. -/
def Obligations.PixelAndBlockSetTheirCells : Prop :=
  ∀ (s : State) (x y : Int) (c : Word), s.CanDraw →
    (∃ t, runRequest (.drawPixel x y c) s = some t ∧ t.panel.Ready ∧ t.block.mode = .idle ∧
      ∀ a b : Nat, t.panel.cell a b =
        if (inX x ∧ inY y) ∧ (a : Int) = x ∧ (b : Int) = y then some c else s.panel.cell a b) ∧
    (∃ t, runRequest (.drawSmallBlock x y c) s = some t ∧ t.panel.Ready ∧ t.block.mode = .idle ∧
      ∀ a b : Nat, t.panel.cell a b =
        if (0 ≤ x ∧ x ≤ 158 ∧ 0 ≤ y ∧ y ≤ 126) ∧ InWindow x y (x + 1) (y + 1) a b then some c else s.panel.cell a b)

/-- R155: DRAW_GLYPH, run to its end, sets the 64 cells of its glyph if they all fit, and no other. -/
def Obligations.GlyphSetsItsCells : Prop :=
  ∀ (s : State) (code : Byte) (x y : Int) (fg bg : Word), s.CanDraw →
    ∃ t, runRequest (.drawGlyph code x y fg bg) s = some t ∧ t.panel.Ready ∧ t.block.mode = .idle ∧
      ∀ a b : Nat, t.panel.cell a b =
        if (0 ≤ x ∧ x ≤ 152 ∧ 0 ≤ y ∧ y ≤ 120) ∧ InWindow x y (x + 7) (y + 7) a b then
          some (glyphColor code fg bg (b - y).toNat (a - x).toNat) else s.panel.cell a b

/-- R156, R164: DRAW_TEXT, run to its end, has set the cells of each character that fits and no other cell: the spacing
columns keep what they held. -/
def Obligations.TextSetsItsGlyphCells : Prop :=
  ∀ (s : State) (text : List Byte) (x y : Int) (fg bg : Word), s.CanDraw →
    ∃ t, runRequest (.drawText text x y fg bg) s = some t ∧ t.panel.Ready ∧ t.block.mode = .idle ∧
      (∀ (k : Nat) (code : Byte), text[k]? = some code → 0 ≤ x + 9 * k → x + 9 * k ≤ 152 → 0 ≤ y → y ≤ 120 →
        ∀ a b : Nat, InWindow (x + 9 * k) y (x + 9 * k + 7) (y + 7) a b →
          t.panel.cell a b = some (glyphColor code fg bg (b - y).toNat (a - (x + 9 * k)).toNat)) ∧
      (∀ a b : Nat, (¬ ∃ k : Nat, k < text.length ∧ 0 ≤ x + 9 * k ∧ x + 9 * k ≤ 152 ∧ 0 ≤ y ∧ y ≤ 120 ∧
        InWindow (x + 9 * k) y (x + 9 * k + 7) (y + 7) a b) → t.panel.cell a b = s.panel.cell a b)

/-- R158, R159: DRAW_HLINE and DRAW_VLINE, run to their end, set the on-screen cells of their run, and no other. -/
def Obligations.LinesSetTheirCells : Prop :=
  ∀ (s : State) (v0 v1 w : Int) (c : Word), s.CanDraw →
    (∃ t, runRequest (.drawHline v0 v1 w c) s = some t ∧ t.panel.Ready ∧ t.block.mode = .idle ∧
      ∀ a b : Nat, a < 160 → b < 128 →
        t.panel.cell a b = if v0 ≤ a ∧ (a : Int) ≤ v1 ∧ (b : Int) = w then some c else s.panel.cell a b) ∧
    (∃ t, runRequest (.drawVline v0 v1 w c) s = some t ∧ t.panel.Ready ∧ t.block.mode = .idle ∧
      ∀ a b : Nat, a < 160 → b < 128 →
        t.panel.cell a b = if v0 ≤ b ∧ (b : Int) ≤ v1 ∧ (a : Int) = w then some c else s.panel.cell a b)

/-- R160: DRAW_SQUARE_OUTLINE, run to its end, sets the on-screen cells of the perimeter of its box, and no other; with its
center off the screen, or a side below 2, it sets none. -/
def Obligations.SquareOutlineSetsThePerimeter : Prop :=
  ∀ (s : State) (cx cy size h x0 y0 x1 y1 : Int) (c : Word), s.CanDraw →
    2 * h ≤ size + 4 ∧ size + 4 < 2 * h + 2 → x0 = cx - h → y0 = cy - h →
    x1 = x0 + (size + 4) - 1 → y1 = y0 + (size + 4) - 1 →
    ∃ t, runRequest (.drawSquareOutline cx cy size c) s = some t ∧ t.panel.Ready ∧ t.block.mode = .idle ∧
      ∀ a b : Nat, a < 160 → b < 128 →
        t.panel.cell a b =
          if (0 ≤ cx ∧ cx ≤ 159 ∧ 0 ≤ cy ∧ cy ≤ 127 ∧ 2 ≤ size + 4) ∧ InWindow x0 y0 x1 y1 a b ∧
            ((a : Int) = x0 ∨ (a : Int) = x1 ∨ (b : Int) = y0 ∨ (b : Int) = y1) then some c
          else s.panel.cell a b

/-! ### Invariants of every step -/

/-- R238: the block-protocol invariant is kept by every step: the Block never makes the Panel raise a fault, and the Panel is
complete after every request. -/
def Obligations.StepKeepsTheProtocol : Prop :=
  ∀ (s t : State), s.ProtocolInv → step s = .next t → t.ProtocolInv

/-- The block-protocol invariant holds after reset. -/
def Obligations.ResetMeetsTheProtocol : Prop := State.reset.ProtocolInv

/-- GRAM keeps its canonical form, each index a cell that exists, at every step from every state; it has it after reset. -/
def Obligations.StepKeepsGramCanonical : Prop :=
  Memory.wf State.reset.panel.gram ∧
  ∀ (s t : State), Memory.wf s.panel.gram → step s = .next t → Memory.wf t.panel.gram

/-- R35, R153: while CLEAR streams, SB holds its one packed line. -/
def Obligations.ClearReusesOneLine : Prop :=
  ∀ (s : State) (c : Word), s.mover = some .block → s.block.events = clearEvents s.cfg c →
    5 ≤ s.block.seq → s.block.seq < 132 → ∃ t, step s = .next t ∧ t.block.sb = some (packRun c 160)

/-- R129, R162, R282: the bytes that SetWindow and the requests of R282's table put on the wire, and INIT's delays. -/
def Obligations.WireCounts : Prop :=
  ∀ (cfg : Config) (c fg bg : Word),
    wireCount (powerOn cfg) = 6 ∧ delayCount (powerOn cfg) = cfg.tRstLow + cfg.tRstHigh + cfg.tSlpout ∧
    (∀ x0 y0 x1 y1 : Int, (setWindow cfg x0 y0 x1 y1).map (fun e => (wireBytes e).length) = [1, 4, 1, 4, 1]) ∧
    wireCount (clearEvents cfg c) = 40971 ∧ (clearEvents cfg c).length = 133 ∧
    (∀ x y : Int, inX x → inY y → wireCount (pixelEvents cfg x y c) = 13) ∧
    (∀ (code : Byte) (x y : Int), 0 ≤ x → x ≤ 152 → 0 ≤ y → y ≤ 120 → wireCount (glyphEvents cfg code x y fg bg) = 139) ∧
    (∀ y : Int, inY y → wireCount (hlineEvents cfg 0 159 y c) = 331)
end

