-- ==== Sys2Proof/Laws/State.lean ====
section
/-! SUPPORT. One lemma for each field under each record update of the shared operations, true by unfolding once. -/

namespace Sys2Proof.Machine

/-! ### Whole state -/

@[simp] theorem State.onBlock_cfg (s : State) (f : Block → Block) : (s.onBlock f).cfg = s.cfg := rfl
@[simp] theorem State.onBlock_block (s : State) (f : Block → Block) : (s.onBlock f).block = f s.block := rfl
@[simp] theorem State.onBlock_panel (s : State) (f : Block → Block) : (s.onBlock f).panel = s.panel := rfl
@[simp] theorem State.onBlock_host (s : State) (f : Block → Block) : (s.onBlock f).host = s.host := rfl
@[simp] theorem State.onBlock_env (s : State) (f : Block → Block) : (s.onBlock f).env = s.env := rfl
@[simp] theorem State.onBlock_turns (s : State) (f : Block → Block) : (s.onBlock f).turns = s.turns := rfl
@[simp] theorem State.onPanel_cfg (s : State) (f : Panel → Panel) : (s.onPanel f).cfg = s.cfg := rfl
@[simp] theorem State.onPanel_block (s : State) (f : Panel → Panel) : (s.onPanel f).block = s.block := rfl
@[simp] theorem State.onPanel_panel (s : State) (f : Panel → Panel) : (s.onPanel f).panel = f s.panel := rfl
@[simp] theorem State.onPanel_host (s : State) (f : Panel → Panel) : (s.onPanel f).host = s.host := rfl
@[simp] theorem State.onPanel_env (s : State) (f : Panel → Panel) : (s.onPanel f).env = s.env := rfl
@[simp] theorem State.onPanel_turns (s : State) (f : Panel → Panel) : (s.onPanel f).turns = s.turns := rfl
@[simp] theorem State.popTurn_cfg (s : State) : (s.popTurn).cfg = s.cfg := rfl
@[simp] theorem State.popTurn_block (s : State) : (s.popTurn).block = s.block := rfl
@[simp] theorem State.popTurn_panel (s : State) : (s.popTurn).panel = s.panel := rfl
@[simp] theorem State.popTurn_host (s : State) : (s.popTurn).host = s.host := rfl
@[simp] theorem State.popTurn_env (s : State) : (s.popTurn).env = s.env := rfl
@[simp] theorem State.popTurn_turns (s : State) : (s.popTurn).turns = s.turns.tail := rfl
@[simp] theorem State.popHost_cfg (s : State) : (s.popHost).cfg = s.cfg := rfl
@[simp] theorem State.popHost_block (s : State) : (s.popHost).block = s.block := rfl
@[simp] theorem State.popHost_panel (s : State) : (s.popHost).panel = s.panel := rfl
@[simp] theorem State.popHost_host (s : State) : (s.popHost).host = ⟨s.host.pending.tail, s.host.readLog⟩ := rfl
@[simp] theorem State.popHost_env (s : State) : (s.popHost).env = s.env := rfl
@[simp] theorem State.popHost_turns (s : State) : (s.popHost).turns = s.turns := rfl
@[simp] theorem State.logRead_cfg (s : State) (v : Word) : (s.logRead v).cfg = s.cfg := rfl
@[simp] theorem State.logRead_block (s : State) (v : Word) : (s.logRead v).block = s.block := rfl
@[simp] theorem State.logRead_panel (s : State) (v : Word) : (s.logRead v).panel = s.panel := rfl
@[simp] theorem State.logRead_host (s : State) (v : Word) : (s.logRead v).host = ⟨s.host.pending, s.host.readLog ++ [v]⟩ := rfl
@[simp] theorem State.logRead_env (s : State) (v : Word) : (s.logRead v).env = s.env := rfl
@[simp] theorem State.logRead_turns (s : State) (v : Word) : (s.logRead v).turns = s.turns := rfl
@[simp] theorem State.blockReset_cfg (s : State) : (s.blockReset).cfg = s.cfg := rfl
@[simp] theorem State.blockReset_block (s : State) : (s.blockReset).block = Block.reset := rfl
@[simp] theorem State.blockReset_panel (s : State) : (s.blockReset).panel = s.panel := rfl
@[simp] theorem State.blockReset_host (s : State) : (s.blockReset).host = s.host := rfl
@[simp] theorem State.blockReset_env (s : State) : (s.blockReset).env = s.env := rfl
@[simp] theorem State.blockReset_turns (s : State) : (s.blockReset).turns = s.turns := rfl

/-! ### Block -/

@[simp] theorem Block.raiseError_mode (b : Block) (c : Cause) : (b.raiseError c).mode = .idle := rfl
@[simp] theorem Block.raiseError_initDone (b : Block) (c : Cause) : (b.raiseError c).initDone = b.initDone := rfl
@[simp] theorem Block.raiseError_err (b : Block) (c : Cause) : (b.raiseError c).err = true := rfl
@[simp] theorem Block.raiseError_cause (b : Block) (c : Cause) : (b.raiseError c).cause = c := rfl
@[simp] theorem Block.raiseError_opc (b : Block) (c : Cause) : (b.raiseError c).opc = b.opc := rfl
@[simp] theorem Block.raiseError_arg8 (b : Block) (c : Cause) : (b.raiseError c).arg8 = b.arg8 := rfl
@[simp] theorem Block.raiseError_opnd (b : Block) (c : Cause) : (b.raiseError c).opnd = b.opnd := rfl
@[simp] theorem Block.raiseError_text (b : Block) (c : Cause) : (b.raiseError c).text = b.text := rfl
@[simp] theorem Block.raiseError_need (b : Block) (c : Cause) : (b.raiseError c).need = b.need := rfl
@[simp] theorem Block.raiseError_events (b : Block) (c : Cause) : (b.raiseError c).events = b.events := rfl
@[simp] theorem Block.raiseError_seq (b : Block) (c : Cause) : (b.raiseError c).seq = b.seq := rfl
@[simp] theorem Block.raiseError_initRun (b : Block) (c : Cause) : (b.raiseError c).initRun = b.initRun := rfl
@[simp] theorem Block.raiseError_sb (b : Block) (c : Cause) : (b.raiseError c).sb = b.sb := rfl
@[simp] theorem Block.raiseError_lines (b : Block) (c : Cause) : (b.raiseError c).lines = b.lines := rfl
@[simp] theorem Block.raiseError_trace (b : Block) (c : Cause) : (b.raiseError c).trace = b.trace := rfl
@[simp] theorem Block.raiseFatal_mode (b : Block) (c : Cause) : (b.raiseFatal c).mode = .halted := rfl
@[simp] theorem Block.raiseFatal_initDone (b : Block) (c : Cause) : (b.raiseFatal c).initDone = b.initDone := rfl
@[simp] theorem Block.raiseFatal_err (b : Block) (c : Cause) : (b.raiseFatal c).err = b.err := rfl
@[simp] theorem Block.raiseFatal_cause (b : Block) (c : Cause) : (b.raiseFatal c).cause = c := rfl
@[simp] theorem Block.raiseFatal_opc (b : Block) (c : Cause) : (b.raiseFatal c).opc = b.opc := rfl
@[simp] theorem Block.raiseFatal_arg8 (b : Block) (c : Cause) : (b.raiseFatal c).arg8 = b.arg8 := rfl
@[simp] theorem Block.raiseFatal_opnd (b : Block) (c : Cause) : (b.raiseFatal c).opnd = b.opnd := rfl
@[simp] theorem Block.raiseFatal_text (b : Block) (c : Cause) : (b.raiseFatal c).text = b.text := rfl
@[simp] theorem Block.raiseFatal_need (b : Block) (c : Cause) : (b.raiseFatal c).need = b.need := rfl
@[simp] theorem Block.raiseFatal_events (b : Block) (c : Cause) : (b.raiseFatal c).events = b.events := rfl
@[simp] theorem Block.raiseFatal_seq (b : Block) (c : Cause) : (b.raiseFatal c).seq = b.seq := rfl
@[simp] theorem Block.raiseFatal_initRun (b : Block) (c : Cause) : (b.raiseFatal c).initRun = b.initRun := rfl
@[simp] theorem Block.raiseFatal_sb (b : Block) (c : Cause) : (b.raiseFatal c).sb = b.sb := rfl
@[simp] theorem Block.raiseFatal_lines (b : Block) (c : Cause) : (b.raiseFatal c).lines = b.lines := rfl
@[simp] theorem Block.raiseFatal_trace (b : Block) (c : Cause) : (b.raiseFatal c).trace = b.trace := rfl
@[simp] theorem Block.begin_mode (b : Block) (i : Bool) (E : List BusEvent) : (b.begin i E).mode = if E = [] then .idle else .exec := rfl
@[simp] theorem Block.begin_initDone (b : Block) (i : Bool) (E : List BusEvent) : (b.begin i E).initDone = b.initDone := rfl
@[simp] theorem Block.begin_err (b : Block) (i : Bool) (E : List BusEvent) : (b.begin i E).err = b.err := rfl
@[simp] theorem Block.begin_cause (b : Block) (i : Bool) (E : List BusEvent) : (b.begin i E).cause = b.cause := rfl
@[simp] theorem Block.begin_opc (b : Block) (i : Bool) (E : List BusEvent) : (b.begin i E).opc = b.opc := rfl
@[simp] theorem Block.begin_arg8 (b : Block) (i : Bool) (E : List BusEvent) : (b.begin i E).arg8 = b.arg8 := rfl
@[simp] theorem Block.begin_opnd (b : Block) (i : Bool) (E : List BusEvent) : (b.begin i E).opnd = b.opnd := rfl
@[simp] theorem Block.begin_text (b : Block) (i : Bool) (E : List BusEvent) : (b.begin i E).text = b.text := rfl
@[simp] theorem Block.begin_need (b : Block) (i : Bool) (E : List BusEvent) : (b.begin i E).need = b.need := rfl
@[simp] theorem Block.begin_events (b : Block) (i : Bool) (E : List BusEvent) : (b.begin i E).events = E := rfl
@[simp] theorem Block.begin_seq (b : Block) (i : Bool) (E : List BusEvent) : (b.begin i E).seq = 0 := rfl
@[simp] theorem Block.begin_initRun (b : Block) (i : Bool) (E : List BusEvent) : (b.begin i E).initRun = i := rfl
@[simp] theorem Block.begin_sb (b : Block) (i : Bool) (E : List BusEvent) : (b.begin i E).sb = b.sb := rfl
@[simp] theorem Block.begin_lines (b : Block) (i : Bool) (E : List BusEvent) : (b.begin i E).lines = b.lines := rfl
@[simp] theorem Block.begin_trace (b : Block) (i : Bool) (E : List BusEvent) : (b.begin i E).trace = b.trace := rfl
@[simp] theorem Block.finish_mode (b : Block) : (b.finish).mode = .idle := rfl
@[simp] theorem Block.finish_initDone (b : Block) : (b.finish).initDone = (b.initDone || b.initRun) := rfl
@[simp] theorem Block.finish_err (b : Block) : (b.finish).err = b.err := rfl
@[simp] theorem Block.finish_cause (b : Block) : (b.finish).cause = b.cause := rfl
@[simp] theorem Block.finish_opc (b : Block) : (b.finish).opc = b.opc := rfl
@[simp] theorem Block.finish_arg8 (b : Block) : (b.finish).arg8 = b.arg8 := rfl
@[simp] theorem Block.finish_opnd (b : Block) : (b.finish).opnd = b.opnd := rfl
@[simp] theorem Block.finish_text (b : Block) : (b.finish).text = b.text := rfl
@[simp] theorem Block.finish_need (b : Block) : (b.finish).need = b.need := rfl
@[simp] theorem Block.finish_events (b : Block) : (b.finish).events = b.events := rfl
@[simp] theorem Block.finish_seq (b : Block) : (b.finish).seq = b.seq := rfl
@[simp] theorem Block.finish_initRun (b : Block) : (b.finish).initRun = false := rfl
@[simp] theorem Block.finish_sb (b : Block) : (b.finish).sb = none := rfl
@[simp] theorem Block.finish_lines (b : Block) : (b.finish).lines = b.lines := rfl
@[simp] theorem Block.finish_trace (b : Block) : (b.finish).trace = b.trace := rfl
@[simp] theorem Block.emit_mode (b : Block) (cfg : Config) (e : BusEvent) : (b.emit cfg e).mode = b.mode := rfl
@[simp] theorem Block.emit_initDone (b : Block) (cfg : Config) (e : BusEvent) : (b.emit cfg e).initDone = b.initDone := rfl
@[simp] theorem Block.emit_err (b : Block) (cfg : Config) (e : BusEvent) : (b.emit cfg e).err = b.err := rfl
@[simp] theorem Block.emit_cause (b : Block) (cfg : Config) (e : BusEvent) : (b.emit cfg e).cause = b.cause := rfl
@[simp] theorem Block.emit_opc (b : Block) (cfg : Config) (e : BusEvent) : (b.emit cfg e).opc = b.opc := rfl
@[simp] theorem Block.emit_arg8 (b : Block) (cfg : Config) (e : BusEvent) : (b.emit cfg e).arg8 = b.arg8 := rfl
@[simp] theorem Block.emit_opnd (b : Block) (cfg : Config) (e : BusEvent) : (b.emit cfg e).opnd = b.opnd := rfl
@[simp] theorem Block.emit_text (b : Block) (cfg : Config) (e : BusEvent) : (b.emit cfg e).text = b.text := rfl
@[simp] theorem Block.emit_need (b : Block) (cfg : Config) (e : BusEvent) : (b.emit cfg e).need = b.need := rfl
@[simp] theorem Block.emit_events (b : Block) (cfg : Config) (e : BusEvent) : (b.emit cfg e).events = b.events := rfl
@[simp] theorem Block.emit_seq (b : Block) (cfg : Config) (e : BusEvent) : (b.emit cfg e).seq = b.seq := rfl
@[simp] theorem Block.emit_initRun (b : Block) (cfg : Config) (e : BusEvent) : (b.emit cfg e).initRun = b.initRun := rfl
@[simp] theorem Block.emit_sb (b : Block) (cfg : Config) (e : BusEvent) : (b.emit cfg e).sb = b.streamBuffer cfg.opcRamwr e := rfl
@[simp] theorem Block.emit_lines (b : Block) (cfg : Config) (e : BusEvent) : (b.emit cfg e).lines = b.lines.transfer cfg.dcCommand e := rfl
@[simp] theorem Block.emit_trace (b : Block) (cfg : Config) (e : BusEvent) : (b.emit cfg e).trace = b.trace ++ [e] := rfl
@[simp] theorem Block.loadHeader_mode (b : Block) (w : Word) : (b.loadHeader w).mode = b.mode := rfl
@[simp] theorem Block.loadHeader_initDone (b : Block) (w : Word) : (b.loadHeader w).initDone = b.initDone := rfl
@[simp] theorem Block.loadHeader_err (b : Block) (w : Word) : (b.loadHeader w).err = b.err := rfl
@[simp] theorem Block.loadHeader_cause (b : Block) (w : Word) : (b.loadHeader w).cause = b.cause := rfl
@[simp] theorem Block.loadHeader_opc (b : Block) (w : Word) : (b.loadHeader w).opc = some (hi8 w) := rfl
@[simp] theorem Block.loadHeader_arg8 (b : Block) (w : Word) : (b.loadHeader w).arg8 = some (lo8 w) := rfl
@[simp] theorem Block.loadHeader_opnd (b : Block) (w : Word) : (b.loadHeader w).opnd = [] := rfl
@[simp] theorem Block.loadHeader_text (b : Block) (w : Word) : (b.loadHeader w).text = [] := rfl
@[simp] theorem Block.loadHeader_need (b : Block) (w : Word) : (b.loadHeader w).need = 0 := rfl
@[simp] theorem Block.loadHeader_events (b : Block) (w : Word) : (b.loadHeader w).events = b.events := rfl
@[simp] theorem Block.loadHeader_seq (b : Block) (w : Word) : (b.loadHeader w).seq = b.seq := rfl
@[simp] theorem Block.loadHeader_initRun (b : Block) (w : Word) : (b.loadHeader w).initRun = b.initRun := rfl
@[simp] theorem Block.loadHeader_sb (b : Block) (w : Word) : (b.loadHeader w).sb = b.sb := rfl
@[simp] theorem Block.loadHeader_lines (b : Block) (w : Word) : (b.loadHeader w).lines = b.lines := rfl
@[simp] theorem Block.loadHeader_trace (b : Block) (w : Word) : (b.loadHeader w).trace = b.trace := rfl
@[simp] theorem Block.loadOperand_mode (b : Block) (w : Word) : (b.loadOperand w).mode = b.mode := rfl
@[simp] theorem Block.loadOperand_initDone (b : Block) (w : Word) : (b.loadOperand w).initDone = b.initDone := rfl
@[simp] theorem Block.loadOperand_err (b : Block) (w : Word) : (b.loadOperand w).err = b.err := rfl
@[simp] theorem Block.loadOperand_cause (b : Block) (w : Word) : (b.loadOperand w).cause = b.cause := rfl
@[simp] theorem Block.loadOperand_opc (b : Block) (w : Word) : (b.loadOperand w).opc = b.opc := rfl
@[simp] theorem Block.loadOperand_arg8 (b : Block) (w : Word) : (b.loadOperand w).arg8 = b.arg8 := rfl
@[simp] theorem Block.loadOperand_need (b : Block) (w : Word) : (b.loadOperand w).need = b.need - 1 := rfl
@[simp] theorem Block.loadOperand_events (b : Block) (w : Word) : (b.loadOperand w).events = b.events := rfl
@[simp] theorem Block.loadOperand_seq (b : Block) (w : Word) : (b.loadOperand w).seq = b.seq := rfl
@[simp] theorem Block.loadOperand_initRun (b : Block) (w : Word) : (b.loadOperand w).initRun = b.initRun := rfl
@[simp] theorem Block.loadOperand_sb (b : Block) (w : Word) : (b.loadOperand w).sb = b.sb := rfl
@[simp] theorem Block.loadOperand_lines (b : Block) (w : Word) : (b.loadOperand w).lines = b.lines := rfl
@[simp] theorem Block.loadOperand_trace (b : Block) (w : Word) : (b.loadOperand w).trace = b.trace := rfl

/-! ### Panel -/

@[simp] theorem Panel.raise_pstate (p : Panel) (f : PanelFault) : (p.raise f).pstate = p.pstate := rfl
@[simp] theorem Panel.raise_tRst (p : Panel) (f : PanelFault) : (p.raise f).tRst = p.tRst := rfl
@[simp] theorem Panel.raise_initStage (p : Panel) (f : PanelFault) : (p.raise f).initStage = p.initStage := rfl
@[simp] theorem Panel.raise_slpPending (p : Panel) (f : PanelFault) : (p.raise f).slpPending = p.slpPending := rfl
@[simp] theorem Panel.raise_tSlp (p : Panel) (f : PanelFault) : (p.raise f).tSlp = p.tSlp := rfl
@[simp] theorem Panel.raise_sleep (p : Panel) (f : PanelFault) : (p.raise f).sleep = p.sleep := rfl
@[simp] theorem Panel.raise_displayOn (p : Panel) (f : PanelFault) : (p.raise f).displayOn = p.displayOn := rfl
@[simp] theorem Panel.raise_colmod (p : Panel) (f : PanelFault) : (p.raise f).colmod = p.colmod := rfl
@[simp] theorem Panel.raise_madctl (p : Panel) (f : PanelFault) : (p.raise f).madctl = p.madctl := rfl
@[simp] theorem Panel.raise_xs (p : Panel) (f : PanelFault) : (p.raise f).xs = p.xs := rfl
@[simp] theorem Panel.raise_xe (p : Panel) (f : PanelFault) : (p.raise f).xe = p.xe := rfl
@[simp] theorem Panel.raise_ys (p : Panel) (f : PanelFault) : (p.raise f).ys = p.ys := rfl
@[simp] theorem Panel.raise_ye (p : Panel) (f : PanelFault) : (p.raise f).ye = p.ye := rfl
@[simp] theorem Panel.raise_cx (p : Panel) (f : PanelFault) : (p.raise f).cx = p.cx := rfl
@[simp] theorem Panel.raise_cy (p : Panel) (f : PanelFault) : (p.raise f).cy = p.cy := rfl
@[simp] theorem Panel.raise_full (p : Panel) (f : PanelFault) : (p.raise f).full = p.full := rfl
@[simp] theorem Panel.raise_rx (p : Panel) (f : PanelFault) : (p.raise f).rx = p.rx := rfl
@[simp] theorem Panel.raise_hi (p : Panel) (f : PanelFault) : (p.raise f).hi = p.hi := rfl
@[simp] theorem Panel.raise_gram (p : Panel) (f : PanelFault) : (p.raise f).gram = p.gram := rfl
@[simp] theorem Panel.raise_pf (p : Panel) (f : PanelFault) : (p.raise f).pf = addFault f p.pf := rfl
@[simp] theorem Panel.raiseIf_pstate (p : Panel) (c : Bool) (f : PanelFault) : (p.raiseIf c f).pstate = p.pstate := by cases c <;> rfl
@[simp] theorem Panel.raiseIf_tRst (p : Panel) (c : Bool) (f : PanelFault) : (p.raiseIf c f).tRst = p.tRst := by cases c <;> rfl
@[simp] theorem Panel.raiseIf_initStage (p : Panel) (c : Bool) (f : PanelFault) : (p.raiseIf c f).initStage = p.initStage := by cases c <;> rfl
@[simp] theorem Panel.raiseIf_slpPending (p : Panel) (c : Bool) (f : PanelFault) : (p.raiseIf c f).slpPending = p.slpPending := by cases c <;> rfl
@[simp] theorem Panel.raiseIf_tSlp (p : Panel) (c : Bool) (f : PanelFault) : (p.raiseIf c f).tSlp = p.tSlp := by cases c <;> rfl
@[simp] theorem Panel.raiseIf_sleep (p : Panel) (c : Bool) (f : PanelFault) : (p.raiseIf c f).sleep = p.sleep := by cases c <;> rfl
@[simp] theorem Panel.raiseIf_displayOn (p : Panel) (c : Bool) (f : PanelFault) : (p.raiseIf c f).displayOn = p.displayOn := by cases c <;> rfl
@[simp] theorem Panel.raiseIf_colmod (p : Panel) (c : Bool) (f : PanelFault) : (p.raiseIf c f).colmod = p.colmod := by cases c <;> rfl
@[simp] theorem Panel.raiseIf_madctl (p : Panel) (c : Bool) (f : PanelFault) : (p.raiseIf c f).madctl = p.madctl := by cases c <;> rfl
@[simp] theorem Panel.raiseIf_xs (p : Panel) (c : Bool) (f : PanelFault) : (p.raiseIf c f).xs = p.xs := by cases c <;> rfl
@[simp] theorem Panel.raiseIf_xe (p : Panel) (c : Bool) (f : PanelFault) : (p.raiseIf c f).xe = p.xe := by cases c <;> rfl
@[simp] theorem Panel.raiseIf_ys (p : Panel) (c : Bool) (f : PanelFault) : (p.raiseIf c f).ys = p.ys := by cases c <;> rfl
@[simp] theorem Panel.raiseIf_ye (p : Panel) (c : Bool) (f : PanelFault) : (p.raiseIf c f).ye = p.ye := by cases c <;> rfl
@[simp] theorem Panel.raiseIf_cx (p : Panel) (c : Bool) (f : PanelFault) : (p.raiseIf c f).cx = p.cx := by cases c <;> rfl
@[simp] theorem Panel.raiseIf_cy (p : Panel) (c : Bool) (f : PanelFault) : (p.raiseIf c f).cy = p.cy := by cases c <;> rfl
@[simp] theorem Panel.raiseIf_full (p : Panel) (c : Bool) (f : PanelFault) : (p.raiseIf c f).full = p.full := by cases c <;> rfl
@[simp] theorem Panel.raiseIf_rx (p : Panel) (c : Bool) (f : PanelFault) : (p.raiseIf c f).rx = p.rx := by cases c <;> rfl
@[simp] theorem Panel.raiseIf_hi (p : Panel) (c : Bool) (f : PanelFault) : (p.raiseIf c f).hi = p.hi := by cases c <;> rfl
@[simp] theorem Panel.raiseIf_gram (p : Panel) (c : Bool) (f : PanelFault) : (p.raiseIf c f).gram = p.gram := by cases c <;> rfl
@[simp] theorem Panel.raiseIf_pf (p : Panel) (c : Bool) (f : PanelFault) : (p.raiseIf c f).pf = if c then addFault f p.pf else p.pf := by cases c <;> rfl
@[simp] theorem Panel.requires_pstate (p : Panel) (k : Fin 5) : (p.requires k).pstate = p.pstate := Panel.raiseIf_pstate _ _ _
@[simp] theorem Panel.requires_tRst (p : Panel) (k : Fin 5) : (p.requires k).tRst = p.tRst := Panel.raiseIf_tRst _ _ _
@[simp] theorem Panel.requires_initStage (p : Panel) (k : Fin 5) : (p.requires k).initStage = p.initStage := Panel.raiseIf_initStage _ _ _
@[simp] theorem Panel.requires_slpPending (p : Panel) (k : Fin 5) : (p.requires k).slpPending = p.slpPending := Panel.raiseIf_slpPending _ _ _
@[simp] theorem Panel.requires_tSlp (p : Panel) (k : Fin 5) : (p.requires k).tSlp = p.tSlp := Panel.raiseIf_tSlp _ _ _
@[simp] theorem Panel.requires_sleep (p : Panel) (k : Fin 5) : (p.requires k).sleep = p.sleep := Panel.raiseIf_sleep _ _ _
@[simp] theorem Panel.requires_displayOn (p : Panel) (k : Fin 5) : (p.requires k).displayOn = p.displayOn := Panel.raiseIf_displayOn _ _ _
@[simp] theorem Panel.requires_colmod (p : Panel) (k : Fin 5) : (p.requires k).colmod = p.colmod := Panel.raiseIf_colmod _ _ _
@[simp] theorem Panel.requires_madctl (p : Panel) (k : Fin 5) : (p.requires k).madctl = p.madctl := Panel.raiseIf_madctl _ _ _
@[simp] theorem Panel.requires_xs (p : Panel) (k : Fin 5) : (p.requires k).xs = p.xs := Panel.raiseIf_xs _ _ _
@[simp] theorem Panel.requires_xe (p : Panel) (k : Fin 5) : (p.requires k).xe = p.xe := Panel.raiseIf_xe _ _ _
@[simp] theorem Panel.requires_ys (p : Panel) (k : Fin 5) : (p.requires k).ys = p.ys := Panel.raiseIf_ys _ _ _
@[simp] theorem Panel.requires_ye (p : Panel) (k : Fin 5) : (p.requires k).ye = p.ye := Panel.raiseIf_ye _ _ _
@[simp] theorem Panel.requires_cx (p : Panel) (k : Fin 5) : (p.requires k).cx = p.cx := Panel.raiseIf_cx _ _ _
@[simp] theorem Panel.requires_cy (p : Panel) (k : Fin 5) : (p.requires k).cy = p.cy := Panel.raiseIf_cy _ _ _
@[simp] theorem Panel.requires_full (p : Panel) (k : Fin 5) : (p.requires k).full = p.full := Panel.raiseIf_full _ _ _
@[simp] theorem Panel.requires_rx (p : Panel) (k : Fin 5) : (p.requires k).rx = p.rx := Panel.raiseIf_rx _ _ _
@[simp] theorem Panel.requires_hi (p : Panel) (k : Fin 5) : (p.requires k).hi = p.hi := Panel.raiseIf_hi _ _ _
@[simp] theorem Panel.requires_gram (p : Panel) (k : Fin 5) : (p.requires k).gram = p.gram := Panel.raiseIf_gram _ _ _
@[simp] theorem Panel.await_pstate (p : Panel) (cmd : ArgCmd) : (p.await cmd).pstate = p.pstate := rfl
@[simp] theorem Panel.await_tRst (p : Panel) (cmd : ArgCmd) : (p.await cmd).tRst = p.tRst := rfl
@[simp] theorem Panel.await_initStage (p : Panel) (cmd : ArgCmd) : (p.await cmd).initStage = p.initStage := rfl
@[simp] theorem Panel.await_slpPending (p : Panel) (cmd : ArgCmd) : (p.await cmd).slpPending = p.slpPending := rfl
@[simp] theorem Panel.await_tSlp (p : Panel) (cmd : ArgCmd) : (p.await cmd).tSlp = p.tSlp := rfl
@[simp] theorem Panel.await_sleep (p : Panel) (cmd : ArgCmd) : (p.await cmd).sleep = p.sleep := rfl
@[simp] theorem Panel.await_displayOn (p : Panel) (cmd : ArgCmd) : (p.await cmd).displayOn = p.displayOn := rfl
@[simp] theorem Panel.await_colmod (p : Panel) (cmd : ArgCmd) : (p.await cmd).colmod = p.colmod := rfl
@[simp] theorem Panel.await_madctl (p : Panel) (cmd : ArgCmd) : (p.await cmd).madctl = p.madctl := rfl
@[simp] theorem Panel.await_xs (p : Panel) (cmd : ArgCmd) : (p.await cmd).xs = p.xs := rfl
@[simp] theorem Panel.await_xe (p : Panel) (cmd : ArgCmd) : (p.await cmd).xe = p.xe := rfl
@[simp] theorem Panel.await_ys (p : Panel) (cmd : ArgCmd) : (p.await cmd).ys = p.ys := rfl
@[simp] theorem Panel.await_ye (p : Panel) (cmd : ArgCmd) : (p.await cmd).ye = p.ye := rfl
@[simp] theorem Panel.await_cx (p : Panel) (cmd : ArgCmd) : (p.await cmd).cx = p.cx := rfl
@[simp] theorem Panel.await_cy (p : Panel) (cmd : ArgCmd) : (p.await cmd).cy = p.cy := rfl
@[simp] theorem Panel.await_full (p : Panel) (cmd : ArgCmd) : (p.await cmd).full = p.full := rfl
@[simp] theorem Panel.await_rx (p : Panel) (cmd : ArgCmd) : (p.await cmd).rx = .args cmd [] := rfl
@[simp] theorem Panel.await_hi (p : Panel) (cmd : ArgCmd) : (p.await cmd).hi = p.hi := rfl
@[simp] theorem Panel.await_gram (p : Panel) (cmd : ArgCmd) : (p.await cmd).gram = p.gram := rfl
@[simp] theorem Panel.await_pf (p : Panel) (cmd : ArgCmd) : (p.await cmd).pf = p.pf := rfl
@[simp] theorem Panel.setMadctl_pstate (p : Panel) (b : Byte) : (p.setMadctl b).pstate = p.pstate := rfl
@[simp] theorem Panel.setMadctl_tRst (p : Panel) (b : Byte) : (p.setMadctl b).tRst = p.tRst := rfl
@[simp] theorem Panel.setMadctl_initStage (p : Panel) (b : Byte) : (p.setMadctl b).initStage = some 3 := rfl
@[simp] theorem Panel.setMadctl_slpPending (p : Panel) (b : Byte) : (p.setMadctl b).slpPending = p.slpPending := rfl
@[simp] theorem Panel.setMadctl_tSlp (p : Panel) (b : Byte) : (p.setMadctl b).tSlp = p.tSlp := rfl
@[simp] theorem Panel.setMadctl_sleep (p : Panel) (b : Byte) : (p.setMadctl b).sleep = p.sleep := rfl
@[simp] theorem Panel.setMadctl_displayOn (p : Panel) (b : Byte) : (p.setMadctl b).displayOn = p.displayOn := rfl
@[simp] theorem Panel.setMadctl_colmod (p : Panel) (b : Byte) : (p.setMadctl b).colmod = p.colmod := rfl
@[simp] theorem Panel.setMadctl_madctl (p : Panel) (b : Byte) : (p.setMadctl b).madctl = some b := rfl
@[simp] theorem Panel.setMadctl_xs (p : Panel) (b : Byte) : (p.setMadctl b).xs = p.xs := rfl
@[simp] theorem Panel.setMadctl_xe (p : Panel) (b : Byte) : (p.setMadctl b).xe = p.xe := rfl
@[simp] theorem Panel.setMadctl_ys (p : Panel) (b : Byte) : (p.setMadctl b).ys = p.ys := rfl
@[simp] theorem Panel.setMadctl_ye (p : Panel) (b : Byte) : (p.setMadctl b).ye = p.ye := rfl
@[simp] theorem Panel.setMadctl_cx (p : Panel) (b : Byte) : (p.setMadctl b).cx = p.cx := rfl
@[simp] theorem Panel.setMadctl_cy (p : Panel) (b : Byte) : (p.setMadctl b).cy = p.cy := rfl
@[simp] theorem Panel.setMadctl_full (p : Panel) (b : Byte) : (p.setMadctl b).full = p.full := rfl
@[simp] theorem Panel.setMadctl_rx (p : Panel) (b : Byte) : (p.setMadctl b).rx = p.rx := rfl
@[simp] theorem Panel.setMadctl_hi (p : Panel) (b : Byte) : (p.setMadctl b).hi = p.hi := rfl
@[simp] theorem Panel.setMadctl_gram (p : Panel) (b : Byte) : (p.setMadctl b).gram = p.gram := rfl
@[simp] theorem Panel.setMadctl_pf (p : Panel) (b : Byte) : (p.setMadctl b).pf = p.pf := rfl

end Sys2Proof.Machine
end

