-- ==== Sys2Proof/Laws/Memory.lean ====
section
/-! SUPPORT. GRAM: read after write, the canonical form, and what one cell write does. -/

namespace Sys2Proof.Machine

@[simp] theorem Memory.read_write_same (m : List (Nat × Word)) (a : Nat) (v : Word) :
    Memory.read (Memory.write m a v) a = some v := by
  induction m with
  | nil => simp [Memory.write, Memory.read]
  | cons e m ih =>
    obtain ⟨k, u⟩ := e
    simp only [Memory.write]
    split_ifs with h1 h2
    · simp [Memory.read]
    · simp [Memory.read]
    · simp only [Memory.read]
      rw [if_neg (fun h => h2 h.symm), ih]

theorem Memory.read_write_other (m : List (Nat × Word)) {a b : Nat} (v : Word) (h : b ≠ a) :
    Memory.read (Memory.write m a v) b = Memory.read m b := by
  induction m with
  | nil => simp [Memory.write, Memory.read, h.symm]
  | cons e m ih =>
    obtain ⟨k, u⟩ := e
    simp only [Memory.write]
    split_ifs with h1 h2
    · simp [Memory.read, h.symm]
    · subst h2
      simp [Memory.read, h.symm]
    · simp only [Memory.read, ih]

theorem Memory.write_keys_ge (m : List (Nat × Word)) (a : Nat) (v : Word) {e : Nat × Word}
    (h : e ∈ Memory.write m a v) : e.1 = a ∨ e ∈ m := by
  induction m with
  | nil => simp_all [Memory.write]
  | cons f m ih =>
    obtain ⟨k, u⟩ := f
    simp only [Memory.write] at h
    split_ifs at h with h1 h2
    · rcases List.mem_cons.1 h with rfl | h
      · exact .inl rfl
      · exact .inr h
    · rcases List.mem_cons.1 h with rfl | h
      · exact .inl rfl
      · exact .inr (List.mem_cons_of_mem _ h)
    · rcases List.mem_cons.1 h with rfl | h
      · exact .inr List.mem_cons_self
      · rcases ih h with h | h
        · exact .inl h
        · exact .inr (List.mem_cons_of_mem _ h)

theorem Memory.write_pairwise (m : List (Nat × Word)) (a : Nat) (v : Word)
    (h : (m.map Prod.fst).Pairwise (· < ·)) : ((Memory.write m a v).map Prod.fst).Pairwise (· < ·) := by
  induction m with
  | nil => simp [Memory.write]
  | cons f m ih =>
    obtain ⟨k, u⟩ := f
    simp only [List.map_cons, List.pairwise_cons] at h
    simp only [Memory.write]
    split_ifs with h1 h2
    · simp only [List.map_cons, List.pairwise_cons, List.mem_cons]
      refine ⟨?_, h.1, h.2⟩
      rintro b (rfl | hb)
      · exact h1
      · exact h1.trans (h.1 b hb)
    · simp only [List.map_cons, List.pairwise_cons]
      exact ⟨fun b hb => h2 ▸ h.1 b hb, h.2⟩
    · simp only [List.map_cons, List.pairwise_cons]
      refine ⟨fun b hb => ?_, ih h.2⟩
      obtain ⟨e, he, rfl⟩ := List.mem_map.1 hb
      rcases Memory.write_keys_ge m a v he with he | he
      · omega
      · exact h.1 _ (List.mem_map.2 ⟨e, he, rfl⟩)

/-- A write to a cell that exists keeps the canonical form. -/
theorem Memory.write_wf {m : List (Nat × Word)} {a : Nat} (v : Word) (h : Memory.wf m) (ha : a < dispW * dispH) :
    Memory.wf (Memory.write m a v) := by
  refine ⟨Memory.write_pairwise m a v h.1, fun e he => ?_⟩
  rcases Memory.write_keys_ge m a v he with he | he
  · exact he ▸ ha
  · exact h.2 e he

theorem gramIndex_lt {c r : Nat} (hc : c < dispW) (hr : r < dispH) : gramIndex c r < dispW * dispH := by
  simp only [gramIndex, dispW, dispH] at *
  omega

theorem gramIndex_inj {c r c' r' : Nat} (hc : c < dispW) (hc' : c' < dispW)
    (h : gramIndex c r = gramIndex c' r') : c = c' ∧ r = r' := by
  simp only [gramIndex, dispW] at *
  omega

/-- What `GramWrite` at a cell that exists does to every cell. -/
theorem Panel.cell_write (p : Panel) (v : Word) {c r : Nat} (hc : c < dispW) (hr : r < dispH) (a b : Nat) :
    ({ p with gram := Memory.write p.gram (gramIndex c r) v } : Panel).cell a b =
      if a = c ∧ b = r then some v else p.cell a b := by
  simp only [Panel.cell]
  by_cases h : a = c ∧ b = r
  · obtain ⟨rfl, rfl⟩ := h
    simp [hc, hr]
  · rw [if_neg h]
    split_ifs with hab
    · exact Memory.read_write_other _ _ fun e => h (gramIndex_inj hab.1 hc e)
    · rfl

/-- `GramWrite`, the only writer of GRAM (R221), keeps the canonical form. -/
theorem Panel.gramWrite_wf {p : Panel} (h : Memory.wf p.gram) (v : Word) : Memory.wf (p.gramWrite v).gram := by
  unfold Panel.gramWrite
  split
  · split_ifs with hc
    · exact Memory.write_wf v h (gramIndex_lt hc.1 hc.2)
    · exact h
  · exact h

/-- A GRAM with no cell written, as at power-up and after a reset pulse, has the canonical form. -/
theorem Memory.nil_wf : Memory.wf [] := ⟨List.Pairwise.nil, by simp⟩

/-- GRAM has the canonical form after reset. -/
theorem reset_gram_wf : Memory.wf State.reset.panel.gram := Memory.nil_wf

end Sys2Proof.Machine
end

