-- ==== Sys2Proof/Laws/Stream.lean ====
section
/-! SUPPORT. The pixel stream: one pixel's effect on the cursor and on GRAM, and a whole window's (spec/44_cursor_engine.md
R220 to R222, R225). -/

namespace Sys2Proof

theorem hi8_toNat (v : Word) : (hi8 v).toNat = v.toNat / 256 := by
  have := v.isLt
  simp [hi8, BitVec.extractLsb'_toNat, Nat.shiftRight_eq_div_pow]
  omega

theorem lo8_toNat (v : Word) : (lo8 v).toNat = v.toNat % 256 := by
  simp [lo8, BitVec.extractLsb'_toNat]

theorem joinBytes_toNat (a b : Byte) : (joinBytes a b).toNat = a.toNat * 256 + b.toNat := by
  have := b.isLt
  simp only [joinBytes, BitVec.toNat_append]
  rw [← Nat.shiftLeft_add_eq_or_of_lt (by simpa using this), Nat.shiftLeft_eq]

@[simp] theorem joinBytes_hi8_lo8 (v : Word) : joinBytes (hi8 v) (lo8 v) = v := by
  apply BitVec.eq_of_toNat_eq
  rw [joinBytes_toNat, hi8_toNat, lo8_toNat]
  omega

@[simp] theorem hi8_joinBytes (a b : Byte) : hi8 (joinBytes a b) = a := by
  have := b.isLt
  apply BitVec.eq_of_toNat_eq
  rw [hi8_toNat, joinBytes_toNat]
  omega

@[simp] theorem lo8_joinBytes (a b : Byte) : lo8 (joinBytes a b) = b := by
  have := b.isLt
  apply BitVec.eq_of_toNat_eq
  rw [lo8_toNat, joinBytes_toNat]
  omega

namespace Machine

/-- A data byte reaches the stream of an active Panel unchecked. -/
theorem Panel.byte_stream {cfg : Config} {p : Panel} (hs : p.pstate = .active) (hr : p.rx = .stream) (d : Byte) :
    p.byte cfg d = p.pixelByte d := by
  simp [Panel.byte, hr, Panel.dataCheck, Panel.raiseIf, hs]

/-- The two bytes of one pixel write it at the cursor and advance the cursor. -/
theorem Panel.pixel_stream {cfg : Config} {p : Panel} (hs : p.pstate = .active) (hr : p.rx = .stream)
    (hf : p.full = some false) (hh : p.hi = none) (c : Word) :
    (pack c).foldl (Panel.byte cfg) p = (p.gramWrite c).advance := by
  have h1 : p.byte cfg (hi8 c) = { p with hi := some (hi8 c) } := by
    rw [Panel.byte_stream hs hr]
    simp [Panel.pixelByte, hf, hh]
  have h2 : ({ p with full := some false, hi := none } : Panel) = p := by
    cases p
    simp_all
  simp only [pack, List.foldl_cons, List.foldl_nil, h1]
  rw [Panel.byte_stream (by exact hs) (by exact hr)]
  simp [Panel.pixelByte, hf, h2]

theorem Panel.gramWrite_in {p : Panel} {c r : Word} (hc : p.cx = some c) (hr : p.cy = some r)
    (hcw : c.toNat < dispW) (hrh : r.toNat < dispH) (v : Word) :
    p.gramWrite v = { p with gram := Memory.write p.gram (gramIndex c.toNat r.toNat) v } := by
  unfold Panel.gramWrite
  simp only [hc, hr]
  rw [if_pos ⟨hcw, hrh⟩]

/-- A Panel that takes the pixels of its window, with the cursor at a cell of the window. -/
structure Panel.Streaming (p : Panel) (x0 y0 x1 y1 cx cy : Word) : Prop where
  active : p.pstate = .active
  rx : p.rx = .stream
  notFull : p.full = some false
  hi : p.hi = none
  xs : p.xs = some x0
  xe : p.xe = some x1
  ys : p.ys = some y0
  ye : p.ye = some y1
  atCx : p.cx = some cx
  atCy : p.cy = some cy
  colLo : x0.toNat ≤ cx.toNat
  colHi : cx.toNat ≤ x1.toNat
  rowHi : cy.toNat ≤ y1.toNat
  inW : x1.toNat < dispW
  inH : y1.toNat < dispH

/-- The pixels still wanted from cursor (cx, cy): the rest of its row and the rows below it. -/
def pixelsLeft (x0 x1 y1 cx cy : Word) : Nat :=
  (x1.toNat - cx.toNat + 1) + (y1.toNat - cy.toNat) * (x1.toNat - x0.toNat + 1)

/-- The place of cell (a, b) in the stream from cursor (cx, cy), R225: rows follow each other. -/
def pixelPlace (x0 x1 cx cy a b : Nat) : Nat := (b - cy) * (x1 - x0 + 1) + a - cx

/-- The cell is still to be written from cursor (cx, cy): in the window, and not before the cursor. -/
abbrev StillToCome (x0 x1 y1 cx cy a b : Nat) : Prop :=
  x0 ≤ a ∧ a ≤ x1 ∧ b ≤ y1 ∧ (cy < b ∨ (b = cy ∧ cx ≤ a))

/-- A stream of exactly the pixels still wanted (R225): each goes to its cell, the rest of GRAM is untouched, the window is
full and the cursor is at the start of its last row. -/
theorem Panel.stream_fill (cfg : Config) (x0 y0 x1 y1 : Word) :
    ∀ (cs : List Word) (p : Panel) (cx cy : Word), p.Streaming x0 y0 x1 y1 cx cy →
      cs.length = pixelsLeft x0 x1 y1 cx cy →
      ∃ g, (packList cs).foldl (Panel.byte cfg) p =
          { p with cx := some x0, cy := some y1, full := some true, gram := g } ∧
        ∀ a b, ({ p with gram := g } : Panel).cell a b =
          if StillToCome x0.toNat x1.toNat y1.toNat cx.toNat cy.toNat a b then
            cs[pixelPlace x0.toNat x1.toNat cx.toNat cy.toNat a b]?
          else p.cell a b := by
  intro cs
  induction cs with
  | nil =>
    intro p cx cy h hl
    simp only [pixelsLeft, List.length_nil] at hl
    omega
  | cons c cs ih =>
    intro p cx cy h hl
    have hcx := h.colHi
    have hcy := h.rowHi
    have hW := h.inW
    have hH := h.inH
    have hcW : cx.toNat < dispW := lt_of_le_of_lt hcx hW
    have hcH : cy.toNat < dispH := lt_of_le_of_lt hcy hH
    have h0 := h.colLo
    have hstep : (packList (c :: cs)).foldl (Panel.byte cfg) p =
        (packList cs).foldl (Panel.byte cfg) (p.gramWrite c).advance := by
      rw [packList, List.flatMap_cons, List.foldl_append,
        Panel.pixel_stream h.active h.rx h.notFull h.hi]
      rfl
    have hw := Panel.gramWrite_in h.atCx h.atCy hcW hcH c
    have hcell := p.cell_write c hcW hcH
    rw [hstep, hw]
    by_cases hrow : cx.toNat < x1.toNat
    · -- the cursor moves right
      have hadv : ({ p with gram := Memory.write p.gram (gramIndex cx.toNat cy.toNat) c } : Panel).advance =
          { p with gram := Memory.write p.gram (gramIndex cx.toNat cy.toNat) c, cx := some (cx + 1) } := by
        simp only [Panel.advance, h.xe, h.ye, h.atCx, h.atCy]
        rw [if_pos hrow]
      have hn : (cx + 1).toNat = cx.toNat + 1 := by
        have := x1.isLt
        rw [BitVec.toNat_add]
        simp
        omega
      rw [hadv]
      obtain ⟨g, he, hg⟩ := ih { p with gram := Memory.write p.gram (gramIndex cx.toNat cy.toNat) c, cx := some (cx + 1) } (cx + 1) cy
        { active := h.active, rx := h.rx, notFull := h.notFull, hi := h.hi, xs := h.xs, xe := h.xe, ys := h.ys,
          ye := h.ye, atCx := rfl, atCy := h.atCy, colLo := by omega, colHi := by omega, rowHi := hcy, inW := hW, inH := hH }
        (by simp only [pixelsLeft, List.length_cons] at hl ⊢; omega)
      refine ⟨g, he, fun a b => ?_⟩
      have hg' := hg a b
      change ({ p with gram := g } : Panel).cell a b = _ at hg'
      rw [hg']
      change (if _ then _ else ({ p with gram := _ } : Panel).cell a b) = _
      rw [hcell a b]
      simp only [hn]
      by_cases hcur : a = cx.toNat ∧ b = cy.toNat
      · obtain ⟨rfl, rfl⟩ := hcur
        rw [if_neg (by rintro ⟨-, -, -, h | h⟩ <;> omega), if_pos ⟨rfl, rfl⟩, if_pos ⟨h0, hcx, hcy, .inr ⟨rfl, le_refl _⟩⟩]
        simp [pixelPlace]
      · rw [if_neg hcur]
        by_cases hc : StillToCome x0.toNat x1.toNat y1.toNat cx.toNat cy.toNat a b
        · have hc' : StillToCome x0.toNat x1.toNat y1.toNat (cx.toNat + 1) cy.toNat a b := by
            refine ⟨hc.1, hc.2.1, hc.2.2.1, ?_⟩
            rcases hc.2.2.2 with h' | ⟨h1, h2⟩
            · exact .inl h'
            · refine .inr ⟨h1, ?_⟩
              by_contra hlt
              exact hcur ⟨by omega, h1⟩
          rw [if_pos hc, if_pos hc']
          have hpl : pixelPlace x0.toNat x1.toNat cx.toNat cy.toNat a b =
              pixelPlace x0.toNat x1.toNat (cx.toNat + 1) cy.toNat a b + 1 := by
            simp only [pixelPlace]
            rcases hc'.2.2.2 with h' | ⟨h1, h2⟩
            · have : x1.toNat - x0.toNat + 1 ≤ (b - cy.toNat) * (x1.toNat - x0.toNat + 1) :=
                Nat.le_mul_of_pos_left _ (by omega)
              have := hc.1
              omega
            · subst h1
              simp
              omega
          rw [hpl, List.getElem?_cons_succ]
        · have hc' : ¬ StillToCome x0.toNat x1.toNat y1.toNat (cx.toNat + 1) cy.toNat a b := by
            rintro ⟨h1, h2, h3, h4⟩
            exact hc ⟨h1, h2, h3, by omega⟩
          rw [if_neg hc, if_neg hc']
    · have hxe : cx.toNat = x1.toNat := by omega
      by_cases hlast : cy.toNat < y1.toNat
      · -- the cursor goes to the next row
        have hadv : ({ p with gram := Memory.write p.gram (gramIndex cx.toNat cy.toNat) c } : Panel).advance =
            { p with gram := Memory.write p.gram (gramIndex cx.toNat cy.toNat) c, cx := some x0, cy := some (cy + 1) } := by
          simp only [Panel.advance, h.xe, h.ye, h.atCx, h.atCy, h.xs]
          rw [if_neg hrow, if_pos hlast]
        have hn : (cy + 1).toNat = cy.toNat + 1 := by
          have := y1.isLt
          rw [BitVec.toNat_add]
          simp
          omega
        rw [hadv]
        obtain ⟨g, he, hg⟩ := ih
          { p with gram := Memory.write p.gram (gramIndex cx.toNat cy.toNat) c, cx := some x0, cy := some (cy + 1) }
          x0 (cy + 1)
          { active := h.active, rx := h.rx, notFull := h.notFull, hi := h.hi, xs := h.xs, xe := h.xe, ys := h.ys,
            ye := h.ye, atCx := rfl, atCy := rfl, colLo := le_refl _, colHi := by omega, rowHi := by omega, inW := hW, inH := hH }
          (by
            simp only [pixelsLeft, List.length_cons, hn] at hl ⊢
            have e : y1.toNat - cy.toNat = (y1.toNat - (cy.toNat + 1)) + 1 := by omega
            rw [e, Nat.add_mul] at hl
            omega)
        refine ⟨g, he, fun a b => ?_⟩
        have hg' := hg a b
        change ({ p with gram := g } : Panel).cell a b = _ at hg'
        rw [hg']
        change (if _ then _ else ({ p with gram := _ } : Panel).cell a b) = _
        rw [hcell a b]
        simp only [hn]
        by_cases hcur : a = cx.toNat ∧ b = cy.toNat
        · obtain ⟨rfl, rfl⟩ := hcur
          rw [if_neg (by rintro ⟨-, -, -, h | h⟩ <;> omega), if_pos ⟨rfl, rfl⟩,
            if_pos ⟨h0, hcx, hcy, .inr ⟨rfl, le_refl _⟩⟩]
          simp [pixelPlace]
        · rw [if_neg hcur]
          by_cases hc : StillToCome x0.toNat x1.toNat y1.toNat cx.toNat cy.toNat a b
          · have hc' : StillToCome x0.toNat x1.toNat y1.toNat x0.toNat (cy.toNat + 1) a b := by
              refine ⟨hc.1, hc.2.1, hc.2.2.1, ?_⟩
              rcases hc.2.2.2 with h' | ⟨h1, h2⟩
              · have := hc.1
                omega
              · have := hc.2.1
                exact absurd ⟨by omega, h1⟩ hcur
            rw [if_pos hc, if_pos hc']
            have hpl : pixelPlace x0.toNat x1.toNat cx.toNat cy.toNat a b =
                pixelPlace x0.toNat x1.toNat x0.toNat (cy.toNat + 1) a b + 1 := by
              simp only [pixelPlace]
              have hb : b - cy.toNat = (b - (cy.toNat + 1)) + 1 := by
                rcases hc'.2.2.2 with h' | ⟨h1, h2⟩ <;> omega
              rw [hb, Nat.add_mul]
              have := hc.1
              omega
            rw [hpl, List.getElem?_cons_succ]
          · have hc' : ¬ StillToCome x0.toNat x1.toNat y1.toNat x0.toNat (cy.toNat + 1) a b := by
              rintro ⟨h1, h2, h3, h4⟩
              exact hc ⟨h1, h2, h3, by omega⟩
            rw [if_neg hc, if_neg hc']
      · -- the last pixel
        have hye : cy.toNat = y1.toNat := by omega
        have hcs : cs = [] := by
          simp only [pixelsLeft, List.length_cons, hxe, hye] at hl
          simp at hl
          exact hl
        have hcyw : cy = y1 := BitVec.eq_of_toNat_eq hye
        have hadv : ({ p with gram := Memory.write p.gram (gramIndex cx.toNat cy.toNat) c } : Panel).advance =
            { p with gram := Memory.write p.gram (gramIndex cx.toNat cy.toNat) c, cx := some x0, cy := some y1,
                     full := some true } := by
          simp only [Panel.advance, h.xe, h.ye, h.atCx, h.atCy, h.xs]
          rw [if_neg hrow, if_neg hlast, hcyw]
        rw [hadv, hcs]
        refine ⟨_, rfl, fun a b => ?_⟩
        rw [hcell a b]
        by_cases hcur : a = cx.toNat ∧ b = cy.toNat
        · obtain ⟨rfl, rfl⟩ := hcur
          rw [if_pos ⟨rfl, rfl⟩, if_pos ⟨h0, hcx, hcy, .inr ⟨rfl, le_refl _⟩⟩]
          simp [pixelPlace]
        · rw [if_neg hcur, if_neg]
          rintro ⟨h1, h2, h3, h4⟩
          exact hcur (by omega)

end Machine

end Sys2Proof
end

