-- ==== Sys2Proof/Laws/Window.lean ====
section
/-! SUPPORT. Command decoding under legal parameters, the framer at a ready Panel, and a framed window with its stream
(spec/41_controller_protocol.md R125 to R128). -/

namespace Sys2Proof

section
variable {cfg : Config} (h : cfg.Legal)
include h

theorem Config.Legal.pairs :
    (cfg.opcColmod ≠ cfg.opcSlpout) ∧ (cfg.opcMadctl ≠ cfg.opcSlpout ∧ cfg.opcMadctl ≠ cfg.opcColmod) ∧
    (cfg.opcDispon ≠ cfg.opcSlpout ∧ cfg.opcDispon ≠ cfg.opcColmod ∧ cfg.opcDispon ≠ cfg.opcMadctl) ∧
    (cfg.opcCaset ≠ cfg.opcSlpout ∧ cfg.opcCaset ≠ cfg.opcColmod ∧ cfg.opcCaset ≠ cfg.opcMadctl ∧
      cfg.opcCaset ≠ cfg.opcDispon) ∧
    (cfg.opcRaset ≠ cfg.opcSlpout ∧ cfg.opcRaset ≠ cfg.opcColmod ∧ cfg.opcRaset ≠ cfg.opcMadctl ∧
      cfg.opcRaset ≠ cfg.opcDispon ∧ cfg.opcRaset ≠ cfg.opcCaset) ∧
    (cfg.opcRamwr ≠ cfg.opcSlpout ∧ cfg.opcRamwr ≠ cfg.opcColmod ∧ cfg.opcRamwr ≠ cfg.opcMadctl ∧
      cfg.opcRamwr ≠ cfg.opcDispon ∧ cfg.opcRamwr ≠ cfg.opcCaset ∧ cfg.opcRamwr ≠ cfg.opcRaset) := by
  have := h.1
  simp only [Config.opcodes, List.nodup_cons, List.mem_cons, not_or, List.not_mem_nil, not_false_eq_true,
    and_true] at this
  obtain ⟨⟨a1, a2, a3, a4, a5, a6⟩, ⟨b1, b2, b3, b4, b5⟩, ⟨c1, c2, c3, c4⟩, ⟨d1, d2, d3⟩, ⟨e1, e2⟩, f1, -⟩ := this
  exact ⟨Ne.symm a1, ⟨Ne.symm a2, Ne.symm b1⟩, ⟨Ne.symm a3, Ne.symm b2, Ne.symm c1⟩,
    ⟨Ne.symm a4, Ne.symm b3, Ne.symm c2, Ne.symm d1⟩,
    ⟨Ne.symm a5, Ne.symm b4, Ne.symm c3, Ne.symm d2, Ne.symm e1⟩,
    ⟨Ne.symm a6, Ne.symm b5, Ne.symm c4, Ne.symm d3, Ne.symm e2, Ne.symm f1⟩⟩

omit h in
theorem decodeCommand_slpout : decodeCommand cfg cfg.opcSlpout = some .slpout := by simp [decodeCommand]

theorem decodeCommand_colmod : decodeCommand cfg cfg.opcColmod = some .colmod := by
  simp [decodeCommand, h.pairs]

theorem decodeCommand_madctl : decodeCommand cfg cfg.opcMadctl = some .madctl := by
  simp [decodeCommand, h.pairs]

theorem decodeCommand_dispon : decodeCommand cfg cfg.opcDispon = some .dispon := by
  simp [decodeCommand, h.pairs]

theorem decodeCommand_caset : decodeCommand cfg cfg.opcCaset = some .caset := by
  simp [decodeCommand, h.pairs]

theorem decodeCommand_raset : decodeCommand cfg cfg.opcRaset = some .raset := by
  simp [decodeCommand, h.pairs]

theorem decodeCommand_ramwr : decodeCommand cfg cfg.opcRamwr = some .ramwr := by
  simp [decodeCommand, h.pairs]

end

namespace Machine

theorem Panel.consumeAll_nil (cfg : Config) (p : Panel) : p.consumeAll cfg [] = p := rfl

theorem Panel.consumeAll_cons (cfg : Config) (p : Panel) (e : BusEvent) (es : List BusEvent) :
    p.consumeAll cfg (e :: es) = (p.consume cfg e).consumeAll cfg es := rfl

theorem Panel.consumeAll_append (cfg : Config) (p : Panel) (es fs : List BusEvent) :
    p.consumeAll cfg (es ++ fs) = (p.consumeAll cfg es).consumeAll cfg fs := by
  simp [Panel.consumeAll, List.foldl_append]

/-- A command at a ready Panel: admission and the close of the last stream change nothing but the receive mode. -/
theorem Panel.command_ready {p : Panel} (h : p.Ready) (effect : Panel → Panel) :
    p.command effect = effect { p with rx := .idle, hi := none } := by
  obtain ⟨h1, h2, h3, h4, h5⟩ := h
  have hc : p.closeRx = { p with rx := .idle, hi := none } := by
    rcases h5 with h5 | ⟨h5, h6, h7⟩
    · simp [Panel.closeRx, h5]
    · simp [Panel.closeRx, h5, h6, h7, Panel.raiseIf]
  simp [Panel.command, Panel.admitReset, Panel.admitSleep, h1, h3, hc]

/-- A command that finds the Panel active, past its settle time and between packets. -/
theorem Panel.command_quiet {p : Panel} (h1 : p.pstate = .active) (h3 : p.slpPending ≠ some true) (h5 : p.rx = .idle)
    (effect : Panel → Panel) : p.command effect = effect { p with rx := .idle, hi := none } := by
  simp [Panel.command, Panel.admitReset, Panel.admitSleep, Panel.closeRx, h1, h3, h5]

/-- A byte of an argument list at an active Panel. -/
theorem Panel.byte_args {cfg : Config} {p : Panel} {cmd : ArgCmd} {bs : List Byte} (hs : p.pstate = .active)
    (hr : p.rx = .args cmd bs) (d : Byte) : p.byte cfg d = p.argByte cfg cmd bs d := by
  simp [Panel.byte, hr, Panel.dataCheck, Panel.raiseIf, hs]

theorem field16_toNat {v : Int} {n : Nat} (h0 : 0 ≤ v) (h1 : v < n) (hn : n ≤ 65536) :
    ((field16 v).toNat : Int) = v := by
  simp only [field16, BitVec.toNat_ofInt]
  omega

theorem boundBytes_eq (a b : Int) :
    boundBytes a b = [hi8 (field16 a), lo8 (field16 a), hi8 (field16 b), lo8 (field16 b)] := rfl

/-- CASET with a good bound pair at a ready Panel. -/
theorem Panel.caset_ready {cfg : Config} (hl : cfg.Legal) {p : Panel} (h : p.Ready) {a b : Word}
    (hb : boundsOk dispW a b = true) :
    (p.consume cfg (.cmd cfg.opcCaset)).consume cfg (.data [hi8 a, lo8 a, hi8 b, lo8 b]) =
      { p with rx := .idle, hi := none, xs := some a, xe := some b } := by
  have h1 := h.1
  have h2 := h.2.1
  simp only [Panel.consume, decodeCommand_caset hl, Panel.command_ready h, Panel.effect, Panel.await,
    Panel.requires, List.foldl_cons, List.foldl_nil]
  simp [Panel.raiseIf, h2, Panel.byte, Panel.dataCheck, h1, Panel.argByte, ArgCmd.need, Panel.complete,
    Panel.setCols, hb]

/-- RASET with a good bound pair at a ready Panel. -/
theorem Panel.raset_ready {cfg : Config} (hl : cfg.Legal) {p : Panel} (h : p.Ready) {a b : Word}
    (hb : boundsOk dispH a b = true) :
    (p.consume cfg (.cmd cfg.opcRaset)).consume cfg (.data [hi8 a, lo8 a, hi8 b, lo8 b]) =
      { p with rx := .idle, hi := none, ys := some a, ye := some b } := by
  have h1 := h.1
  have h2 := h.2.1
  simp only [Panel.consume, decodeCommand_raset hl, Panel.command_ready h, Panel.effect, Panel.await,
    Panel.requires, List.foldl_cons, List.foldl_nil]
  simp [Panel.raiseIf, h2, Panel.byte, Panel.dataCheck, h1, Panel.argByte, ArgCmd.need, Panel.complete,
    Panel.setRows, hb]

/-- RAMWR with a set window at a ready Panel. -/
theorem Panel.ramwr_ready {cfg : Config} (hl : cfg.Legal) {p : Panel} (h : p.Ready) {x0 y0 x1 y1 : Word}
    (hx0 : p.xs = some x0) (hx1 : p.xe = some x1) (hy0 : p.ys = some y0) (hy1 : p.ye = some y1) :
    p.consume cfg (.cmd cfg.opcRamwr) =
      { p with rx := .stream, hi := none, full := some false, cx := some x0, cy := some y0 } := by
  have h2 := h.2.1
  simp only [Panel.consume, decodeCommand_ramwr hl, Panel.command_ready h, Panel.effect, Panel.ramwr]
  simp [Panel.requires, Panel.raiseIf, h2, hx0, hx1, hy0, hy1]

/-- `SetWindow` at a ready Panel (R125): the window is set and the Panel takes pixels from its top-left corner. -/
theorem Panel.setWindow_ready {cfg : Config} (hl : cfg.Legal) {p : Panel} (h : p.Ready) {x0 y0 x1 y1 : Int}
    (hx0 : 0 ≤ x0) (hx : x0 ≤ x1) (hx1 : x1 < dispW) (hy0 : 0 ≤ y0) (hy : y0 ≤ y1) (hy1 : y1 < dispH) :
    p.consumeAll cfg (setWindow cfg x0 y0 x1 y1) =
      { p with
        rx := .stream, hi := none, full := some false
        xs := some (field16 x0), xe := some (field16 x1), ys := some (field16 y0), ye := some (field16 y1)
        cx := some (field16 x0), cy := some (field16 y0) } := by
  have e0 := field16_toNat hx0 (lt_of_le_of_lt hx hx1) (by decide)
  have e1 := field16_toNat (hx0.trans hx) hx1 (by decide)
  have e2 := field16_toNat hy0 (lt_of_le_of_lt hy hy1) (by decide)
  have e3 := field16_toNat (hy0.trans hy) hy1 (by decide)
  have hbx : boundsOk dispW (field16 x0) (field16 x1) = true := by
    simp only [boundsOk, Bool.and_eq_true, decide_eq_true_eq]
    omega
  have hby : boundsOk dispH (field16 y0) (field16 y1) = true := by
    simp only [boundsOk, Bool.and_eq_true, decide_eq_true_eq]
    omega
  simp only [setWindow, boundBytes_eq, Panel.consumeAll_cons, Panel.consumeAll_nil]
  rw [Panel.caset_ready hl h hbx,
    Panel.raset_ready hl
      (p := { p with rx := .idle, hi := none, xs := some (field16 x0), xe := some (field16 x1) })
      ⟨h.1, h.2.1, h.2.2.1, h.2.2.2.1, .inl rfl⟩ hby,
    Panel.ramwr_ready hl
      (p := { p with
        rx := .idle, hi := none, xs := some (field16 x0), xe := some (field16 x1)
        ys := some (field16 y0), ye := some (field16 y1) })
      ⟨h.1, h.2.1, h.2.2.1, h.2.2.2.1, .inl rfl⟩ rfl rfl rfl rfl]

/-- A framed window with its stream at a ready Panel (R128, R225): the Panel is ready again, every cell of the window holds
its pixel, and every other cell is as it was. -/
theorem Panel.window_fill {cfg : Config} (hl : cfg.Legal) {p : Panel} (h : p.Ready) {x0 y0 x1 y1 : Int}
    (hx0 : 0 ≤ x0) (hx : x0 ≤ x1) (hx1 : x1 < dispW) (hy0 : 0 ≤ y0) (hy : y0 ≤ y1) (hy1 : y1 < dispH)
    {cs : List Word} (hlen : (cs.length : Int) = (x1 - x0 + 1) * (y1 - y0 + 1)) :
    ∃ g, (packList cs).foldl (Panel.byte cfg) (p.consumeAll cfg (setWindow cfg x0 y0 x1 y1)) =
        { p with
          rx := .stream, hi := none, full := some true
          xs := some (field16 x0), xe := some (field16 x1), ys := some (field16 y0), ye := some (field16 y1)
          cx := some (field16 x0), cy := some (field16 y1), gram := g } ∧
      ∀ a b, ({ p with gram := g } : Panel).cell a b =
        if InWindow x0 y0 x1 y1 a b then cs[streamPlace x0 y0 x1 a b]? else p.cell a b := by
  have e0 := field16_toNat hx0 (lt_of_le_of_lt hx hx1) (by decide)
  have e1 := field16_toNat (hx0.trans hx) hx1 (by decide)
  have e2 := field16_toNat hy0 (lt_of_le_of_lt hy hy1) (by decide)
  have e3 := field16_toNat (hy0.trans hy) hy1 (by decide)
  rw [Panel.setWindow_ready hl h hx0 hx hx1 hy0 hy hy1]
  obtain ⟨g, he, hg⟩ := Panel.stream_fill cfg (field16 x0) (field16 y0) (field16 x1) (field16 y1) cs
    { p with
      rx := .stream, hi := none, full := some false
      xs := some (field16 x0), xe := some (field16 x1), ys := some (field16 y0), ye := some (field16 y1)
      cx := some (field16 x0), cy := some (field16 y0) } (field16 x0) (field16 y0)
    { active := h.1, rx := rfl, notFull := rfl, hi := rfl, xs := rfl, xe := rfl, ys := rfl, ye := rfl, atCx := rfl,
      atCy := rfl, colLo := le_refl _, colHi := by omega, rowHi := by omega, inW := by omega, inH := by omega }
    (by
      zify
      simp only [pixelsLeft]
      push_cast [Nat.cast_sub (show (field16 x0).toNat ≤ (field16 x1).toNat by omega),
        Nat.cast_sub (show (field16 y0).toNat ≤ (field16 y1).toNat by omega)]
      rw [hlen, e0, e1, e2, e3]
      ring)
  refine ⟨g, he, fun a b => (hg a b).trans ?_⟩
  have hiff : StillToCome (field16 x0).toNat (field16 x1).toNat (field16 y1).toNat (field16 x0).toNat
      (field16 y0).toNat a b ↔ InWindow x0 y0 x1 y1 a b := by
    constructor
    · rintro ⟨h1, h2, h3, h4⟩
      refine ⟨by omega, by omega, ?_, by omega⟩
      rcases h4 with h4 | ⟨h4, -⟩ <;> omega
    · rintro ⟨h1, h2, h3, h4⟩
      refine ⟨by omega, by omega, by omega, ?_⟩
      rcases Nat.lt_or_ge (field16 y0).toNat b with h5 | h5
      · exact .inl h5
      · exact .inr ⟨by omega, by omega⟩
  by_cases hw : InWindow x0 y0 x1 y1 a b
  · rw [if_pos (hiff.2 hw), if_pos hw]
    congr 1
    obtain ⟨h1, h2, h3, h4⟩ := hw
    zify
    simp only [pixelPlace, streamPlace]
    rw [Int.toNat_of_nonneg (by
      have : 0 ≤ (b - y0) * (x1 - x0 + 1) := mul_nonneg (by omega) (by omega)
      omega)]
    push_cast [Nat.cast_sub (show (field16 y0).toNat ≤ b by omega),
      Nat.cast_sub (show (field16 x0).toNat ≤ (field16 x1).toNat by omega),
      Nat.cast_sub (show (field16 x0).toNat ≤ (b - (field16 y0).toNat) * ((field16 x1).toNat - (field16 x0).toNat + 1) + a by
        omega)]
    rw [e0, e1, e2]
    ring
  · rw [if_neg (fun hc => hw (hiff.1 hc)), if_neg hw]
    rfl

end Machine

end Sys2Proof
end

