-- ==== Sys2Proof/Laws/Commands.lean ====
section
/-! SUPPORT. Panel faults, and what each part of a Panel command can do: admission, the close of the receive mode, and the
command's own effect (spec/44_cursor_engine.md R203, R205, R210 to R217, R230). -/

namespace Sys2Proof.Machine

/-! ### Faults -/

/-- A fault set after one more fault (R230). -/
theorem mem_addFault {f g : PanelFault} {pf : List PanelFault} : g ∈ addFault f pf ↔ g = f ∨ g ∈ pf := by
  simp only [addFault, List.mem_filter, Bool.or_eq_true, decide_eq_true_eq]
  exact ⟨fun h => h.2, fun h => ⟨by cases g <;> decide, h⟩⟩

theorem addFault_ne_nil (f : PanelFault) (pf : List PanelFault) : addFault f pf ≠ [] :=
  List.ne_nil_of_mem (mem_addFault.2 (.inl rfl))

theorem Panel.mem_raise {p : Panel} {f g : PanelFault} : g ∈ (p.raise f).pf ↔ g = f ∨ g ∈ p.pf := mem_addFault

theorem Panel.mem_raiseIf {p : Panel} {b : Bool} {f g : PanelFault} :
    g ∈ (p.raiseIf b f).pf ↔ (b = true ∧ g = f) ∨ g ∈ p.pf := by
  unfold Panel.raiseIf
  split_ifs with h
  · simp [mem_addFault, h]
  · simp [h]

/-- `raiseIf` writes nothing but the fault set. -/
theorem Panel.raiseIf_eq (p : Panel) (b : Bool) (f : PanelFault) :
    p.raiseIf b f = { p with pf := if b then addFault f p.pf else p.pf } := by
  unfold Panel.raiseIf
  split_ifs <;> rfl

/-! ### Admission -/

/-- R203's reset part writes nothing but pstate and the fault set. -/
theorem Panel.admitReset_eq (p : Panel) :
    p.admitReset = { p with
      pstate := if p.pstate = .recovering then .active else p.pstate
      pf := p.admitReset.pf } := by
  unfold Panel.admitReset
  split <;> rename_i h <;> simp [h, Panel.raise, Panel.raiseIf_eq]
  · cases p
    simp_all
  · cases p
    simp_all

theorem Panel.mem_admitReset {p : Panel} {g : PanelFault} :
    g ∈ p.admitReset.pf ↔
      (g = .timing ∧ (p.pstate = .inReset ∨ (p.pstate = .recovering ∧ p.tRst < tRstHighMin))) ∨ g ∈ p.pf := by
  unfold Panel.admitReset
  split <;> rename_i h <;> simp [h, mem_addFault]
  split_ifs with ht <;> simp [mem_addFault, ht]

/-- R203's sleep part writes nothing but slp_pending and the fault set. -/
theorem Panel.admitSleep_eq (p : Panel) :
    p.admitSleep = { p with
      slpPending := if p.slpPending = some true then some false else p.slpPending
      pf := p.admitSleep.pf } := by
  unfold Panel.admitSleep
  split_ifs with h
  · simp [Panel.raiseIf_eq]
  · rfl

theorem Panel.mem_admitSleep {p : Panel} {g : PanelFault} :
    g ∈ p.admitSleep.pf ↔
      (g = .timing ∧ p.slpPending = some true ∧ p.tSlp.getD 0 < tSlpoutMin) ∨ g ∈ p.pf := by
  unfold Panel.admitSleep
  split_ifs with h
  · simp only [Panel.mem_raiseIf, h, decide_eq_true_eq, true_and]
    tauto
  · simp [h]

/-- R205 writes nothing but the receive mode, the latch and the fault set. -/
theorem Panel.closeRx_eq (p : Panel) : p.closeRx = { p with rx := .idle, hi := none, pf := p.closeRx.pf } := by
  unfold Panel.closeRx
  dsimp only
  split <;> simp [Panel.raise, Panel.raiseIf_eq]

theorem Panel.mem_closeRx {p : Panel} {g : PanelFault} :
    g ∈ p.closeRx.pf ↔
      (p.rx = .stream ∧ ((g = .oddByte ∧ p.hi ≠ none) ∨ (g = .underrun ∧ p.full ≠ some true))) ∨
      (g = .badArgs ∧ ∃ a bs, p.rx = .args a bs) ∨ g ∈ p.pf := by
  unfold Panel.closeRx
  dsimp only
  split <;> rename_i h <;> simp only [h, Panel.mem_raise, Panel.mem_raiseIf, decide_eq_true_eq, reduceCtorEq, true_and,
    false_and, exists_false, and_false, false_or, Rx.args.injEq, exists_eq', exists_eq_right', and_true]
  · have : (p.raiseIf (decide (p.hi ≠ none)) .oddByte).full = p.full := by rw [Panel.raiseIf_eq]
    tauto

/-- The Panel that a command of a Panel with a reset pulse behind it finds: everything but pstate, slp_pending, the receive
mode, the latch and the fault set is as before. -/
theorem Panel.admit_eq (p : Panel) :
    p.admitReset.admitSleep.closeRx = { p with
      pstate := if p.pstate = .recovering then .active else p.pstate
      slpPending := if p.slpPending = some true then some false else p.slpPending
      rx := .idle, hi := none, pf := p.admitReset.admitSleep.closeRx.pf } := by
  rw [Panel.closeRx_eq p.admitReset.admitSleep, Panel.admitSleep_eq p.admitReset, Panel.admitReset_eq p]

/-- A command admitted without a fault (R203, R205). -/
theorem Panel.command_admits {p : Panel} (h : p.Admits) (effect : Panel → Panel) :
    p.command effect = effect p.admitted := by
  obtain ⟨h1, h2, h3, h4⟩ := h
  have hpf : p.admitReset.admitSleep.closeRx.pf = p.pf := by
    have a1 : p.admitReset.pf = p.pf := by
      rcases h1 with h1 | ⟨h1, h1'⟩
      · simp [Panel.admitReset, h1]
      · simp [Panel.admitReset, h1, Panel.raiseIf, not_lt.2 h1']
    have a2 : p.admitReset.admitSleep.pf = p.pf := by
      have e1 : p.admitReset.slpPending = p.slpPending := by rw [Panel.admitReset_eq]
      have e2 : p.admitReset.tSlp = p.tSlp := by rw [Panel.admitReset_eq]
      rcases h2 with h2 | ⟨h2, h2'⟩
      · simp [Panel.admitSleep, e1, h2, a1]
      · simp [Panel.admitSleep, e1, e2, h2, Panel.raiseIf, not_lt.2 h2', a1]
    have e1 : p.admitReset.admitSleep.rx = p.rx := by rw [Panel.admitSleep_eq, Panel.admitReset_eq]
    have e2 : p.admitReset.admitSleep.hi = p.hi := by rw [Panel.admitSleep_eq, Panel.admitReset_eq]
    have e3 : p.admitReset.admitSleep.full = p.full := by rw [Panel.admitSleep_eq, Panel.admitReset_eq]
    rcases h3 with h3 | ⟨h3, h5, h6⟩
    · simp [Panel.closeRx, e1, h3, a2]
    · simp [Panel.closeRx, e1, e2, e3, h3, h5, h6, Panel.raiseIf, a2]
  have hu : p.pstate ≠ .unreset := by rcases h1 with h1 | ⟨h1, -⟩ <;> simp [h1]
  rw [Panel.command, if_neg hu, Panel.admit_eq, hpf]
  congr 1
  rcases h1 with h1 | ⟨h1, -⟩ <;> rcases h2 with h2 | ⟨h2, -⟩ <;> simp [h1, h2, Panel.admitted]

/-! ### Effects -/

/-- No command's own effect removes a fault. -/
theorem Panel.mem_effect {p : Panel} {g : PanelFault} (c : PanelCmd) (h : g ∈ p.pf) : g ∈ (Panel.effect c p).pf := by
  cases c <;>
    simp only [Panel.effect, Panel.slpout, Panel.dispon, Panel.ramwr, Panel.await, Panel.requires, Panel.mem_raiseIf, h,
      or_true]

/-- A command out of its stage is PF_ORDER (R210 to R216). -/
theorem Panel.order_effect {p : Panel} (c : PanelCmd) (h : p.initStage ≠ some (commandStage c)) :
    .order ∈ (Panel.effect c p).pf := by
  cases c <;> simp only [commandStage] at h <;>
    simp only [Panel.effect, Panel.slpout, Panel.dispon, Panel.ramwr, Panel.await, Panel.requires, Panel.mem_raiseIf, h,
      ne_eq, not_false_eq_true, decide_true, and_self, true_or, or_true]

/-- No Panel command removes a fault (R230). -/
theorem Panel.mem_command {p : Panel} {g : PanelFault} {effect : Panel → Panel}
    (heffect : ∀ q : Panel, g ∈ q.pf → g ∈ (effect q).pf) (h : g ∈ p.pf) : g ∈ (p.command effect).pf := by
  unfold Panel.command
  split_ifs
  · exact Panel.mem_raise.2 (.inr h)
  · exact heffect _ (Panel.mem_closeRx.2 (.inr (.inr (Panel.mem_admitSleep.2 (.inr (Panel.mem_admitReset.2 (.inr h)))))))

/-! ### Data and whole events -/

/-- `Advance` writes nothing but the cursor and `full`. -/
theorem Panel.advance_eq (p : Panel) :
    p.advance = { p with cx := p.advance.cx, cy := p.advance.cy, full := p.advance.full } := by
  unfold Panel.advance
  split
  · split_ifs <;> rfl
  · rfl

/-- `GramWrite` writes nothing but GRAM. -/
theorem Panel.gramWrite_eq (p : Panel) (v : Word) : p.gramWrite v = { p with gram := (p.gramWrite v).gram } := by
  unfold Panel.gramWrite
  split
  · split_ifs <;> rfl
  · rfl

theorem Panel.mem_complete {p : Panel} {g : PanelFault} (cfg : Config) (cmd : ArgCmd) (bs : List Byte) (h : g ∈ p.pf) :
    g ∈ (p.complete cfg cmd bs).pf := by
  unfold Panel.complete
  split <;>
    simp only [Panel.setColmod, Panel.setMadctl, Panel.setCols, Panel.setRows, Panel.mem_raiseIf, h, or_true]

/-- No data byte removes a fault (R230). -/
theorem Panel.mem_byte {p : Panel} {g : PanelFault} (cfg : Config) (d : Byte) (h : g ∈ p.pf) : g ∈ (p.byte cfg d).pf := by
  have h' : g ∈ p.dataCheck.pf := Panel.mem_raiseIf.2 (.inr (Panel.mem_raiseIf.2 (.inr h)))
  unfold Panel.byte
  split
  · exact Panel.mem_raise.2 (.inr h')
  · unfold Panel.argByte
    split_ifs
    · exact h'
    · exact Panel.mem_complete cfg _ _ h'
  · unfold Panel.pixelByte
    split_ifs
    · exact Panel.mem_raise.2 (.inr h')
    · split
      · exact h'
      · rw [Panel.advance_eq, Panel.gramWrite_eq]
        exact h'

theorem Panel.mem_bytes {g : PanelFault} (cfg : Config) (bs : List Byte) :
    ∀ {p : Panel}, g ∈ p.pf → g ∈ (bs.foldl (Panel.byte cfg) p).pf := by
  induction bs with
  | nil => exact id
  | cons d bs ih => exact fun h => ih (Panel.mem_byte cfg d h)

/-- No bus event removes a fault (R230). -/
theorem Panel.mem_consume {p : Panel} {g : PanelFault} (cfg : Config) (e : BusEvent) (h : g ∈ p.pf) :
    g ∈ (p.consume cfg e).pf := by
  cases e with
  | rst l =>
    cases l
    · simp only [Panel.consume, Panel.resetLow]
      split_ifs <;> exact h
    · simp only [Panel.consume, Panel.resetHigh]
      split_ifs
      · exact Panel.mem_raiseIf.2 (.inr h)
      · exact h
  | delay ms => exact h
  | cmd b =>
    simp only [Panel.consume]
    split
    · exact Panel.mem_command (fun q hq => Panel.mem_effect _ hq) h
    · exact Panel.mem_command (fun q hq => Panel.mem_raise.2 (.inr hq)) h
  | data bs => exact Panel.mem_bytes cfg bs h

theorem Panel.mem_consumeAll {g : PanelFault} (cfg : Config) (es : List BusEvent) :
    ∀ {p : Panel}, g ∈ p.pf → g ∈ (p.consumeAll cfg es).pf := by
  induction es with
  | nil => exact id
  | cons e es ih => exact fun h => ih (Panel.mem_consume cfg e h)

/-- If there is no fault at the end there was none before. -/
theorem Panel.pf_of_consumeAll {cfg : Config} {p : Panel} {es : List BusEvent} (h : (p.consumeAll cfg es).pf = []) :
    p.pf = [] := by
  by_contra hp
  obtain ⟨g, hg⟩ := List.exists_mem_of_ne_nil _ hp
  have := Panel.mem_consumeAll cfg es hg
  rw [h] at this
  simp at this

end Sys2Proof.Machine
end

