-- ==== Sys2Proof/Laws/Decode.lean ====
section
/-! SUPPORT. The decoder's parts: 16-bit fields, legal headers, the packet length of each opcode, and the text words
(spec/30_encoding.md R83 to R86). -/

namespace Sys2Proof

/-- A coordinate that fits its field is read back (R83). -/
theorem sext16_field16 {v : Int} (h : Operand16 v) : sext16 (field16 v) = v := by
  obtain ⟨h1, h2⟩ := h
  simp only [sext16, field16, BitVec.toInt_ofInt, Int.bmod]
  omega

/-- A field is the field of the coordinate it is read as. -/
@[simp] theorem field16_sext16 (w : Word) : field16 (sext16 w) = w := by
  simp [field16, sext16]

/-- A word is read as a coordinate that fits its field. -/
theorem operand16_sext16 (w : Word) : Operand16 (sext16 w) := by
  have h1 := BitVec.toInt_lt (x := w)
  have h2 := BitVec.le_toInt (x := w)
  simp only [sext16, Operand16]
  omega

/-- The opcodes of a legal header (R86). -/
theorem opc_of_legal {opc arg8 : Byte} (h : illegalHeader opc arg8 = false) :
    (opc = 0x04 ∨ opc = 0x05 ∨ (arg8 = 0x00 ∧
      (opc = 0x01 ∨ opc = 0x02 ∨ opc = 0x03 ∨ opc = 0x06 ∨ opc = 0x07 ∨ opc = 0x08 ∨ opc = 0x09))) := by
  simp only [illegalHeader, Bool.or_eq_false_iff, decide_eq_false_iff_not] at h
  obtain ⟨h1, h2⟩ := h
  have hn : opc = 1 ∨ opc = 2 ∨ opc = 3 ∨ opc = 4 ∨ opc = 5 ∨ opc = 6 ∨ opc = 7 ∨ opc = 8 ∨ opc = 9 := by
    simp only [← BitVec.toNat_inj, BitVec.ofNat_eq_ofNat, BitVec.toNat_ofNat]
    omega
  by_cases ha : arg8 = 0
  · rcases hn with rfl | rfl | rfl | rfl | rfl | rfl | rfl | rfl | rfl <;> simp [ha]
  · have : opc = 4 ∨ opc = 5 := by
      by_contra hc
      exact h2 ⟨fun e => hc (.inl e), fun e => hc (.inr e), ha⟩
    rcases this with rfl | rfl <;> simp

/-- R85, one opcode after the other. -/
theorem packetLen_illegal {opc arg8 : Byte} (h : illegalHeader opc arg8 = true) : packetLen opc arg8 = 1 := by
  simp [packetLen, h]

theorem packetLen_glyph (arg8 : Byte) : packetLen 0x04 arg8 = 5 := by
  have h : illegalHeader 0x04 arg8 = false := by simp [illegalHeader]
  simp only [packetLen, h]
  rfl

theorem packetLen_text (arg8 : Byte) : packetLen 0x05 arg8 = 5 + (arg8.toNat + 1) / 2 := by
  have h : illegalHeader 0x05 arg8 = false := by simp [illegalHeader]
  simp only [packetLen, h]
  rfl

/-- Two characters a word (R84). -/
theorem length_packText : ∀ t : List Byte, (packText t).length = (t.length + 1) / 2
  | [] => rfl
  | [_] => by simp [packText]
  | _ :: _ :: t => by
    simp only [packText, List.length_cons, length_packText t]
    omega

/-- The text words load the characters they were packed from, after those already loaded (R84). -/
theorem foldl_packText (n : Byte) {opnd : List Word} (ho : opnd.length = 4) : ∀ t pre : List Byte,
    pre.length + t.length = n.toNat → (packText t).foldl (loadWord n) (opnd, pre) = (opnd, pre ++ t)
  | [], pre, _ => by simp [packText]
  | [a], pre, h => by
    have : ¬ pre.length + 1 < n.toNat := by
      simp at h
      omega
    simp [packText, loadWord, ho, loadText, this]
  | a :: b :: t, pre, h => by
    simp only [List.length_cons] at h
    have hlt : pre.length + 1 < n.toNat := by omega
    have hrec := foldl_packText n ho t (pre ++ [a, b]) (by simp; omega)
    have h1 : loadWord n (opnd, pre) (joinBytes a b) = (opnd, pre ++ [a, b]) := by
      simp [loadWord, ho, loadText, hlt]
    rw [packText, List.foldl_cons, h1, hrec, List.append_assoc]
    rfl

/-- TEXT registers that are all loaded hold the text. -/
theorem map_charAt (t : List Byte) : (List.range t.length).map (charAt t) = t := by
  apply List.ext_getElem
  · simp
  · intro i h1 h2
    simp at h1
    simp [charAt, List.getD, h1]

end Sys2Proof
end

