-- ==== Sys2Proof/Laws/Steps.lean ====
section
/-! SUPPORT. What a step can do, said once: the Panel commands and the drawing requests as `exec` runs them, one event of
the sequencer, and the case list of `step`. -/

namespace Sys2Proof.Machine

/-- A Panel command's meaning is the Panel's own command. -/
theorem exec_command (s : State) (c : PanelCmd) :
    exec c.toInstr s = .next (s.onPanel (Panel.command (Panel.effect c))) := by
  cases c <;> rfl

/-- A drawing request's meaning is the dispatch of its expansion. -/
theorem exec_draw {s : State} {i : Instr} {E : List BusEvent} (h : drawExpansion s.cfg i = some E) :
    exec i s = .next (s.draw E) := by
  cases i <;> simp only [drawExpansion, Option.some.injEq, reduceCtorEq] at h <;> subst h <;> rfl

/-- A drawing request that emits nothing is over at once (R24). -/
theorem State.draw_nil {s : State} (hi : s.block.initDone = true) :
    s.draw [] = { s with block := { s.block with events := [], seq := 0, initRun := false, mode := .idle } } := by
  simp [State.draw, hi, State.onBlock, Block.begin]

/-- A drawing request that emits something makes the Block busy with its expansion (R33). -/
theorem State.draw_of_ne {s : State} (hi : s.block.initDone = true) {E : List BusEvent} (hE : E ≠ []) :
    s.draw E = { s with block := { s.block with events := E, seq := 0, initRun := false, mode := .exec } } := by
  simp [State.draw, hi, State.onBlock, Block.begin, hE]

/-- The Panel consumes an event in every case. -/
theorem panelStep_eq (s : State) (e : BusEvent) :
    panelStep s e = .next (s.onPanel fun p => p.consume s.cfg e) := by
  cases e with
  | rst l => cases l <;> rfl
  | delay ms => rfl
  | cmd b =>
    simp only [panelStep, panelCommand, State.onPanel, Panel.consume]
    cases decodeCommand s.cfg b with
    | none => rfl
    | some c => exact exec_command s c
  | data bs => rfl

/-- The state after the Block has emitted event e and the Panel has consumed it. -/
def State.afterEvent (s : State) (e : BusEvent) : State :=
  { s with block := (s.block.emit s.cfg e).eventDone, panel := s.panel.consume s.cfg e }

@[simp] theorem State.afterEvent_cfg (s : State) (e : BusEvent) : (s.afterEvent e).cfg = s.cfg := rfl
@[simp] theorem State.afterEvent_host (s : State) (e : BusEvent) : (s.afterEvent e).host = s.host := rfl
@[simp] theorem State.afterEvent_env (s : State) (e : BusEvent) : (s.afterEvent e).env = s.env := rfl
@[simp] theorem State.afterEvent_turns (s : State) (e : BusEvent) : (s.afterEvent e).turns = s.turns := rfl
@[simp] theorem State.afterEvent_panel (s : State) (e : BusEvent) :
    (s.afterEvent e).panel = s.panel.consume s.cfg e := rfl
@[simp] theorem State.afterEvent_block (s : State) (e : BusEvent) :
    (s.afterEvent e).block = (s.block.emit s.cfg e).eventDone := rfl

theorem blockStep_event {s : State} {e : BusEvent} (h : s.block.events[s.block.seq]? = some e) :
    blockStep s = .next (s.afterEvent e) := by
  simp only [blockStep, h, panelStep_eq, mapNext]
  rfl

/-- The dispatch of a request, INIT's or a drawing request's. -/
theorem exec_request {opc arg8 : Byte} {opnd : List Word} {text : List Byte} {i : Instr}
    (h : decodeFields opc arg8 opnd text = some i) (s : State) :
    exec i s = .next s.startInit ∨ ∃ E, drawExpansion s.cfg i = some E ∧ exec i s = .next (s.draw E) := by
  unfold decodeFields at h
  split at h <;> simp only [Option.some.injEq, reduceCtorEq] at h <;> subst h
  · exact .inl rfl
  all_goals exact .inr ⟨_, rfl, rfl⟩

/-- `dispatch()` always answers a next state: INIT's start, a drawing request's start, or ILLEGAL_REQUEST. -/
theorem State.dispatch_cases (s : State) :
    s.dispatch = .next s.startInit ∨
    (∃ i E, drawExpansion s.cfg i = some E ∧ s.dispatch = .next (s.draw E)) ∨
    s.dispatch = .next (s.onBlock (·.raiseError .illegalRequest)) := by
  unfold State.dispatch
  cases hr : s.block.request with
  | none => exact .inr (.inr rfl)
  | some i =>
    unfold Block.request at hr
    split at hr
    · rcases exec_request hr s with h | ⟨E, h1, h2⟩
      · exact .inl h
      · exact .inr (.inl ⟨i, E, h1, h2⟩)
    · exact absurd hr (by simp)

/-- Taking a word in changes the packet's registers, NEED and the mode, and nothing else of the Block. -/
structure Block.SameButPacket (a b : Block) : Prop where
  initDone : b.initDone = a.initDone
  err : b.err = a.err
  cause : b.cause = a.cause
  events : b.events = a.events
  seq : b.seq = a.seq
  initRun : b.initRun = a.initRun
  sb : b.sb = a.sb
  lines : b.lines = a.lines
  trace : b.trace = a.trace

/-- What the acceptance of one word can lead to, where b is the Block with the word in its registers: the decoder waits for
more, or the packet is dispatched, or its header is ILLEGAL. -/
inductive State.WordResult (s : State) : State → Prop
  | wait (b : Block) (same : s.block.SameButPacket b) (mode : b.mode = .rx) (need : 0 < b.need) :
    State.WordResult s { s with block := b }
  | init (b : Block) (same : s.block.SameButPacket b) (mode : b.mode = s.block.mode) :
    State.WordResult s ({ s with block := b } : State).startInit
  | draw (b : Block) (same : s.block.SameButPacket b) (mode : b.mode = s.block.mode) (i : Instr) (E : List BusEvent)
    (expansion : drawExpansion s.cfg i = some E) : State.WordResult s (({ s with block := b } : State).draw E)
  | illegal (b : Block) (same : s.block.SameButPacket b) (mode : b.mode = s.block.mode) :
    State.WordResult s { s with block := b.raiseError .illegalRequest }

theorem State.WordResult.ofDispatch {s : State} {b : Block} (same : s.block.SameButPacket b)
    (mode : b.mode = s.block.mode) :
    ∃ t, ({ s with block := b } : State).dispatch = .next t ∧ s.WordResult t := by
  rcases State.dispatch_cases { s with block := b } with h | ⟨i, E, h1, h⟩ | h
  · exact ⟨_, h, .init b same mode⟩
  · exact ⟨_, h, .draw b same mode i E h1⟩
  · exact ⟨_, h, .illegal b same mode⟩

/-- A word is accepted in mode IDLE and in mode RX. -/
theorem State.acceptWord_result {s : State} (h : s.block.mode = .idle ∨ s.block.mode = .rx) (w : Word) :
    ∃ t, s.acceptWord w = .next t ∧ s.WordResult t := by
  rcases h with h | h
  · simp only [State.acceptWord, h, State.acceptHeader]
    have same : s.block.SameButPacket (s.block.loadHeader w) := ⟨rfl, rfl, rfl, rfl, rfl, rfl, rfl, rfl, rfl⟩
    split_ifs with h1 h2
    · exact ⟨_, rfl, .illegal _ same rfl⟩
    · exact State.WordResult.ofDispatch same rfl
    · exact ⟨_, rfl, .wait _ ⟨rfl, rfl, rfl, rfl, rfl, rfl, rfl, rfl, rfl⟩ rfl (Nat.pos_of_ne_zero h2)⟩
  · have same : s.block.SameButPacket (s.block.loadOperand w) := ⟨rfl, rfl, rfl, rfl, rfl, rfl, rfl, rfl, rfl⟩
    simp only [State.acceptWord, h, State.acceptOperand]
    by_cases h1 : (s.block.loadOperand w).need = 0
    · rw [if_pos (by exact h1)]
      exact State.WordResult.ofDispatch same rfl
    · rw [if_neg (by exact h1)]
      exact ⟨_, rfl, .wait _ same h (Nat.pos_of_ne_zero h1)⟩

/-- Everything a step can lead to. -/
inductive State.StepResult (s : State) : State → Prop
  | idle (mode : s.block.mode ≠ .exec) : State.StepResult s s.popTurn
  | event (e : BusEvent) (mode : s.block.mode = .exec) (at_ : s.block.events[s.block.seq]? = some e) :
    State.StepResult s (s.popTurn.afterEvent e)
  | pastEnd (mode : s.block.mode = .exec) (at_ : s.block.events[s.block.seq]? = none) :
    State.StepResult s (s.popTurn.onBlock Block.finish)
  | blockReset (head : s.host.pending.head? = some .blockReset) : State.StepResult s s.popTurn.popHost.blockReset
  | access : State.StepResult s s.popTurn.popHost
  | read (v : Word) : State.StepResult s (s.popTurn.popHost.logRead v)
  | word (mode : s.block.mode = .idle ∨ s.block.mode = .rx) (t : State) (result : s.popTurn.popHost.WordResult t) :
    State.StepResult s t

theorem Block.busy_iff (b : Block) : b.busy = true ↔ b.mode = .exec := by simp [Block.busy]

theorem Block.reqReady_iff (b : Block) : b.reqReady = true ↔ b.mode = .idle ∨ b.mode = .rx := by
  cases h : b.mode <;> simp [Block.reqReady, Block.busy, Block.halted, h]

/-- Where the Host moves, its access has a step. -/
theorem State.mover_host {s : State} (h : s.mover = some .host) : s.hostEnabled = true := by
  unfold State.mover at h
  by_contra he
  rw [Bool.not_eq_true] at he
  simp only [he, Bool.false_and, Bool.false_eq_true, if_false] at h
  split_ifs at h
  simp at h

theorem State.mover_block {s : State} (h : s.mover = some .block) : s.block.mode = .exec := by
  unfold State.mover at h
  by_contra hb
  have h1 : ¬ s.block.busy = true := fun e => hb ((Block.busy_iff _).1 e)
  rw [if_neg h1] at h
  split_ifs at h
  simp at h

theorem State.mover_none {s : State} (h : s.mover = none) : s.block.mode ≠ .exec ∧ s.hostEnabled = false := by
  unfold State.mover at h
  split_ifs at h with h1 h2 h3
  exact ⟨fun h => h1 ((Block.busy_iff _).2 h), by simpa using h3⟩

/-- The case list of `step`. -/
theorem step_result {s t : State} (h : step s = .next t) : s.StepResult t := by
  unfold step stepOnce at h
  split at h
  · rename_i hm
    have he := State.mover_host hm
    unfold hostStep at h
    split at h
    · rename_i hp
      have hp : s.host.pending = [] := hp
      simp [State.hostEnabled, hp] at he
    · rename_i hp
      have hp : s.host.pending = _ := hp
      cases h
      exact .blockReset (by simp [hp])
    · split_ifs at h
      cases h
      exact .read _
    · rename_i off width v rest hp
      have hp : s.host.pending = _ := hp
      split_ifs at h with h1 h2
      · have hr : s.block.reqReady = true := by
          subst h2
          simpa [State.hostEnabled, HostOp.isReqWrite, hp, (show accessOk 0 width = true from h1)] using he
        obtain ⟨t', h3, h4⟩ := State.acceptWord_result (s := s.popTurn.popHost) ((Block.reqReady_iff _).1 hr) v
        rw [h3] at h
        cases h
        exact .word ((Block.reqReady_iff _).1 hr) _ h4
      · cases h
        exact .access
  · rename_i hm
    cases he : s.block.events[s.block.seq]? with
    | some e =>
      rw [blockStep_event (s := s.popTurn) he] at h
      cases h
      exact .event e (State.mover_block hm) he
    | none =>
      have : blockStep s.popTurn = .next (s.popTurn.onBlock Block.finish) := by
        simp only [blockStep, State.popTurn_block, he]
      rw [this] at h
      cases h
      exact .pastEnd (State.mover_block hm) he
  · rename_i hm
    unfold idleStep at h
    split_ifs at h
    cases h
    exact .idle (State.mover_none hm).1

/-- Between requests, with no request word left to the Host, a step takes the Host's next access off its list and changes
neither the Panel nor, but for a block reset, the Block. -/
theorem step_without_words {s t : State} (hm : s.block.mode ≠ .exec)
    (hw : ∀ op ∈ s.host.pending, op.isReqWrite = false) (h : step s = .next t) :
    t.panel = s.panel ∧ t.host.pending = s.host.pending.tail ∧
      (t.block = s.block ∨ (s.host.pending.head? = some .blockReset ∧ t.block = Block.reset)) := by
  have hb : s.block.busy = false := by simpa [Block.busy] using hm
  cases hp : s.host.pending with
  | nil =>
    simp only [step, stepOnce, State.mover, hb, State.hostEnabled, hp, idleStep] at h
    simp only [Bool.false_eq_true, if_false] at h
    split_ifs at h
    cases h
    exact ⟨rfl, by simp [hp], .inl rfl⟩
  | cons op rest =>
    have hop : op.isReqWrite = false := hw op (by simp [hp])
    have hpt : s.popTurn.host.pending = op :: rest := hp
    simp only [step, stepOnce, State.mover, hb, State.hostEnabled, hp, hop, Bool.not_false, Bool.true_or,
      Bool.false_eq_true, if_false, if_true, hostStep, hpt] at h
    cases op with
    | write offset width v =>
      simp only [HostOp.isReqWrite, Bool.and_eq_false_iff, beq_eq_false_iff_ne] at hop
      simp only at h
      split_ifs at h with h1 h2
      · exact absurd h2 (hop.resolve_left (by simp [h1]))
      · cases h
        exact ⟨rfl, by simp [State.popHost, hp], .inl rfl⟩
    | read offset width =>
      simp only at h
      split_ifs at h
      cases h
      exact ⟨rfl, by simp [State.popHost, State.logRead, hp], .inl rfl⟩
    | blockReset =>
      simp only at h
      cases h
      exact ⟨rfl, by simp [State.popHost, State.blockReset, hp], .inr ⟨rfl, rfl⟩⟩

/-- With no turn given to the Host, a busy Block's step is its next event. -/
theorem step_event {s : State} {e : BusEvent} (hm : s.mover = some .block)
    (he : s.block.events[s.block.seq]? = some e) : step s = .next (s.popTurn.afterEvent e) := by
  simp only [step, stepOnce, hm]
  exact blockStep_event he

theorem State.mover_busy {s : State} (hm : s.block.mode = .exec) (ht : s.turns = []) : s.mover = some .block := by
  simp [State.mover, Block.busy, hm, ht]

/-- The Block after an event that is not the last, and after the last one. -/
theorem Block.eventDone_mid {b : Block} (h : b.seq + 1 < b.events.length) :
    b.eventDone = { b with seq := b.seq + 1 } := by
  simp [Block.eventDone, h]

theorem Block.eventDone_last {b : Block} (h : ¬ b.seq + 1 < b.events.length) :
    b.eventDone = ({ b with seq := b.seq + 1 } : Block).finish := by
  simp [Block.eventDone, h]

end Sys2Proof.Machine
end

