-- ==== Sys2Proof/Laws/Frames.lean ====
section
/-! SUPPORT. Packed streams, and a framed window whose stream comes in any number of data events
(spec/40_bus_transport.md R107, R108, spec/44_cursor_engine.md R207, R225). -/

namespace Sys2Proof.Machine

@[simp] theorem length_pack (c : Word) : (pack c).length = 2 := rfl

theorem length_packList (cs : List Word) : (packList cs).length = 2 * cs.length := by
  induction cs with
  | nil => rfl
  | cons c cs ih =>
    simp only [packList, List.flatMap_cons, List.length_append, length_pack, List.length_cons] at ih ⊢
    omega

theorem packList_append (cs ds : List Word) : packList (cs ++ ds) = packList cs ++ packList ds := by
  simp [packList, List.flatMap_append]

/-- A run of one color is a packed list of that color. -/
theorem packRun_eq (c : Word) (n : Nat) : packRun c n = packList (List.replicate n c) := by
  induction n with
  | zero => rfl
  | succ n ih =>
    simp only [packRun, List.replicate_succ, List.flatten_cons, packList, List.flatMap_cons] at ih ⊢
    rw [ih]

theorem length_packRun (c : Word) (n : Nat) : (packRun c n).length = 2 * n := by
  rw [packRun_eq, length_packList, List.length_replicate]

/-- Every byte list of even length is a packed list of colors. -/
theorem exists_packList : ∀ (n : Nat) (bs : List Byte), bs.length = 2 * n → ∃ cs, packList cs = bs ∧ cs.length = n := by
  intro n
  induction n with
  | zero =>
    intro bs h
    exact ⟨[], by simp_all [packList], rfl⟩
  | succ n ih =>
    intro bs h
    obtain ⟨a, b, bs, rfl⟩ : ∃ a b bs', bs = a :: b :: bs' := by
      match bs, h with
      | a :: b :: bs', _ => exact ⟨a, b, bs', rfl⟩
      | [_], h => simp at h; omega
    obtain ⟨cs, rfl, rfl⟩ := ih bs (by simp at h; omega)
    exact ⟨joinBytes a b :: cs, by simp [packList, pack], rfl⟩

/-- Data events are their bytes, one after the other. -/
theorem Panel.consumeAll_data (cfg : Config) (bss : List (List Byte)) (p : Panel) :
    p.consumeAll cfg (bss.map BusEvent.data) = bss.flatten.foldl (Panel.byte cfg) p := by
  induction bss generalizing p with
  | nil => rfl
  | cons bs bss ih =>
    simp only [List.map_cons, Panel.consumeAll_cons, List.flatten_cons, List.foldl_append]
    exact ih _

/-- A framed window with its pixels, at a ready Panel: the whole effect. -/
theorem Panel.frame_fill {cfg : Config} (hl : cfg.Legal) {p : Panel} (h : p.Ready) {x0 y0 x1 y1 : Int}
    (hx0 : 0 ≤ x0) (hx : x0 ≤ x1) (hx1 : x1 < dispW) (hy0 : 0 ≤ y0) (hy : y0 ≤ y1) (hy1 : y1 < dispH)
    {bss : List (List Byte)} {cs : List Word} (hb : bss.flatten = packList cs)
    (hlen : (cs.length : Int) = (x1 - x0 + 1) * (y1 - y0 + 1)) :
    ∃ g, p.consumeAll cfg (setWindow cfg x0 y0 x1 y1 ++ bss.map BusEvent.data) =
        { p with
          rx := .stream, hi := none, full := some true
          xs := some (field16 x0), xe := some (field16 x1), ys := some (field16 y0), ye := some (field16 y1)
          cx := some (field16 x0), cy := some (field16 y1), gram := g } ∧
      ∀ a b, ({ p with gram := g } : Panel).cell a b =
        if InWindow x0 y0 x1 y1 a b then cs[streamPlace x0 y0 x1 a b]? else p.cell a b := by
  rw [Panel.consumeAll_append, Panel.consumeAll_data, hb]
  exact Panel.window_fill hl h hx0 hx hx1 hy0 hy hy1 hlen

theorem Panel.cell_congr {p q : Panel} (h : p.gram = q.gram) (a b : Nat) : p.cell a b = q.cell a b := by
  simp only [Panel.cell, h]

/-- The same, as far as readiness and GRAM go. -/
theorem Panel.frame_cells {cfg : Config} (hl : cfg.Legal) {p : Panel} (h : p.Ready) {x0 y0 x1 y1 : Int}
    (hx0 : 0 ≤ x0) (hx : x0 ≤ x1) (hx1 : x1 < dispW) (hy0 : 0 ≤ y0) (hy : y0 ≤ y1) (hy1 : y1 < dispH)
    {bss : List (List Byte)} {cs : List Word} (hb : bss.flatten = packList cs)
    (hlen : (cs.length : Int) = (x1 - x0 + 1) * (y1 - y0 + 1)) :
    (p.consumeAll cfg (setWindow cfg x0 y0 x1 y1 ++ bss.map BusEvent.data)).Ready ∧
    (p.consumeAll cfg (setWindow cfg x0 y0 x1 y1 ++ bss.map BusEvent.data)).full = some true ∧
    ∀ a b, (p.consumeAll cfg (setWindow cfg x0 y0 x1 y1 ++ bss.map BusEvent.data)).cell a b =
      if InWindow x0 y0 x1 y1 a b then cs[streamPlace x0 y0 x1 a b]? else p.cell a b := by
  obtain ⟨g, he, hg⟩ := Panel.frame_fill hl h hx0 hx hx1 hy0 hy hy1 hb hlen
  rw [he]
  exact ⟨⟨h.1, h.2.1, h.2.2.1, h.2.2.2.1, .inr ⟨rfl, rfl, rfl⟩⟩, rfl, fun a b => hg a b⟩

/-- A place in the window's stream is below the window's area. -/
theorem streamPlace_lt {x0 y0 x1 y1 : Int} {a b n : Nat} (h : InWindow x0 y0 x1 y1 a b)
    (hn : (n : Int) = (x1 - x0 + 1) * (y1 - y0 + 1)) : streamPlace x0 y0 x1 a b < n := by
  obtain ⟨h1, h2, h3, h4⟩ := h
  have hb : (b - y0) * (x1 - x0 + 1) ≤ (y1 - y0) * (x1 - x0 + 1) := by
    apply mul_le_mul_of_nonneg_right <;> omega
  have h0 : 0 ≤ (b - y0) * (x1 - x0 + 1) := mul_nonneg (by omega) (by omega)
  have e : (x1 - x0 + 1) * (y1 - y0 + 1) = (y1 - y0) * (x1 - x0 + 1) + (x1 - x0 + 1) := by ring
  simp only [streamPlace]
  rw [← Int.ofNat_lt, Int.toNat_of_nonneg (by omega), hn, e]
  omega

/-- A window filled with one color, at a ready Panel. -/
theorem Panel.frame_run {cfg : Config} (hl : cfg.Legal) {p : Panel} (h : p.Ready) {x0 y0 x1 y1 : Int}
    (hx0 : 0 ≤ x0) (hx : x0 ≤ x1) (hx1 : x1 < dispW) (hy0 : 0 ≤ y0) (hy : y0 ≤ y1) (hy1 : y1 < dispH)
    {bss : List (List Byte)} {c : Word} {n : Nat} (hb : bss.flatten = packRun c n)
    (hlen : (n : Int) = (x1 - x0 + 1) * (y1 - y0 + 1)) :
    (p.consumeAll cfg (setWindow cfg x0 y0 x1 y1 ++ bss.map BusEvent.data)).Ready ∧
    ∀ a b, (p.consumeAll cfg (setWindow cfg x0 y0 x1 y1 ++ bss.map BusEvent.data)).cell a b =
      if InWindow x0 y0 x1 y1 a b then some c else p.cell a b := by
  obtain ⟨h1, -, h2⟩ := Panel.frame_cells hl h hx0 hx hx1 hy0 hy hy1 (hb.trans (packRun_eq c n))
    (by rw [List.length_replicate]; exact hlen)
  refine ⟨h1, fun a b => (h2 a b).trans ?_⟩
  split_ifs with hw
  · rw [List.getElem?_replicate, if_pos (streamPlace_lt hw hlen)]
  · rfl

/-- Bytes of the right number keep the Panel ready, whatever they are. -/
theorem Panel.frame_ready {cfg : Config} (hl : cfg.Legal) {p : Panel} (h : p.Ready) {x0 y0 x1 y1 : Int}
    (hx0 : 0 ≤ x0) (hx : x0 ≤ x1) (hx1 : x1 < dispW) (hy0 : 0 ≤ y0) (hy : y0 ≤ y1) (hy1 : y1 < dispH)
    {bss : List (List Byte)} (hlen : (bss.flatten.length : Int) = 2 * ((x1 - x0 + 1) * (y1 - y0 + 1))) :
    (p.consumeAll cfg (setWindow cfg x0 y0 x1 y1 ++ bss.map BusEvent.data)).Ready := by
  obtain ⟨n, hn⟩ : ∃ n : Nat, (n : Int) = (x1 - x0 + 1) * (y1 - y0 + 1) :=
    ⟨((x1 - x0 + 1) * (y1 - y0 + 1)).toNat, Int.toNat_of_nonneg (mul_nonneg (by omega) (by omega))⟩
  obtain ⟨cs, hcs, hl2⟩ := exists_packList n bss.flatten (by omega)
  exact (Panel.frame_cells hl h hx0 hx hx1 hy0 hy hy1 hcs.symm (by rw [hl2]; exact hn)).1

end Sys2Proof.Machine
end

