-- ==== Sys2Proof/Laws/PerInstr.lean ====
section
/-! SUPPORT. Statements for all instructions, made one instruction at a time. -/

namespace Sys2Proof.Laws.CodeSize

/-- The size of a code: a packet has a legal header and as many words as its header asks for (R85, R86); a Panel command
is one of the seven bytes of the parameters (R91). -/
def Sized (cfg : Config) : Code → Prop
  | .packet [] => False
  | .packet (h :: ws) => illegalHeader (hi8 h) (lo8 h) = false ∧ ws.length + 1 = packetLen (hi8 h) (lo8 h)
  | .command b => b ∈ cfg.opcodes

/-- The code of a well-formed instruction has its size. -/
def Statement (i : Instr) : Prop := i.WellFormed → ∀ cfg : Config, Sized cfg (encode cfg i)

theorem init : Statement .init := fun _ _ => ⟨rfl, rfl⟩

theorem clear (color : Word) : Statement (.clear color) := fun _ _ => ⟨rfl, rfl⟩

theorem drawPixel (x y : Int) (color : Word) : Statement (.drawPixel x y color) := fun _ _ => ⟨rfl, rfl⟩

theorem drawGlyph (code : Byte) (x y : Int) (fg bg : Word) : Statement (.drawGlyph code x y fg bg) := fun _ _ => by
  simp only [encode, Sized, header, hi8_joinBytes, lo8_joinBytes, packetLen_glyph]
  simp [illegalHeader]

theorem drawText (text : List Byte) (x y : Int) (fg bg : Word) : Statement (.drawText text x y fg bg) := fun h _ => by
  have hn : text.length < 256 := by
    simp only [Instr.WellFormed, Instr.check, decide_eq_true_eq, TextLen] at h
    omega
  simp only [encode, Sized, header, List.cons_append, hi8_joinBytes, lo8_joinBytes, packetLen_text]
  refine ⟨by simp [illegalHeader], ?_⟩
  simp [length_packText, Nat.mod_eq_of_lt hn]
  omega

theorem drawSmallBlock (x y : Int) (color : Word) : Statement (.drawSmallBlock x y color) := fun _ _ => ⟨rfl, rfl⟩

theorem drawHline (xs xe y : Int) (color : Word) : Statement (.drawHline xs xe y color) := fun _ _ => ⟨rfl, rfl⟩

theorem drawVline (ys ye x : Int) (color : Word) : Statement (.drawVline ys ye x color) := fun _ _ => ⟨rfl, rfl⟩

theorem drawSquareOutline (cx cy size : Int) (color : Word) : Statement (.drawSquareOutline cx cy size color) :=
  fun _ _ => ⟨rfl, rfl⟩

theorem slpout : Statement .slpout := fun _ _ => by simp [encode, Sized, Config.opcodes]

theorem colmod : Statement .colmod := fun _ _ => by simp [encode, Sized, Config.opcodes]

theorem madctl : Statement .madctl := fun _ _ => by simp [encode, Sized, Config.opcodes]

theorem dispon : Statement .dispon := fun _ _ => by simp [encode, Sized, Config.opcodes]

theorem caset : Statement .caset := fun _ _ => by simp [encode, Sized, Config.opcodes]

theorem raset : Statement .raset := fun _ _ => by simp [encode, Sized, Config.opcodes]

theorem ramwr : Statement .ramwr := fun _ _ => by simp [encode, Sized, Config.opcodes]

end Sys2Proof.Laws.CodeSize
end

