-- ==== Sys2Proof/Laws/Runs.lean ====
section
/-! SUPPORT. Running an expansion to its end: one step for each event, in order, and nothing else
(spec/10_state.md R33, spec/20_memory.md R72). -/

namespace Sys2Proof.Machine

/-- The state after a list of events has been emitted and consumed. -/
def State.afterEvents (s : State) (es : List BusEvent) : State := es.foldl State.afterEvent s

@[simp] theorem State.afterEvents_nil (s : State) : s.afterEvents [] = s := rfl

@[simp] theorem State.afterEvents_cons (s : State) (e : BusEvent) (es : List BusEvent) :
    s.afterEvents (e :: es) = (s.afterEvent e).afterEvents es := rfl

theorem State.afterEvents_induct {P : State → Prop} (hstep : ∀ s e, P s → P (s.afterEvent e)) (s : State)
    (es : List BusEvent) (h : P s) : P (s.afterEvents es) := by
  induction es generalizing s with
  | nil => exact h
  | cons e es ih => exact ih _ (hstep s e h)

@[simp] theorem State.afterEvents_cfg (s : State) (es : List BusEvent) : (s.afterEvents es).cfg = s.cfg :=
  State.afterEvents_induct (P := fun t => t.cfg = s.cfg) (fun _ _ h => h) s es rfl

@[simp] theorem State.afterEvents_host (s : State) (es : List BusEvent) : (s.afterEvents es).host = s.host :=
  State.afterEvents_induct (P := fun t => t.host = s.host) (fun _ _ h => h) s es rfl

@[simp] theorem State.afterEvents_env (s : State) (es : List BusEvent) : (s.afterEvents es).env = s.env :=
  State.afterEvents_induct (P := fun t => t.env = s.env) (fun _ _ h => h) s es rfl

@[simp] theorem State.afterEvents_turns (s : State) (es : List BusEvent) : (s.afterEvents es).turns = s.turns :=
  State.afterEvents_induct (P := fun t => t.turns = s.turns) (fun _ _ h => h) s es rfl

@[simp] theorem Block.eventDone_trace (b : Block) : b.eventDone.trace = b.trace := by
  unfold Block.eventDone
  dsimp only
  split_ifs <;> rfl

@[simp] theorem Block.eventDone_events (b : Block) : b.eventDone.events = b.events := by
  unfold Block.eventDone
  dsimp only
  split_ifs <;> rfl

@[simp] theorem Block.eventDone_seq (b : Block) : b.eventDone.seq = b.seq + 1 := by
  unfold Block.eventDone
  dsimp only
  split_ifs <;> rfl

@[simp] theorem Block.eventDone_lines (b : Block) : b.eventDone.lines = b.lines := by
  unfold Block.eventDone
  dsimp only
  split_ifs <;> rfl

@[simp] theorem Block.eventDone_err (b : Block) : b.eventDone.err = b.err := by
  unfold Block.eventDone
  dsimp only
  split_ifs <;> rfl

@[simp] theorem Block.eventDone_cause (b : Block) : b.eventDone.cause = b.cause := by
  unfold Block.eventDone
  dsimp only
  split_ifs <;> rfl

theorem State.afterEvents_panel (s : State) (es : List BusEvent) :
    (s.afterEvents es).panel = s.panel.consumeAll s.cfg es := by
  induction es generalizing s with
  | nil => rfl
  | cons e es ih => exact (ih _).trans rfl

theorem State.afterEvents_trace (s : State) (es : List BusEvent) :
    (s.afterEvents es).block.trace = s.block.trace ++ es := by
  induction es generalizing s with
  | nil => simp
  | cons e es ih => simp [ih]

theorem State.afterEvents_lines (s : State) (es : List BusEvent) :
    (s.afterEvents es).block.lines = es.foldl (fun l e => l.transfer s.cfg.dcCommand e) s.block.lines := by
  induction es generalizing s with
  | nil => rfl
  | cons e es ih => simp [ih]

theorem State.afterEvents_err (s : State) (es : List BusEvent) :
    (s.afterEvents es).block.err = s.block.err ∧ (s.afterEvents es).block.cause = s.block.cause ∧
    (s.afterEvents es).block.events = s.block.events ∧ (s.afterEvents es).block.seq = s.block.seq + es.length := by
  induction es generalizing s with
  | nil => simp
  | cons e es ih =>
    have := ih (s.afterEvent e)
    simp only [State.afterEvents_cons, List.length_cons]
    rw [this.1, this.2.1, this.2.2.1, this.2.2.2]
    simp only [State.afterEvent_block, Block.eventDone_err, Block.eventDone_cause, Block.eventDone_events,
      Block.eventDone_seq, Block.emit_err, Block.emit_cause, Block.emit_events, Block.emit_seq]
    exact ⟨trivial, trivial, trivial, by omega⟩

/-- The end of an expansion: the request is over. -/
theorem State.afterEvents_end {es : List BusEvent} : ∀ {s : State}, s.block.mode = .exec →
    s.block.events.drop s.block.seq = es → es ≠ [] →
    (s.afterEvents es).block.mode = .idle ∧ (s.afterEvents es).block.sb = none ∧
    (s.afterEvents es).block.initRun = false ∧
    (s.afterEvents es).block.initDone = (s.block.initDone || s.block.initRun) := by
  induction es with
  | nil => intro s _ _ h; exact absurd rfl h
  | cons e es ih =>
    intro s hm hd _
    have hlen := congrArg List.length hd
    simp only [List.length_drop, List.length_cons] at hlen
    by_cases hes : es = []
    · subst hes
      have hlast : ¬ (s.block.emit s.cfg e).seq + 1 < (s.block.emit s.cfg e).events.length := by
        simp at hlen ⊢
        omega
      simp only [State.afterEvents_cons, State.afterEvents_nil, State.afterEvent_block, Block.eventDone_last hlast]
      exact ⟨rfl, rfl, rfl, rfl⟩
    · have hpos : 0 < es.length := List.length_pos_of_ne_nil hes
      have hmid : (s.block.emit s.cfg e).seq + 1 < (s.block.emit s.cfg e).events.length := by
        simp
        omega
      have := ih (s := s.afterEvent e)
        (by rw [State.afterEvent_block, Block.eventDone_mid hmid]; exact hm)
        (by
          rw [State.afterEvent_block, Block.eventDone_events, Block.eventDone_seq, Block.emit_events, Block.emit_seq,
            ← List.drop_drop, hd]
          rfl)
        hes
      rw [State.afterEvent_block, Block.eventDone_mid hmid] at this
      exact this

/-- Running a busy Block, with no turn given to the Host, emits the rest of its expansion. -/
theorem runBusy_events {es : List BusEvent} : ∀ {s : State}, (s.block.mode = .exec ∨ es = []) → s.turns = [] →
    s.block.events.drop s.block.seq = es → runBusy es.length s = some (s.afterEvents es) := by
  induction es with
  | nil => intro s _ _ _; rfl
  | cons e es ih =>
    intro s hm ht hd
    have hm : s.block.mode = .exec := by simpa using hm
    have he : s.block.events[s.block.seq]? = some e := by
      have := congrArg List.head? hd
      simpa using this
    have hstep := step_event (State.mover_busy hm ht) he
    have hpop : s.popTurn = s := by
      cases s
      simp_all [State.popTurn]
    rw [hpop] at hstep
    simp only [List.length_cons, runBusy, (Block.busy_iff _).2 hm, if_true, hstep]
    refine (ih (s := s.afterEvent e) ?_ ht ?_).trans rfl
    · by_cases hes : es = []
      · exact .inr hes
      · left
        have hlen := congrArg List.length hd
        have hpos : 0 < es.length := List.length_pos_of_ne_nil hes
        simp only [List.length_drop, List.length_cons] at hlen
        rw [State.afterEvent_block, Block.eventDone_mid (by simp; omega)]
        exact hm
    · rw [State.afterEvent_block, Block.eventDone_events, Block.eventDone_seq, Block.emit_events, Block.emit_seq,
        ← List.drop_drop, hd]
      rfl

/-- The same by `runSteps`. -/
theorem runSteps_events {es : List BusEvent} : ∀ {s : State}, (s.block.mode = .exec ∨ es = []) → s.turns = [] →
    s.block.events.drop s.block.seq = es → runSteps es.length s = some (s.afterEvents es) := by
  induction es with
  | nil => intro s _ _ _; rfl
  | cons e es ih =>
    intro s hm ht hd
    have hm : s.block.mode = .exec := by simpa using hm
    have he : s.block.events[s.block.seq]? = some e := by
      have := congrArg List.head? hd
      simpa using this
    have hstep := step_event (State.mover_busy hm ht) he
    have hpop : s.popTurn = s := by
      cases s
      simp_all [State.popTurn]
    rw [hpop] at hstep
    simp only [List.length_cons, runSteps, hstep]
    refine (ih (s := s.afterEvent e) ?_ ht ?_).trans rfl
    · by_cases hes : es = []
      · exact .inr hes
      · left
        have hlen := congrArg List.length hd
        have hpos : 0 < es.length := List.length_pos_of_ne_nil hes
        simp only [List.length_drop, List.length_cons] at hlen
        rw [State.afterEvent_block, Block.eventDone_mid (by simp; omega)]
        exact hm
    · rw [State.afterEvent_block, Block.eventDone_events, Block.eventDone_seq, Block.emit_events, Block.emit_seq,
        ← List.drop_drop, hd]
      rfl

/-- A drawing request run to its end, where INIT is done and no turn is given to the Host: its expansion's events, and the
Block idle. -/
theorem runRequest_draw {s : State} {i : Instr} {E : List BusEvent} (hE : drawExpansion s.cfg i = some E)
    (hi : s.block.initDone = true) (ht : s.turns = []) :
    ∃ t, runRequest i s = some t ∧ t.block.mode = .idle ∧ t.panel = s.panel.consumeAll s.cfg E ∧
      t.block.trace = s.block.trace ++ E ∧ t.block.initDone = true := by
  have hd : s.draw E = s.onBlock (·.begin false E) := by simp [State.draw, hi]
  have hrun : runRequest i s = runBusy E.length (s.draw E) := by
    simp only [runRequest, exec_draw hE, hd]
    rfl
  have hev := runBusy_events (es := E) (s := s.draw E)
    (by
      rw [hd]
      by_cases h : E = []
      · exact .inr h
      · left
        simp [h])
    (by rw [hd]; exact ht) (by rw [hd]; rfl)
  refine ⟨_, hrun.trans hev, ?_, ?_, ?_, ?_⟩
  · by_cases h : E = []
    · subst h
      simp [hd]
    · exact (State.afterEvents_end (s := s.draw E) (by rw [hd]; simp [h]) (by rw [hd]; rfl) h).1
  · rw [State.afterEvents_panel, hd]
    rfl
  · rw [State.afterEvents_trace, hd]
    rfl
  · by_cases h : E = []
    · subst h
      simp [hd, hi]
    · rw [(State.afterEvents_end (s := s.draw E) (by rw [hd]; simp [h]) (by rw [hd]; rfl) h).2.2.2, hd]
      simp [hi]

end Sys2Proof.Machine
end

