-- ==== Sys2Proof/Laws/Requests.lean ====
section
/-! SUPPORT. What the event lists of the requests do to a ready Panel, and what the power-on sequence does to any Panel
without a fault. -/

namespace Sys2Proof.Machine

variable {cfg : Config} (hl : cfg.Legal) {p : Panel} (h : p.Ready)

theorem packRun_one (c : Word) : packRun c 1 = pack c := List.append_nil _

theorem packRun_add (c : Word) (m n : Nat) : packRun c (m + n) = packRun c m ++ packRun c n := by
  rw [packRun, List.replicate_add, List.flatten_append]
  rfl

/-- Lines of one color joined. -/
theorem flatten_packRun (c : Word) (n : Nat) :
    ∀ m, (List.replicate m (packRun c n)).flatten = packRun c (m * n)
  | 0 => by simp [packRun]
  | m + 1 => by
    rw [List.replicate_succ, List.flatten_cons, flatten_packRun c n m, ← packRun_add, Nat.succ_mul, Nat.add_comm]

include hl h

/-- One frame whose stream is one data event of one color. -/
theorem Panel.run_cells {x0 y0 x1 y1 : Int} (hx0 : 0 ≤ x0) (hx : x0 ≤ x1) (hx1 : x1 < dispW) (hy0 : 0 ≤ y0)
    (hy : y0 ≤ y1) (hy1 : y1 < dispH) {c : Word} {n : Nat} (hlen : (n : Int) = (x1 - x0 + 1) * (y1 - y0 + 1)) :
    (p.consumeAll cfg (setWindow cfg x0 y0 x1 y1 ++ [.data (packRun c n)])).Ready ∧
    ∀ a b, (p.consumeAll cfg (setWindow cfg x0 y0 x1 y1 ++ [.data (packRun c n)])).cell a b =
      if InWindow x0 y0 x1 y1 a b then some c else p.cell a b :=
  Panel.frame_run hl h hx0 hx hx1 hy0 hy hy1 (bss := [packRun c n]) (by simp) hlen

theorem Panel.clear_cells (c : Word) :
    (p.consumeAll cfg (clearEvents cfg c)).Ready ∧
    ∀ a b, (p.consumeAll cfg (clearEvents cfg c)).cell a b =
      if InWindow 0 0 159 127 a b then some c else p.cell a b := by
  have := Panel.frame_run hl h (x0 := 0) (y0 := 0) (x1 := 159) (y1 := 127) (by decide) (by decide) (by decide)
    (by decide) (by decide) (by decide) (bss := List.replicate dispH (packRun c dispW)) (c := c) (n := 20480)
    (flatten_packRun c dispW dispH) (by decide)
  simpa [clearEvents, List.map_replicate] using this

theorem Panel.pixel_cells (x y : Int) (c : Word) :
    (p.consumeAll cfg (pixelEvents cfg x y c)).Ready ∧
    ∀ a b : Nat, (p.consumeAll cfg (pixelEvents cfg x y c)).cell a b =
      if (inX x ∧ inY y) ∧ (a : Int) = x ∧ (b : Int) = y then some c else p.cell a b := by
  unfold pixelEvents
  split_ifs with hin
  · have := Panel.run_cells hl h (x0 := x) (y0 := y) (x1 := x) (y1 := y) hin.1.1 (le_refl _) (by omega) hin.2.1
      (le_refl _) (by omega) (c := c) (n := 1) (by simp)
    rw [packRun_one] at this
    refine ⟨this.1, fun a b => (this.2 a b).trans (if_congr ?_ rfl rfl)⟩
    simp only [InWindow]
    omega
  · exact ⟨h, fun a b => (if_neg fun hc => hin hc.1).symm⟩

theorem Panel.block_cells (x y : Int) (c : Word) :
    (p.consumeAll cfg (blockEvents cfg x y c)).Ready ∧
    ∀ a b : Nat, (p.consumeAll cfg (blockEvents cfg x y c)).cell a b =
      if (0 ≤ x ∧ x ≤ 158 ∧ 0 ≤ y ∧ y ≤ 126) ∧ InWindow x y (x + 1) (y + 1) a b then some c else p.cell a b := by
  have hW : ((dispW : Nat) : Int) = 160 := rfl
  have hH : ((dispH : Nat) : Int) = 128 := rfl
  unfold blockEvents
  split_ifs with hin
  · have := Panel.run_cells hl h (x0 := x) (y0 := y) (x1 := x + 1) (y1 := y + 1) (by omega) (by omega) (by omega) (by omega)
      (by omega) (by omega) (c := c) (n := 4) (by ring_nf)
    refine ⟨this.1, fun a b => (this.2 a b).trans (if_congr ?_ rfl rfl)⟩
    simp only [InWindow]
    omega
  · exact ⟨h, fun a b => (if_neg fun hc => hin (by omega)).symm⟩

theorem Panel.hline_cells (xs xe y : Int) (c : Word) :
    (p.consumeAll cfg (hlineEvents cfg xs xe y c)).Ready ∧
    ∀ a b : Nat, a < dispW → b < dispH → (p.consumeAll cfg (hlineEvents cfg xs xe y c)).cell a b =
      if xs ≤ a ∧ (a : Int) ≤ xe ∧ (b : Int) = y then some c else p.cell a b := by
  unfold hlineEvents clampStart clampEnd
  dsimp only
  split_ifs with hin
  · have := Panel.run_cells hl h (x0 := max xs 0) (y0 := y) (x1 := min xe (dispW - 1)) (y1 := y) (by omega) (by omega)
      (by omega) (by omega) (by omega) (by omega) (c := c) (n := (min xe (dispW - 1) - max xs 0 + 1).toNat)
      (by
        rw [Int.toNat_of_nonneg (by omega)]
        ring)
    refine ⟨this.1, fun a b ha hb => (this.2 a b).trans (if_congr ?_ rfl rfl)⟩
    simp only [InWindow]
    omega
  · refine ⟨h, fun a b ha hb => (if_neg fun hc => hin ?_).symm⟩
    simp only [inY]
    omega

theorem Panel.vline_cells (ys ye x : Int) (c : Word) :
    (p.consumeAll cfg (vlineEvents cfg ys ye x c)).Ready ∧
    ∀ a b : Nat, a < dispW → b < dispH → (p.consumeAll cfg (vlineEvents cfg ys ye x c)).cell a b =
      if ys ≤ b ∧ (b : Int) ≤ ye ∧ (a : Int) = x then some c else p.cell a b := by
  unfold vlineEvents clampStart clampEnd
  dsimp only
  split_ifs with hin
  · have := Panel.run_cells hl h (x0 := x) (y0 := max ys 0) (x1 := x) (y1 := min ye (dispH - 1)) (by omega) (by omega)
      (by omega) (by omega) (by omega) (by omega) (c := c) (n := (min ye (dispH - 1) - max ys 0 + 1).toNat)
      (by
        rw [Int.toNat_of_nonneg (by omega)]
        ring)
    refine ⟨this.1, fun a b ha hb => (this.2 a b).trans (if_congr ?_ rfl rfl)⟩
    simp only [InWindow]
    omega
  · refine ⟨h, fun a b ha hb => (if_neg fun hc => hin ?_).symm⟩
    simp only [inX]
    omega

omit hl h in
theorem length_rowPixels (fg bg : Word) (row : Byte) : (rowPixels fg bg row).length = 8 := rfl

omit hl h in
theorem getElem?_rowPixels (fg bg : Word) (row : Byte) {k : Nat} (hk : k < 8) :
    (rowPixels fg bg row)[k]? = some (if row.getLsbD (7 - k) then fg else bg) := by
  rcases k with _ | _ | _ | _ | _ | _ | _ | _ | k <;> first | rfl | omega

omit hl h in
theorem getElem?_flatMap_rows (fg bg : Word) : ∀ (rows : List Byte) (r k : Nat), r < rows.length → k < 8 →
    (rows.flatMap (rowPixels fg bg))[8 * r + k]? = some (if (rows.getD r 0).getLsbD (7 - k) then fg else bg)
  | [], r, k, hr, _ => absurd hr (by simp)
  | row :: rows, 0, k, _, hk => by
    rw [List.flatMap_cons, List.getElem?_append_left (by rw [length_rowPixels]; omega), Nat.mul_zero, Nat.zero_add,
      getElem?_rowPixels fg bg row hk]
    rfl
  | row :: rows, r + 1, k, hr, hk => by
    rw [List.flatMap_cons, List.getElem?_append_right (by rw [length_rowPixels]; omega), length_rowPixels,
      show 8 * (r + 1) + k - 8 = 8 * r + k by omega,
      getElem?_flatMap_rows fg bg rows r k (by simpa using hr) hk]
    rfl

omit hl h in
/-- Pixel 8r + k of a glyph (R143). -/
theorem getElem?_glyphPixels (code : Byte) (fg bg : Word) {r k : Nat} (hr : r < 8) (hk : k < 8) :
    (glyphPixels code fg bg)[8 * r + k]? = some (glyphColor code fg bg r k) :=
  getElem?_flatMap_rows fg bg _ r k (by simpa using hr) hk

omit hl h in
theorem length_flatMap_rows (fg bg : Word) (rows : List Byte) :
    (rows.flatMap (rowPixels fg bg)).length = 8 * rows.length := by
  induction rows with
  | nil => rfl
  | cons r rows ih =>
    simp only [List.flatMap_cons, List.length_append, length_rowPixels, List.length_cons, ih]
    omega

omit hl h in
theorem length_glyphPixels (code : Byte) (fg bg : Word) : (glyphPixels code fg bg).length = 64 := by
  rw [glyphPixels, length_flatMap_rows]
  simp

omit hl h in
theorem length_raster (code : Byte) (fg bg : Word) : (raster code fg bg).length = 128 := by
  rw [raster, length_packList, length_glyphPixels]

theorem Panel.glyph_cells (code : Byte) (x y : Int) (fg bg : Word) :
    (p.consumeAll cfg (glyphEvents cfg code x y fg bg)).Ready ∧
    ∀ a b : Nat, (p.consumeAll cfg (glyphEvents cfg code x y fg bg)).cell a b =
      if (0 ≤ x ∧ x ≤ 152 ∧ 0 ≤ y ∧ y ≤ 120) ∧ InWindow x y (x + 7) (y + 7) a b then
        some (glyphColor code fg bg (b - y).toNat (a - x).toNat) else p.cell a b := by
  have hW : ((dispW : Nat) : Int) = 160 := rfl
  have hH : ((dispH : Nat) : Int) = 128 := rfl
  unfold glyphEvents
  split_ifs with hin
  · have := Panel.frame_cells hl h (x0 := x) (y0 := y) (x1 := x + 7) (y1 := y + 7) (by omega) (by omega) (by omega)
      (by omega) (by omega) (by omega) (bss := [raster code fg bg]) (cs := glyphPixels code fg bg) (by simp [raster])
      (by
        rw [length_glyphPixels]
        ring_nf)
    refine ⟨this.1, fun a b => (this.2.2 a b).trans ?_⟩
    by_cases hw : InWindow x y (x + 7) (y + 7) a b
    · have hfit : 0 ≤ x ∧ x ≤ 152 ∧ 0 ≤ y ∧ y ≤ 120 := by
        obtain ⟨h1, h2, h3, h4⟩ := hin
        omega
      rw [if_pos hw, if_pos ⟨hfit, hw⟩]
      obtain ⟨h1, h2, h3, h4⟩ := hw
      have e : streamPlace x y (x + 7) a b = 8 * (b - y).toNat + (a - x).toNat := by
        simp only [streamPlace]
        rw [show x + 7 - x + 1 = 8 by ring]
        omega
      rw [e, getElem?_glyphPixels code fg bg (by omega) (by omega)]
    · rw [if_neg hw, if_neg fun hc => hw hc.2]
  · refine ⟨h, fun a b => (if_neg fun hc => hin ?_).symm⟩
    obtain ⟨⟨h1, h2, h3, h4⟩, -⟩ := hc
    omega

omit hl h in
/-- Consuming two lists one after the other. -/
theorem Panel.then_cells {es fs : List BusEvent} (q : Panel) (hq : q = p.consumeAll cfg es) :
    p.consumeAll cfg (es ++ fs) = q.consumeAll cfg fs := by
  rw [Panel.consumeAll_append, hq]

omit h in
theorem Panel.text_ready (y : Int) (fg bg : Word) (text : List Byte) :
    ∀ (q : Panel), q.Ready → ∀ cx, (q.consumeAll cfg (textEvents cfg y fg bg cx text)).Ready := by
  induction text with
  | nil => intro q hq cx; exact hq
  | cons c text ih =>
    intro q hq cx
    simp only [textEvents]
    split_ifs
    · exact hq
    · rw [Panel.consumeAll_append]
      exact ih _ (Panel.glyph_cells hl hq c cx y fg bg).1 _

theorem Panel.square_cells (cx cy size : Int) (c : Word) :
    (p.consumeAll cfg (squareEvents cfg cx cy size c)).Ready ∧
    ∀ a b : Nat, a < dispW → b < dispH → (p.consumeAll cfg (squareEvents cfg cx cy size c)).cell a b =
      if (inX cx ∧ inY cy ∧ 2 ≤ size + 4) ∧
          InWindow (cx - (size + 4) / 2) (cy - (size + 4) / 2) (cx - (size + 4) / 2 + (size + 4) - 1)
            (cy - (size + 4) / 2 + (size + 4) - 1) a b ∧
          ((a : Int) = cx - (size + 4) / 2 ∨ (a : Int) = cx - (size + 4) / 2 + (size + 4) - 1 ∨
            (b : Int) = cy - (size + 4) / 2 ∨ (b : Int) = cy - (size + 4) / 2 + (size + 4) - 1) then some c
      else p.cell a b := by
  unfold squareEvents
  dsimp only
  generalize cx - (size + 4) / 2 = x0
  generalize cy - (size + 4) / 2 = y0
  split_ifs with hin
  · have h1 := Panel.hline_cells hl h x0 (x0 + (size + 4) - 1 - 1) y0 c
    have h2 := Panel.vline_cells hl h1.1 y0 (y0 + (size + 4) - 1 - 1) (x0 + (size + 4) - 1) c
    have h3 := Panel.hline_cells hl h2.1 (x0 + 1) (x0 + (size + 4) - 1) (y0 + (size + 4) - 1) c
    have h4 := Panel.vline_cells hl h3.1 (y0 + 1) (y0 + (size + 4) - 1) x0 c
    simp only [Panel.consumeAll_append]
    refine ⟨h4.1, fun a b ha hb => ?_⟩
    rw [h4.2 a b ha hb, h3.2 a b ha hb, h2.2 a b ha hb, h1.2 a b ha hb]
    by_cases hc : (inX cx ∧ inY cy ∧ 2 ≤ size + 4) ∧
        InWindow x0 y0 (x0 + (size + 4) - 1) (y0 + (size + 4) - 1) a b ∧
        ((a : Int) = x0 ∨ (a : Int) = x0 + (size + 4) - 1 ∨ (b : Int) = y0 ∨ (b : Int) = y0 + (size + 4) - 1)
    · rw [if_pos hc]
      split_ifs <;> first | rfl | omega
    · rw [if_neg hc]
      rw [if_neg, if_neg, if_neg, if_neg]
      all_goals
        rintro ⟨e1, e2, e3⟩
        exact hc ⟨⟨hin.1, hin.2, by omega⟩, ⟨by omega, by omega, by omega, by omega⟩, by omega⟩
  · exact ⟨h, fun a b ha hb => (if_neg fun hc => hin ⟨hc.1.1, hc.1.2.1⟩).symm⟩

/-- Every drawing request's expansion keeps a ready Panel ready. -/
theorem Panel.draw_ready {i : Instr} {E : List BusEvent} (hE : drawExpansion cfg i = some E) :
    (p.consumeAll cfg E).Ready := by
  cases i <;> simp only [drawExpansion, Option.some.injEq, reduceCtorEq] at hE <;> subst hE
  case clear c => exact (Panel.clear_cells hl h c).1
  case drawPixel x y c => exact (Panel.pixel_cells hl h x y c).1
  case drawGlyph code x y fg bg => exact (Panel.glyph_cells hl h code x y fg bg).1
  case drawText text x y fg bg => exact Panel.text_ready hl y fg bg text p h x
  case drawSmallBlock x y c => exact (Panel.block_cells hl h x y c).1
  case drawHline xs xe y c => exact (Panel.hline_cells hl h xs xe y c).1
  case drawVline ys ye x c => exact (Panel.vline_cells hl h ys ye x c).1
  case drawSquareOutline cx cy size c => exact (Panel.square_cells hl h cx cy size c).1

/-! ### The power-on sequence -/

omit hl h in
/-- What the falling reset line leaves, from any Panel that keeps R201's values while it is held in reset. -/
theorem Panel.resetLow_facts (hr : p.ResetHeld) :
    p.resetLow.pstate = .inReset ∧ p.resetLow.initStage = some 0 ∧ p.resetLow.slpPending = some false ∧
    p.resetLow.rx = .idle ∧ p.resetLow.hi = none ∧ p.resetLow.pf = p.pf := by
  unfold Panel.resetLow
  split_ifs with hp
  · obtain ⟨h1, h2, h3, h4⟩ := hr hp
    exact ⟨hp, h1, h2, h3, h4, rfl⟩
  · exact ⟨rfl, rfl, rfl, rfl, rfl, rfl⟩

omit h in
/-- R120 at the Panel: every check of R202, R203 and R210 to R213 passes, from any such Panel. -/
theorem Panel.powerOn_eq (hr : p.ResetHeld) :
    p.consumeAll cfg (powerOn cfg) =
      { p.resetLow with
        pstate := .active, tRst := cfg.tRstHigh, initStage := some 4, slpPending := some false
        tSlp := some cfg.tSlpout, sleep := some false, displayOn := some true
        colmod := some cfg.pixfmt16, madctl := some cfg.madctlValue, rx := .idle, hi := none } := by
  obtain ⟨h1, h2, h3, h4, h5, -⟩ := Panel.resetLow_facts hr
  have l1 : ¬ p.resetLow.tRst + cfg.tRstLow < 50 := by
    have := hl.2.1
    simp only [tRstLowMin] at this
    omega
  have l2 : ¬ cfg.tRstHigh < 50 := not_lt.2 hl.2.2.1
  have l3 : ¬ cfg.tSlpout < 120 := not_lt.2 hl.2.2.2
  simp only [powerOn, resetEvents, List.cons_append, List.nil_append, Panel.consumeAll_cons, Panel.consumeAll_nil,
    Panel.consume, decodeCommand_slpout, decodeCommand_colmod hl, decodeCommand_madctl hl, decodeCommand_dispon hl,
    List.foldl_cons, List.foldl_nil]
  simp [Panel.delay, Panel.resetHigh, Panel.command, Panel.admitReset, Panel.admitSleep, Panel.closeRx, Panel.effect,
    Panel.slpout, Panel.dispon, Panel.await, Panel.requires, Panel.raiseIf, Panel.byte, Panel.dataCheck, Panel.argByte,
    ArgCmd.need, Panel.complete, Panel.setColmod, Panel.setMadctl, h1, h2, h3, h4, h5, l1, l2, l3]

end Sys2Proof.Machine
end

