-- ==== Sys2Proof/Tests/Slice0.lean ====
section
/-! SUPPORT. Tests of single instructions and events, with results from spec/95_test_vectors.md (a test's comment names its
vector) or from the rule it names, and a witness for the hypotheses of each statement of
Sys2Proof/Certificates/Slice0/Obligations.lean. -/

namespace Sys2Proof.Tests

open Sys2Proof.Machine

/-! ### Well-formedness: each check refuses a term -/

theorem test_wf_pixel : Instr.check (.drawPixel 32768 0 0) = false ∧ Instr.check (.drawPixel 0 (-32769) 0) = false := by
  decide
theorem test_wf_glyph :
    Instr.check (.drawGlyph 0x48 (-32769) 0 0 0) = false ∧ Instr.check (.drawGlyph 0x48 0 32768 0 0) = false := by decide
theorem test_wf_text_operands :
    Instr.check (.drawText [] 32768 0 0 0) = false ∧ Instr.check (.drawText [] 0 (-32769) 0 0) = false := by decide
theorem test_wf_text_length :
    Instr.check (.drawText (List.replicate 256 0x30) 0 0 0 0) = false ∧
    Instr.check (.drawText (List.replicate 255 0x30) 0 0 0 0) = true := by
  simp only [Instr.check, TextLen, List.length_replicate]; decide
theorem test_wf_block :
    Instr.check (.drawSmallBlock 32768 0 0) = false ∧ Instr.check (.drawSmallBlock 0 32768 0) = false := by decide
theorem test_wf_hline : Instr.check (.drawHline 32768 0 0 0) = false ∧ Instr.check (.drawHline 0 (-32769) 0 0) = false ∧
    Instr.check (.drawHline 0 0 32768 0) = false := by decide
theorem test_wf_vline : Instr.check (.drawVline (-32769) 0 0 0) = false ∧ Instr.check (.drawVline 0 32768 0 0) = false ∧
    Instr.check (.drawVline 0 0 32768 0) = false := by decide
theorem test_wf_square : Instr.check (.drawSquareOutline 32768 0 0 0) = false ∧
    Instr.check (.drawSquareOutline 0 32768 0 0) = false ∧ Instr.check (.drawSquareOutline 0 0 (-32769) 0) = false := by
  decide

/-! ### Decoding: words written out from R82, R84, R88 and R91 -/

/-- The defaults of R7 with one value of MADCTL_VALUE, so that a test can compute with it. -/
def cfg : Config := { Config.standard with madctlValue := 0x48 }

theorem test_decode_init : decode cfg (.packet [0x0100]) = .ok .init := rfl
theorem test_decode_clear : decode cfg (.packet [0x0200, 0x1234]) = .ok (.clear 0x1234) := rfl
/-- V23 -/
theorem test_decode_pixel : decode cfg (.packet [0x0300, 0x0005, 0x0005, 0xF800]) = .ok (.drawPixel 5 5 0xF800) := rfl
/-- V46 -/
theorem test_decode_pixel_signed :
    decode cfg (.packet [0x0300, 0x8000, 0x7FFF, 0x0001]) = .ok (.drawPixel (-32768) 32767 0x0001) := rfl
/-- V50 -/
theorem test_decode_glyph : decode cfg (.packet [0x0448, 0x0098, 0x0078, 0xFFFF, 0x001F]) =
    .ok (.drawGlyph 0x48 152 120 0xFFFF 0x001F) := rfl
/-- V61 -/
theorem test_decode_text : decode cfg (.packet [0x0505, 0x008C, 0x0000, 0xFFFF, 0x0000, 0x3132, 0x3A33, 0x3400]) =
    .ok (.drawText [0x31, 0x32, 0x3A, 0x33, 0x34] 140 0 0xFFFF 0x0000) := rfl
/-- V66: the padding byte is ignored. -/
theorem test_decode_text_padding : decode cfg (.packet [0x0501, 0x0000, 0x0000, 0xFFFF, 0x0000, 0x37FF]) =
    .ok (.drawText [0x37] 0 0 0xFFFF 0x0000) := rfl
/-- V60 -/
theorem test_decode_text_empty : decode cfg (.packet [0x0500, 0x0000, 0x0000, 0xFFFF, 0x0000]) =
    .ok (.drawText [] 0 0 0xFFFF 0x0000) := rfl
theorem test_decode_block : decode cfg (.packet [0x0600, 0x000A, 0x0014, 0x07E0]) = .ok (.drawSmallBlock 10 20 0x07E0) := rfl
/-- V80 -/
theorem test_decode_hline : decode cfg (.packet [0x0700, 0xFFFB, 0x00C8, 0x000A, 0x07E0]) =
    .ok (.drawHline (-5) 200 10 0x07E0) := rfl
theorem test_decode_vline : decode cfg (.packet [0x0800, 0x0064, 0x0032, 0x0005, 0x001F]) =
    .ok (.drawVline 100 50 5 0x001F) := rfl
/-- P2 -/
theorem test_decode_square : decode cfg (.packet [0x0900, 0x0050, 0x0040, 0x000A, 0x001F]) =
    .ok (.drawSquareOutline 80 64 10 0x001F) := rfl
theorem test_decode_slpout : decode cfg (.command 0x11) = .ok .slpout := rfl
theorem test_decode_colmod : decode cfg (.command 0x3A) = .ok .colmod := rfl
theorem test_decode_madctl : decode cfg (.command 0x36) = .ok .madctl := rfl
theorem test_decode_dispon : decode cfg (.command 0x29) = .ok .dispon := rfl
theorem test_decode_caset : decode cfg (.command 0x2A) = .ok .caset := rfl
theorem test_decode_raset : decode cfg (.command 0x2B) = .ok .raset := rfl
theorem test_decode_ramwr : decode cfg (.command 0x2C) = .ok .ramwr := rfl
/-- V25, V26, V27 and a bad ARG8 on CLEAR: each header is refused by name. -/
theorem test_decode_illegal : decode cfg (.packet [0x0A00]) = .error (.illegalRequest 0x0A00) ∧
    decode cfg (.packet [0x0000]) = .error (.illegalRequest 0x0000) ∧
    decode cfg (.packet [0x0301]) = .error (.illegalRequest 0x0301) ∧
    decode cfg (.packet [0x02FF, 0x0000]) = .error (.illegalRequest 0x02FF) := ⟨rfl, rfl, rfl, rfl⟩
/-- A byte outside the command set (R92), a short packet and a long one. -/
theorem test_decode_refused : decode cfg (.command 0x00) = .error (.unknownCommand 0x00) ∧
    decode cfg (.packet [0x0300, 0x0005]) = .error (.truncated 2) ∧
    decode cfg (.packet [0x0100, 0x0000]) = .error .trailingWords := ⟨rfl, rfl, rfl⟩
theorem test_table_words : decodeTableWord 16 0x0448 = some (.drawGlyph 0x48 0 0 0 0) ∧
    decodeTableWord 8 0x2C = some .ramwr ∧ decodeTableWord 16 0x0502 = some (.drawText [0, 0] 0 0 0 0) := ⟨rfl, rfl, rfl⟩

/-! ### Small states -/

/-- A Panel as the power-on sequence leaves it: "INITd" of spec/95_test_vectors.md section 2.11. -/
def inited : Panel := { Panel.powerUp with
  pstate := .active, tRst := 50, initStage := some 4, slpPending := some false, tSlp := some 120, sleep := some false
  displayOn := some true, colmod := some 0x05, madctl := some 0x48 }

/-- After reset, with the parameters above. -/
def fresh : State := { State.reset with cfg := cfg }

/-- After INIT: STATUS 0x0001, the Panel ready. -/
def drawing : State := { fresh with block := { Block.reset with initDone := true }, panel := inited }

/-- The state after one step that runs the instruction of this machine form. -/
def after (s : State) (c : Code) : Option State := nextState (step (s.withCode c))

/-- STATUS after that step. -/
def statusAfter (s : State) (c : Code) : Option Word := (after s c).map (·.block.status)

/-- The expansion that step has started. -/
def eventsAfter (s : State) (c : Code) : Option (List BusEvent) := (after s c).map (·.block.events)

/-- The window bounds framed by a list of events, four bytes a pair. -/
def bounds (es : List BusEvent) : List (List Byte) :=
  es.filterMap fun e => match e with
    | .data [a, b, c, d] => some [a, b, c, d]
    | _ => none

/-! ### One step of each request -/

/-- V21 -/
theorem test_init_claim_refused :
    statusAfter { fresh with env := ⟨[false], 0⟩ } (.packet [0x0100]) = some 0x0108 := by decide
/-- V22 -/
theorem test_init_again : statusAfter drawing (.packet [0x0100]) = some 0x0209 := by decide
/-- V110 -/
theorem test_clear : (eventsAfter drawing (.packet [0x0200, 0x0000])).map
    (fun es => (es.length, es.take 5, es[132]?)) = some (133, [.cmd 0x2A, .data [0x00, 0x00, 0x00, 0x9F], .cmd 0x2B,
      .data [0x00, 0x00, 0x00, 0x7F], .cmd 0x2C], some (.data (List.replicate 320 0x00))) := by decide +kernel
/-- V24 -/
theorem test_clear_before_init : statusAfter fresh (.packet [0x0200, 0x1234]) = some 0x0310 := by decide
/-- V41 -/
theorem test_pixel : eventsAfter drawing (.packet [0x0300, 0x009F, 0x007F, 0xF800]) =
    some [.cmd 0x2A, .data [0x00, 0x9F, 0x00, 0x9F], .cmd 0x2B, .data [0x00, 0x7F, 0x00, 0x7F], .cmd 0x2C,
      .data [0xF8, 0x00]] := by decide
/-- V42 -/
theorem test_pixel_no_op : statusAfter drawing (.packet [0x0300, 0xFFFF, 0x0000, 0x1234]) = some 0x0001 ∧
    eventsAfter drawing (.packet [0x0300, 0xFFFF, 0x0000, 0x1234]) = some [] := by decide
/-- E6 -/
theorem test_glyph_row : (raster 0x48 0xFFFF 0x0000).take 16 = [0xFF, 0xFF, 0x00, 0x00, 0x00, 0x00, 0x00, 0x00, 0x00,
    0x00, 0x00, 0x00, 0xFF, 0xFF, 0x00, 0x00] := by decide
/-- V51 -/
theorem test_glyph_no_op : eventsAfter drawing (.packet [0x0448, 0x0099, 0x0000, 0xFFFF, 0x0000]) = some [] := by decide
/-- V61 -/
theorem test_text : (eventsAfter drawing
    (.packet [0x0505, 0x008C, 0x0000, 0xFFFF, 0x0000, 0x3132, 0x3A33, 0x3400])).map (fun es => (es.length, bounds es)) =
    some (12, [[0x00, 0x8C, 0x00, 0x93], [0x00, 0x00, 0x00, 0x07], [0x00, 0x95, 0x00, 0x9C], [0x00, 0x00, 0x00, 0x07]]) := by
  decide
/-- V62 -/
theorem test_text_negative_start : (eventsAfter drawing
    (.packet [0x0503, 0xFFF7, 0x0000, 0xFFFF, 0x0000, 0x3132, 0x3300])).map bounds =
    some [[0x00, 0x00, 0x00, 0x07], [0x00, 0x00, 0x00, 0x07], [0x00, 0x09, 0x00, 0x10], [0x00, 0x00, 0x00, 0x07]] := by
  decide
/-- V70 -/
theorem test_block : eventsAfter drawing (.packet [0x0600, 0x009E, 0x007E, 0x07E0]) =
    some [.cmd 0x2A, .data [0x00, 0x9E, 0x00, 0x9F], .cmd 0x2B, .data [0x00, 0x7E, 0x00, 0x7F], .cmd 0x2C,
      .data [0x07, 0xE0, 0x07, 0xE0, 0x07, 0xE0, 0x07, 0xE0]] := by decide
/-- V71 -/
theorem test_block_no_op : eventsAfter drawing (.packet [0x0600, 0x009F, 0x0000, 0x07E0]) = some [] := by decide
/-- V80 -/
theorem test_hline : (eventsAfter drawing (.packet [0x0700, 0xFFFB, 0x00C8, 0x000A, 0x1234])).map
    (fun es => (bounds es, es[5]?)) = some ([[0x00, 0x00, 0x00, 0x9F], [0x00, 0x0A, 0x00, 0x0A]],
      some (.data (List.replicate 160 [0x12, 0x34]).flatten)) := rfl
/-- V81 -/
theorem test_hline_reversed : eventsAfter drawing (.packet [0x0700, 0x000A, 0x0005, 0x0003, 0x1234]) = some [] := by decide
/-- V89 -/
theorem test_vline : eventsAfter drawing (.packet [0x0800, 0x007F, 0x007F, 0x0000, 0x1234]) =
    some [.cmd 0x2A, .data [0x00, 0x00, 0x00, 0x00], .cmd 0x2B, .data [0x00, 0x7F, 0x00, 0x7F], .cmd 0x2C,
      .data [0x12, 0x34]] := by decide
/-- V88 -/
theorem test_vline_no_op : eventsAfter drawing (.packet [0x0800, 0x0000, 0x007F, 0x00A0, 0x1234]) = some [] := by decide
/-- V105 -/
theorem test_square_clipped : (eventsAfter drawing (.packet [0x0900, 0x0000, 0x0000, 0x000A, 0x1234])).map
    (fun es => (es.length, bounds es)) = some (12, [[0x00, 0x06, 0x00, 0x06], [0x00, 0x00, 0x00, 0x05],
      [0x00, 0x00, 0x00, 0x06], [0x00, 0x06, 0x00, 0x06]]) := by decide
/-- V109: an odd side. -/
theorem test_square_odd : (eventsAfter drawing (.packet [0x0900, 0x0050, 0x0040, 0x0001, 0x1234])).map bounds =
    some [[0x00, 0x4E, 0x00, 0x51], [0x00, 0x3E, 0x00, 0x3E], [0x00, 0x52, 0x00, 0x52], [0x00, 0x3E, 0x00, 0x41],
      [0x00, 0x4F, 0x00, 0x52], [0x00, 0x42, 0x00, 0x42], [0x00, 0x4E, 0x00, 0x4E], [0x00, 0x3F, 0x00, 0x42]] := by decide

/-! ### The decoder and STATUS -/

/-- V25 -/
theorem test_illegal_header : statusAfter drawing (.packet [0x0A00]) = some 0x0411 := by decide
/-- V28 -/
theorem test_illegal_before_init : statusAfter fresh (.packet [0x0A00]) = some 0x0410 := by decide
/-- V29: a request after an error still runs. -/
theorem test_error_is_sticky :
    statusAfter { drawing with block := drawing.block.raiseError .illegalRequest } (.packet [0x0300, 0x0005, 0x0005, 0xF800])
      = some 0x0413 := by decide
/-- V30 -/
theorem test_halted_is_stuck : step { fresh with
    block := fresh.block.raiseFatal .busClaimFail, host := ⟨[.write 0 16 0x0100], []⟩ } = .fault .stuckHalted := rfl
/-- R285: a header whose operand words never arrive, and an ended run. -/
theorem test_end_of_run : step { drawing with block := { drawing.block with mode := .rx, need := 3 } }
    = .fault .stuckAwaitingWords ∧ step drawing = .next drawing := ⟨rfl, rfl⟩
/-- V31 -/
theorem test_header_alone : (nextState (step { drawing with host := ⟨[.write 0 16 0x0300], []⟩ })).map
    (fun t => (t.block.status, t.block.need)) = some (0x0005, 3) := by decide

/-! ### One event at the Panel -/

/-- The Panel's state in the middle of a hold: reset, released, and recovering for ms milliseconds. -/
def released (ms : Nat) : Panel := { Panel.powerUp.resetLow with pstate := .recovering, tRst := ms }

/-- A Panel that wants the command of stage k next. -/
def atStage (k : Fin 5) : Panel := { inited with initStage := some k }

/-- A Panel whose window is (x0, y0, x1, y1), the cursor at its start. -/
def framed (x0 y0 x1 y1 : Word) : Panel := { inited with
  xs := some x0, xe := some x1, ys := some y0, ye := some y1, cx := some x0, cy := some y0, full := some false, rx := .stream }

/-- V120 -/
theorem test_not_reset : (Panel.powerUp.consume cfg (.cmd 0x2A)).pf = [.notReset] := by decide
/-- V121 -/
theorem test_low_hold :
    ({ Panel.powerUp.resetLow with tRst := 49 }.consume cfg (.rst true)).pf = [.timing] := by decide
/-- V122, V124 -/
theorem test_slpout : .timing ∈ ((released 49).consume cfg (.cmd 0x11)).pf ∧
    ((released 50).consume cfg (.cmd 0x11)).pf = [] ∧ ((released 50).consume cfg (.cmd 0x11)).sleep = some false ∧
    ((released 50).consume cfg (.cmd 0x11)).initStage = some 1 := by decide
/-- V123 -/
theorem test_colmod_too_early :
    .timing ∈ ({ atStage 1 with slpPending := some true, tSlp := some 119 }.consume cfg (.cmd 0x3A)).pf := by decide
/-- V126 -/
theorem test_colmod_byte : .pixfmt ∈ ({ atStage 1 with rx := .args .colmod [] }.consume cfg (.data [0x06])).pf := by decide
theorem test_madctl : ((atStage 2).consume cfg (.cmd 0x36)).rx = .args .madctl [] ∧
    ({ atStage 2 with rx := .args .madctl [], madctl := none }.consume cfg (.data [0xA5])).madctl = some 0xA5 := by decide
/-- V125 -/
theorem test_dispon_too_early : .order ∈ ((released 50).consume cfg (.cmd 0x29)).pf := by decide
theorem test_dispon : ({ atStage 3 with displayOn := some false }.consume cfg (.cmd 0x29)).displayOn = some true ∧
    ((atStage 3).consume cfg (.cmd 0x29)).initStage = some 4 := by decide
/-- V127, V128 -/
theorem test_caset_bad_window :
    .badWindow ∈ ({ inited with rx := .args .caset [] }.consume cfg (.data [0x00, 0x05, 0x00, 0x04])).pf ∧
    .badWindow ∈ ({ inited with rx := .args .caset [] }.consume cfg (.data [0x00, 0x00, 0x00, 0xA0])).pf := by decide
/-- V129 -/
theorem test_raset_on_open_arguments :
    .badArgs ∈ ({ inited with rx := .args .caset [0x00, 0x00] }.consume cfg (.cmd 0x2B)).pf := by decide
/-- R215: H bounds the rows. -/
theorem test_raset_bounds :
    .badWindow ∈ ({ inited with rx := .args .raset [] }.consume cfg (.data [0x00, 0x00, 0x00, 0x80])).pf ∧
    ({ inited with rx := .args .raset [] }.consume cfg (.data [0x00, 0x00, 0x00, 0x7F])).ye = some 0x007F := by decide
/-- V130 -/
theorem test_ramwr_without_window : .badWindow ∈ (inited.consume cfg (.cmd 0x2C)).pf := by decide
/-- V131 -/
theorem test_underrun : ((framed 0 0 1 0).consume cfg (.data [0xAA, 0xBB, 0xCC])).cell 0 0 = some 0xAABB ∧
    .oddByte ∈ (((framed 0 0 1 0).consume cfg (.data [0xAA, 0xBB, 0xCC])).consume cfg (.cmd 0x2A)).pf ∧
    .underrun ∈ (((framed 0 0 1 0).consume cfg (.data [0xAA, 0xBB, 0xCC])).consume cfg (.cmd 0x2A)).pf := by decide
/-- V132 -/
theorem test_overrun : ((framed 0 0 1 0).consume cfg (.data [0xAA, 0xBB, 0xCC, 0xDD])).pf = [] ∧
    ((framed 0 0 1 0).consume cfg (.data [0xAA, 0xBB, 0xCC, 0xDD, 0xEE])).pf = [.overrun] := by decide
/-- V133, V134 -/
theorem test_stray_and_unknown : (inited.consume cfg (.data [0x00])).pf = [.strayData] ∧
    (inited.consume cfg (.cmd 0x00)).pf = [.unknownCmd] := by decide
/-- V135: the Panel after a window of four pixels. -/
def filled : Panel := (framed 2 3 3 4).consume cfg (.data [0x00, 0x01, 0x00, 0x02, 0x00, 0x03, 0x00, 0x04])
/-- V135 -/
theorem test_fill : filled.cell 2 3 = some 1 ∧ filled.cell 3 3 = some 2 ∧ filled.cell 2 4 = some 3 ∧
    filled.cell 3 4 = some 4 ∧ filled.full = some true ∧ filled.cx = some 2 ∧ filled.cy = some 4 ∧ filled.pf = [] := by
  decide
/-- V138 -/
theorem test_reset_clears : (filled.consume cfg (.rst false)).cell 2 3 = none ∧
    (filled.consume cfg (.rst false)).pstate = .inReset ∧ (filled.consume cfg (.rst false)).pf = [] := by decide

/-! ### Streams -/

/-- V54, V55: an unsupported code is the blank glyph. -/
theorem test_blank_glyph : glyphRom 0xC1 = none ∧ glyphRows 0xC1 = blankGlyph ∧
    raster 0x7E 0xFFFF 0x001F = (List.replicate 64 [0x00, 0x1F]).flatten := by decide
/-- V7, V8 -/
theorem test_packer : packRun 0xABCD 3 = [0xAB, 0xCD, 0xAB, 0xCD, 0xAB, 0xCD] ∧
    packList [0x0001, 0x8000] = [0x00, 0x01, 0x80, 0x00] := by decide

/-! ### Witnesses: a concrete case that meets the hypotheses of each statement, clause by clause -/

/-- The state with these accesses left to the Host. -/
def hostHas (s : State) (ops : List HostOp) : State := { s with host := ⟨ops, []⟩ }

/-- The state whose sequencer is at event k of E. -/
def running (s : State) (E : List BusEvent) (k : Nat) : State :=
  { s with block := { s.block with events := E, seq := k, mode := .exec } }

/-- The state with this Panel. -/
def withPanel (s : State) (p : Panel) : State := { s with panel := p }

theorem witness_DecodeEncodeRoundTrip : cfg.Legal ∧ Instr.WellFormed (.drawPixel (-32768) 32767 0xFFFF) ∧
    Instr.WellFormed (.drawText [0x48, 0x31, 0x7E] (-9) 127 0 1) ∧ Instr.WellFormed .ramwr := by decide

theorem witness_EncodeRecoversThePacket :
    decode cfg (.packet [0x0300, 0x8000, 0x7FFF, 0x0001]) = .ok (.drawPixel (-32768) 32767 0x0001) ∧
    decode cfg (.packet [0x0502, 0x0000, 0x0000, 0x0000, 0x0000, 0x4831]) = .ok (.drawText [0x48, 0x31] 0 0 0 0) ∧
    [(0x48 : Byte), 0x31].length % 2 = 0 := ⟨rfl, rfl, rfl⟩

/-- OPC 0x00 and 0x0A and a bad ARG8 fall under the first clause, OPC 0x01, 0x09 and 0x04 under the second. -/
theorem witness_IllegalHeadersExactly :
    ((0x00 : Byte).toNat < 1) ∧ (9 < (0x0A : Byte).toNat) ∧ ((0x03 : Byte) ≠ 0x04 ∧ (0x03 : Byte) ≠ 0x05 ∧ (0x01 : Byte) ≠ 0) ∧
    (¬ ((0x01 : Byte).toNat < 1 ∨ 9 < (0x01 : Byte).toNat) ∧ ([] : List Word).length + 1 = packetLen 0x01 0x00) ∧
    (¬ ((0x09 : Byte).toNat < 1 ∨ 9 < (0x09 : Byte).toNat) ∧ [(1 : Word), 2, 3, 4].length + 1 = packetLen 0x09 0x00) ∧
    [(1 : Word), 2, 3, 4].length + 1 = packetLen 0x04 0xFF := by decide

theorem witness_TextWordsHoldTheCharacters : ([] : List Word).length = ((0 : Byte).toNat + 1) / 2 ∧
    [(0x37FF : Word)].length = ((1 : Byte).toNat + 1) / 2 ∧ [(0x3132 : Word), 0x3300].length = ((3 : Byte).toNat + 1) / 2 := by
  decide

theorem witness_CommandBytesByEquality : cfg.Legal := by decide

/-- The last operand word of CLEAR, and the header of INIT. -/
theorem witness_StepRunsTheDecodedRequest :
    (let s := hostHas { drawing with block := { drawing.block with
        mode := .rx, need := 1, opc := some 0x02, arg8 := some 0x00 } } [.write 0 16 0x1234]
     s.block.mode = .rx ∧ s.block.need = 1 ∧ s.host.pending = [.write 0 16 0x1234] ∧ s.block.opc = some 0x02 ∧
      s.block.arg8 = some 0x00 ∧ decodeFields 0x02 0x00 (loadWord 0x00 (s.block.opnd, s.block.text) 0x1234).1
        (loadWord 0x00 (s.block.opnd, s.block.text) 0x1234).2 = some (.clear 0x1234)) ∧
    (hostHas fresh [.write 0 16 0x0100]).block.mode = .idle := ⟨⟨rfl, rfl, rfl, rfl, rfl, rfl⟩, rfl⟩

theorem witness_StepRunsTheDecodedCommand : (running drawing [.cmd 0x2A] 0).mover = some .block ∧
    (running drawing [.cmd 0x2A] 0).block.events[0]? = some (.cmd 0x2A) ∧ decodeCommand cfg 0x2A = some .caset := by decide

theorem witness_PacketWordsRunTheRequest : decodePacket [0x0200, 0x1234] = .ok (.clear 0x1234, []) ∧
    (hostHas drawing [.write 0 16 0x0200, .write 0 16 0x1234]).block.mode = .idle ∧
    (hostHas drawing [.write 0 16 0x0200, .write 0 16 0x1234]).host.pending =
      ([(0x0200 : Word), 0x1234].map (HostOp.write 0 16)) ++ [] := ⟨rfl, rfl, rfl⟩

theorem witness_StepEmitsOneEvent : (running drawing (powerOn cfg) 0).mover = some .block ∧
    (running drawing (powerOn cfg) 0).block.events[0]? = some (.rst false) ∧
    (running drawing (powerOn cfg) 10).mover = some .block ∧
    (running drawing (powerOn cfg) 10).block.events[10]? = some (.cmd 0x29) := by decide

/-- All four kinds of event, on configured lines. -/
theorem witness_EventsDriveTheLines :
    let s := { drawing with block := { drawing.block with lines := Lines.configure 15000000 } }
    s.block.lines.cfg = true ∧ (running s (powerOn cfg) 0).mover = some .block ∧
    (powerOn cfg)[0]? = some (.rst false) ∧ (powerOn cfg)[1]? = some (.delay 50) ∧ (powerOn cfg)[4]? = some (.cmd 0x11) ∧
    (powerOn cfg)[7]? = some (.data [0x05]) := by decide

theorem witness_ExpansionIsEmittedWhole : (running drawing (powerOn cfg) 3).block.mode = .exec ∧
    (running drawing (powerOn cfg) 3).block.seq < (running drawing (powerOn cfg) 3).block.events.length ∧
    (running drawing (powerOn cfg) 3).turns = [] := by decide

theorem witness_OnlyABusyBlockEmits :
    (hostHas drawing [.read 2 16]).block.mode ≠ .exec ∧ (∃ t, step (hostHas drawing [.read 2 16]) = .next t) ∧
    (hostHas drawing [.blockReset]).block.mode ≠ .exec ∧ (∃ t, step (hostHas drawing [.blockReset]) = .next t) :=
  ⟨by decide, ⟨_, rfl⟩, by decide, ⟨_, rfl⟩⟩

/-- Reads at offsets 0, 2, 4, 6 and 8, a write at 2, and a refused access of each kind. -/
theorem witness_HostRegisterAccesses :
    (∀ o ∈ [0, 2, 4, 6, 8], (hostHas drawing [.read o 16]).mover = some .host ∧ o % 2 = 0) ∧
    (hostHas drawing [.write 2 16 0xFFFF]).mover = some .host ∧
    (hostHas drawing [.read 2 8]).mover = some .host ∧ (hostHas drawing [.write 1 16 0]).mover = some .host := by decide

theorem witness_ReqWriteWaitsUntilReady :
    (hostHas (running drawing (powerOn cfg) 0) [.write 0 16 0x0100]).block.mode = .exec ∧
    (hostHas (running drawing (powerOn cfg) 0) [.write 0 16 0x0100]).host.pending = [.write 0 16 0x0100] ∧
    (hostHas { drawing with block := drawing.block.raiseFatal .reinit } [.write 0 16 0x0100]).block.mode = .halted ∧
    (∃ t, step (hostHas { drawing with block := drawing.block.raiseFatal .reinit } [.read 2 16]) = .next t) ∧
    (∃ t, step (hostHas { drawing with block := drawing.block.raiseFatal .reinit } [.blockReset]) = .next t) ∧
    ({ drawing with block := { drawing.block with mode := .rx } } : State).block.mode = .rx ∧ drawing.host.pending = [] ∧
    drawing.Ended ∧ (hostHas drawing [.read 2 16, .write 2 16 0, .blockReset]).Ended ∧
    (∃ t, step (hostHas drawing [.read 2 16, .write 2 16 0, .blockReset]) = .next t) ∧
    ¬ (hostHas drawing [.read 2 16, .write 0 16 0]).Ended :=
  ⟨by decide, by decide, by decide, ⟨_, rfl⟩, ⟨_, rfl⟩, rfl, rfl, by decide, by decide, ⟨_, rfl⟩, by decide⟩

theorem witness_BlockResetKeepsThePanel : (hostHas drawing [.blockReset]).mover = some .host ∧
    (hostHas { drawing with block := drawing.block.raiseFatal .reinit } [.blockReset]).mover = some .host := by decide

/-- ERR rises, HALTED rises, INIT_DONE rises, and all three are reset. -/
theorem witness_StickyStatusBits :
    (nextState (step (hostHas drawing [.write 0 16 0x0A00]))).map (·.block.err) = some true ∧
    (nextState (step (hostHas drawing [.write 0 16 0x0100]))).map (·.block.halted) = some true ∧
    (nextState (step (running { fresh with block := { Block.reset with initRun := true } } (powerOn cfg) 10))).map
      (·.block.initDone) = some true ∧
    (∃ t, step (hostHas drawing [.blockReset]) = .next t) := ⟨by decide, by decide, by decide, ⟨_, rfl⟩⟩

theorem witness_IllegalHeaderRaisesTheError : (hostHas drawing [.write 0 16 0x0A00]).block.mode = .idle ∧
    9 < (hi8 0x0A00).toNat ∧ (hi8 0x0000).toNat < 1 ∧ (hi8 0x0301 ≠ 0x04 ∧ hi8 0x0301 ≠ 0x05 ∧ lo8 0x0301 ≠ 0x00) := by decide

theorem witness_DrawingBeforeInitRaisesTheError : fresh.block.initDone = false ∧
    drawExpansion fresh.cfg (.clear 0) = some (clearEvents cfg 0) ∧
    drawExpansion fresh.cfg (.drawPixel 200 0 0) = some (pixelEvents cfg 200 0 0) ∧
    (let s := hostHas fresh [.write 0 16 0x0200, .write 0 16 0x1234]
     decodePacket [0x0200, 0x1234] = .ok (.clear 0x1234, []) ∧ Instr.clear 0x1234 ≠ .init ∧ s.block.mode = .idle ∧
      s.block.initDone = false ∧ s.host.pending = ([(0x0200 : Word), 0x1234].map (HostOp.write 0 16)) ++ []) :=
  ⟨rfl, rfl, rfl, rfl, by decide, rfl, rfl, rfl⟩

theorem witness_FatalInits : drawing.block.initDone = true ∧ fresh.block.initDone = false ∧
    ({ fresh with env := ⟨[false], 0⟩ } : State).env.claim = false := by decide

theorem witness_InitStartsThePowerOnSequence : ({ fresh with env := ⟨[true], 0⟩ } : State).block.initDone = false ∧
    ({ fresh with env := ⟨[true], 0⟩ } : State).env.claim = true := by decide

/-- INIT done: the hypothesis of the eight expansion statements; and a text that has 17 glyphs drawn, from both ends. -/
theorem witness_expansions : drawing.block.initDone = true ∧ 17 ≤ (List.replicate 17 (0x30 : Byte)).length ∧
    ((0 : Int) ≤ 0 ∧ (0 : Int) ≤ 8) ∧ ((0 : Int) ≤ 8 ∧ (8 : Int) ≤ 8) ∧ ((0 : Int) ≤ 120 ∧ (120 : Int) ≤ 120) := by decide

/-- Boxes of an even, an odd and an empty side. -/
theorem witness_DrawSquareOutlineExpansion : drawing.block.initDone = true ∧
    (2 * 7 ≤ (10 : Int) + 4 ∧ (10 : Int) + 4 < 2 * 7 + 2) ∧ (2 * 2 ≤ (1 : Int) + 4 ∧ (1 : Int) + 4 < 2 * 2 + 2) ∧
    (2 * (-1) ≤ (-5 : Int) + 4 ∧ (-5 : Int) + 4 < 2 * (-1) + 2) ∧ ((0 : Int) ≤ 159 ∧ ¬ (160 : Int) ≤ 159) := by decide

theorem witness_OutOfRangeAnchorsEmitNothing : (160 ≤ (160 : Int) ∨ 128 ≤ (0 : Int)) ∧
    (160 ≤ (0 : Int) ∨ 128 ≤ (128 : Int)) ∧ ((-1 : Int) < 0 ∨ (0 : Int) < 0) ∧ ((0 : Int) < 0 ∨ (-1 : Int) < 0) := by decide

theorem witness_ExpansionsAreFramedWindows : drawExpansion cfg (.drawPixel 159 127 0) = some (pixelEvents cfg 159 127 0) ∧
    drawExpansion cfg (.drawPixel 160 0 0) = some [] := ⟨rfl, rfl⟩

theorem witness_RasterSelectsByGlyphBit : (0 < 8 ∧ 7 < 8) ∧ (7 < 8 ∧ 0 < 8) := by decide

theorem witness_GlyphRomConstraints : (0x30 ≤ (0x30 : Byte).toNat ∧ (0x30 : Byte).toNat ≤ 0x39) ∧
    (0x30 ≤ (0x39 : Byte).toNat ∧ (0x39 : Byte).toNat ≤ 0x39) ∧ (0x48 : Byte) ∈ ([0x20, 0x3A, 0x2B, 0x2D, 0x2A, 0x48] : List Byte) ∧
    glyphRom 0x48 ≠ none ∧ glyphRom 0x7E = none := by decide

/-- Another stage than the command's. -/
theorem witness_CommandsOutOfOrder : (atStage 2).Admits ∧ (atStage 2).initStage ≠ some (commandStage .colmod) ∧
    inited.initStage ≠ some (commandStage .dispon) ∧ (atStage 3).Admits ∧ (atStage 3).initStage ≠ some 4 := by decide

/-- Each stage: the first command after the reset hold, the first after the settle time, then an active Panel; and a whole
stream before the next request's CASET. -/
theorem witness_CommandsTakeEffectAtTheirStage :
    ((released 50).Admits ∧ (released 50).initStage = some 0) ∧
    (({ atStage 1 with slpPending := some true, tSlp := some 120 } : Panel).Admits ∧ (atStage 1).initStage = some 1) ∧
    ((atStage 2).Admits ∧ (atStage 2).initStage = some 2) ∧ ((atStage 3).Admits ∧ (atStage 3).initStage = some 3) ∧
    (inited.Admits ∧ inited.initStage = some 4) ∧ (filled.Admits ∧ filled.initStage = some 4) := by
  refine ⟨?_, ?_, ?_, ?_, ?_, ?_⟩ <;> decide

theorem witness_RamwrPrimesTheStream :
    (({ framed 0 0 159 127 with rx := .idle } : Panel).Admits ∧
      (framed 0 0 159 127).initStage = some 4 ∧ (framed 0 0 159 127).xs = some 0 ∧ (framed 0 0 159 127).xe = some 159 ∧
      (framed 0 0 159 127).ys = some 0 ∧ (framed 0 0 159 127).ye = some 127) ∧
    (inited.Admits ∧ inited.xs = none) := by decide

/-- A command that is admitted at its stage leaves no fault: the frame's last clause is met. -/
theorem witness_PanelCommandFrame : (nextState (exec .caset drawing)).map (·.panel.pf) = some [] ∧
    (nextState (exec .slpout (withPanel drawing (released 50)))).map (·.panel.pf) = some [] := by decide

theorem witness_MistimedCommandsRaiseTheirFault :
    Panel.powerUp.pstate = .unreset ∧ Panel.powerUp.resetLow.pstate = .inReset ∧
    ((released 49).pstate = .recovering ∧ (released 49).tRst < 50) ∧
    (let p : Panel := { atStage 1 with slpPending := some true, tSlp := some 119 }
     p.pstate ≠ .unreset ∧ p.slpPending = some true ∧ p.tSlp = some 119 ∧ 119 < 120) ∧
    (inited.pstate ≠ .unreset ∧ inited.initStage ≠ some (commandStage .slpout) ∧
      (atStage 0).initStage ≠ some (commandStage .ramwr)) ∧
    (({ inited with rx := .args .caset [0] } : Panel).rx = .args .caset [0]) ∧
    ((framed 0 0 1 0).rx = .stream ∧ (framed 0 0 1 0).full = some false) ∧
    (({ filled with hi := some 0xAA } : Panel).rx = .stream ∧ ({ filled with hi := some 0xAA } : Panel).hi ≠ none) := by
  decide

theorem witness_ResetPulse : filled.pstate ≠ .inReset ∧ Panel.powerUp.pstate ≠ .inReset ∧
    (Panel.powerUp.resetLow.pstate = .inReset) ∧
    (let p : Panel := { Panel.powerUp.resetLow with tRst := 50 }; p.pstate = .inReset ∧ 50 ≤ p.tRst) ∧
    (let p : Panel := { Panel.powerUp.resetLow with tRst := 49 }; p.pstate = .inReset ∧ p.tRst < 50) := by decide

/-- The good and the bad argument bytes of each command, at the last column and the last row. -/
theorem witness_ArgumentBytesSetTheRegisters : inited.pstate = .active ∧ inited.pf = [] ∧
    ({ inited with rx := .args .colmod [] } : Panel).rx = .args .colmod [] ∧ (0x05 : Byte) = cfg.pixfmt16 ∧
    (0x06 : Byte) ≠ cfg.pixfmt16 ∧
    ((0x00 : Byte).toNat * 256 + (0x9F : Byte).toNat ≤ (0x00 : Byte).toNat * 256 + (0x9F : Byte).toNat ∧
      (0x00 : Byte).toNat * 256 + (0x9F : Byte).toNat ≤ 159) ∧
    ¬ ((0x00 : Byte).toNat * 256 + (0xA0 : Byte).toNat ≤ 159) ∧
    ((0x00 : Byte).toNat * 256 + (0x7F : Byte).toNat ≤ 127) ∧ ¬ ((0x00 : Byte).toNat * 256 + (0x80 : Byte).toNat ≤ 127) := by
  decide

/-- A pixel's high byte, and a byte after the last pixel. -/
theorem witness_PixelBytes : (framed 0 0 1 0).pstate = .active ∧ (framed 0 0 1 0).pf = [] ∧ (framed 0 0 1 0).rx = .stream ∧
    (framed 0 0 1 0).full = some false ∧ (framed 0 0 1 0).hi = none ∧ filled.pstate = .active ∧ filled.pf = [] ∧
    filled.rx = .stream ∧ filled.full = some true := by decide

/-- The cursor in a row, at a row's end, and at the window's last cell. -/
theorem witness_PixelStoresAndAdvances :
    (let p : Panel := { framed 158 126 159 127 with hi := some 0xF8 }
     p.pstate = .active ∧ p.pf = [] ∧ p.rx = .stream ∧ p.full = some false ∧ p.hi = some 0xF8 ∧ p.xs = some 158 ∧
      p.xe = some 159 ∧ p.ys = some 126 ∧ p.ye = some 127 ∧ p.cx = some 158 ∧ p.cy = some 126 ∧ p.cy ≠ p.ye) ∧
    ((158 : Word).toNat < (159 : Word).toNat ∧ (126 : Word).toNat < (127 : Word).toNat ∧ (159 : Word).toNat < 160 ∧
      (127 : Word).toNat < 128) ∧
    (let p : Panel := { framed 158 126 159 127 with hi := some 0xF8, cx := some 159, cy := some 126 }
     p.cx = some 159 ∧ (159 : Word).toNat = (159 : Word).toNat ∧ (126 : Word).toNat < (127 : Word).toNat) ∧
    (let p : Panel := { framed 158 126 159 127 with hi := some 0xF8, cx := some 159, cy := some 127 }
     p.cx = p.xe ∧ p.cy = p.ye) := by decide

theorem witness_StrayBytesRaiseTheirFault : inited.rx = .idle ∧ (filled.rx = .stream ∧ filled.full = some true) ∧
    Panel.powerUp.pstate = .unreset ∧ Panel.powerUp.resetLow.pstate = .inReset ∧
    (inited.pstate ≠ .unreset ∧ 0x00 ∉ cfg.opcodes) := by decide

/-- RAMWR alone, in the window that an earlier stream left (V137). -/
theorem witness_WindowFill_again : cfg.Legal ∧ filled.Ready ∧ filled.xs = some 2 ∧ filled.xe = some 3 ∧ filled.ys = some 3 ∧
    filled.ye = some 4 ∧ ((2 : Word).toNat ≤ (3 : Word).toNat ∧ (3 : Word).toNat ≤ (4 : Word).toNat) ∧
    ([9, 9, 9, 9] : List Word).length = ((3 : Word).toNat - (2 : Word).toNat + 1) * ((4 : Word).toNat - (3 : Word).toNat + 1) ∧
    ([[0, 9, 0], [9, 0, 9, 0, 9]] : List (List Byte)).flatten = packList [9, 9, 9, 9] := by decide

/-- A one-cell window in the last corner, split into two data events, and a window of two cells. -/
theorem witness_WindowFill : cfg.Legal ∧ inited.Ready ∧ filled.Ready ∧
    ((([0xF800] : List Word).length : Int) = (159 - 159 + 1) * (127 - 127 + 1)) ∧
    ([[0xF8], [0x00]] : List (List Byte)).flatten = packList [0xF800] ∧
    ((([1, 2] : List Word).length : Int) = (1 - 0 + 1) * (0 - 0 + 1)) ∧
    ([[0, 1, 0, 2]] : List (List Byte)).flatten = packList [1, 2] := by decide

theorem witness_PanelFaultsAreSticky :
    (∃ t, step (running (withPanel drawing (filled.raise .overrun)) (powerOn cfg) 0) = .next t) ∧
    .overrun ∈ (running (withPanel drawing (filled.raise .overrun)) (powerOn cfg) 0).panel.pf := ⟨⟨_, rfl⟩, by decide⟩

theorem witness_NothingFlowsBackFromThePanel : (∃ t, step (running drawing (powerOn cfg) 0) = .next t) ∧
    step (hostHas { drawing with block := drawing.block.raiseFatal .reinit } [.write 0 16 0x0100]) = .fault .stuckHalted ∧
    step (hostHas drawing [.read 2 8]) = .refused (.hostAccess 2 8) := ⟨⟨_, rfl⟩, rfl, rfl⟩

/-- INIT on a Panel at power-up, on one that a block reset left with its reset line low, and on one that was drawn on. -/
theorem witness_InitBringsThePanelUp : ({ fresh with env := ⟨[true], 0⟩ } : State).CanInit ∧
    ({ fresh with env := ⟨[true], 0⟩, panel := Panel.powerUp.resetLow } : State).CanInit ∧
    ({ fresh with env := ⟨[true], 0⟩, panel := filled } : State).CanInit := by decide

/-- The hypothesis of the statements about whole drawing requests: just after INIT, and after another request. -/
theorem witness_CanDraw : drawing.CanDraw ∧ (withPanel drawing filled).CanDraw := by decide

/-- A glyph that fits at the last place, the box of a square, and its perimeter. -/
theorem witness_SquareOutlineSetsThePerimeter : drawing.CanDraw ∧ (2 * 7 ≤ (10 : Int) + 4 ∧ (10 : Int) + 4 < 2 * 7 + 2) ∧
    InWindow 73 57 86 70 73 57 ∧ InWindow 73 57 86 70 86 70 ∧ ¬ InWindow 73 57 86 70 87 70 := by decide

theorem witness_TextSetsItsGlyphCells : drawing.CanDraw ∧ [(0x31 : Byte), 0x32][1]? = some 0x32 ∧
    (0 ≤ (143 : Int) + 9 * 1 ∧ (143 : Int) + 9 * 1 ≤ 152) ∧ InWindow 152 120 159 127 159 127 := by decide

/-- Idle after INIT, and in the middle of a request. -/
theorem witness_StepKeepsTheProtocol :
    ((hostHas drawing [.read 2 16]).ProtocolInv ∧ ∃ t, step (hostHas drawing [.read 2 16]) = .next t) ∧
    (let s := running drawing (pixelEvents cfg 0 0 0xF800) 0; s.ProtocolInv ∧ ∃ t, step s = .next t) :=
  ⟨⟨⟨by decide, rfl, by decide, by decide, by decide, by decide⟩, ⟨_, rfl⟩⟩,
    ⟨⟨by decide, rfl, by decide, by decide, by decide, by decide⟩, ⟨_, rfl⟩⟩⟩

theorem witness_StepKeepsGramCanonical : Memory.wf filled.gram ∧ filled.gram.length = 4 ∧
    ∃ t, step (running (withPanel drawing filled) (powerOn cfg) 0) = .next t := ⟨by decide, by decide, ⟨_, rfl⟩⟩

theorem witness_ClearReusesOneLine : (running drawing (clearEvents cfg 0x1234) 5).mover = some .block ∧
    (running drawing (clearEvents cfg 0x1234) 131).mover = some .block ∧ 5 ≤ 5 ∧ 131 < 132 := by decide

theorem witness_WireCounts : (inX 159 ∧ inY 127) ∧ (inX 0 ∧ inY 0) ∧ ((0 : Int) ≤ 152 ∧ (152 : Int) ≤ 152) ∧
    ((120 : Int) ≤ 120) := by decide

end Sys2Proof.Tests
end

/-! The block interface's statements (spec/10_state.md): STATUS and the Host's accesses, what a step leaves of the
three sticky STATUS bits, a running expansion to its end, and the stream buffer under CLEAR. -/

namespace Sys2Proof.Machine

/-! ### STATUS and the Host's accesses (R20, R22, R29, R240) -/

/-- The bits of STATUS that are fields of the Block (R22). -/
theorem Block.status_bits (b : Block) : b.status.getLsbD 0 = b.initDone ∧ b.status.getLsbD 1 = b.busy ∧
    b.status.getLsbD 2 = b.rxpend ∧ b.status.getLsbD 3 = b.halted ∧ b.status.getLsbD 4 = b.err := by
  simp only [Block.status, BitVec.getLsbD_append, BitVec.getLsbD_ofBool]
  simp

/-- From bit 5 up STATUS holds CAUSE in bits 11 to 8, and zeros (R22). -/
theorem Block.getLsbD_status_of_ge (b : Block) {k : Nat} (hk : 5 ≤ k) :
    b.status.getLsbD k = (decide (8 ≤ k) && b.cause.code.getLsbD (k - 8)) := by
  simp only [Block.status, BitVec.getLsbD_append, BitVec.getLsbD_zero, Nat.sub_sub]
  rw [if_neg (by omega), if_neg (by omega), if_neg (by omega), if_neg (by omega), if_neg (by omega)]
  by_cases h8 : 8 ≤ k
  · rw [if_neg (by omega)]
    split_ifs with h12
    · simp [h8]
    · rw [BitVec.getLsbD_of_ge b.cause.code _ (by omega), Bool.and_false]
  · simp [h8, show k - 5 < 3 by omega]

theorem Block.status_cause (b : Block) : b.status.extractLsb' 8 4 = b.cause.code := by
  ext i hi
  simp [Block.getLsbD_status_of_ge b (show 5 ≤ 8 + i by omega), BitVec.getLsbD_eq_getElem hi]

theorem Block.status_reserved_low (b : Block) : b.status.extractLsb' 5 3 = 0 := by
  ext i hi
  simp [Block.getLsbD_status_of_ge b (show 5 ≤ 5 + i by omega)]
  omega

theorem Block.status_reserved_high (b : Block) : b.status.extractLsb' 12 4 = 0 := by
  ext i hi
  simp [Block.getLsbD_status_of_ge b (show 5 ≤ 12 + i by omega),
    BitVec.getLsbD_of_ge b.cause.code (12 + i - 8) (by omega)]

/-- CAUSE has no other code than the five of R240. -/
theorem Cause.code_le_four (c : Cause) : c.code.toNat ≤ 4 := by
  cases c <;> decide

/-- Settles O18: STATUS is the concatenation of R22's fields. -/
theorem statusFields : Obligations.StatusFields := by
  intro b
  obtain ⟨hinit, hbusy, hrx, hhalted, herr⟩ := b.status_bits
  refine ⟨hinit, hbusy, hrx, hhalted, herr, b.status_reserved_low, b.status_cause, b.status_reserved_high,
    b.cause.code_le_four, ?_⟩
  rw [b.status_cause]
  cases b.cause <;> rfl

theorem step_host {s : State} (hm : s.mover = some .host) : step s = hostStep s.popTurn := by
  simp only [step, stepOnce, hm]

/-- A read at an even offset, as R29 lists the registers. -/
theorem Block.readReg_eq (b : Block) (offset : Nat) : b.readReg offset =
    if offset = 2 then b.status else if offset = 4 then 160 else if offset = 6 then 128 else 0 := by
  unfold Block.readReg
  split <;> simp_all [widthReg, heightReg]

/-- An access that R20 allows: 16 bits wide, at an even offset. -/
theorem accessOk_iff {offset width : Nat} : accessOk offset width = true ↔ width = 16 ∧ offset % 2 = 0 := by
  simp [accessOk]

/-- Settles O15: the Host's move, one access kind at a time. -/
theorem hostRegisterAccesses : Obligations.HostRegisterAccesses := by
  intro s rest hm
  rw [step_host hm]
  refine ⟨fun offset he hp => ?_, fun offset v he h0 hp => ?_, fun offset width v hbad hp => ?_⟩
  · have ok : accessOk offset 16 = true := accessOk_iff.2 ⟨rfl, he⟩
    simp [hostStep, hp, ok, State.popTurn, State.popHost, State.logRead, Block.readReg_eq]
  · have ok : accessOk offset 16 = true := accessOk_iff.2 ⟨rfl, he⟩
    simp [hostStep, hp, ok, h0, State.popTurn, State.popHost]
  · have bad : ¬ accessOk offset width = true := by
      rw [accessOk_iff]
      omega
    rcases hp with hp | hp <;> simp [hostStep, hp, bad]

/-! ### The dispatch of a request, as far as the Block goes (R242, R246) -/

/-- The dispatch of a request other than INIT. -/
theorem State.draw_block_cases (s : State) (E : List BusEvent) :
    (s.draw E).block = s.block.begin false E ∨ (s.draw E).block = s.block.raiseError .notInitialized := by
  unfold State.draw
  split_ifs
  · exact .inl rfl
  · exact .inr rfl

@[simp] theorem State.draw_panel (s : State) (E : List BusEvent) : (s.draw E).panel = s.panel := by
  unfold State.draw
  split_ifs <;> rfl

@[simp] theorem State.draw_cfg (s : State) (E : List BusEvent) : (s.draw E).cfg = s.cfg := by
  unfold State.draw
  split_ifs <;> rfl

/-- The dispatch of INIT: it starts the power-on sequence on configured lines, or one of the two fatal causes. -/
theorem State.startInit_block_cases (s : State) :
    s.startInit.block = ({ s.block with lines := Lines.configure s.cfg.spiClkHz } : Block).begin true (powerOn s.cfg) ∨
    ∃ c, (c = .busClaimFail ∨ c = .reinit) ∧ s.startInit.block = s.block.raiseFatal c := by
  unfold State.startInit
  split_ifs
  · exact .inr ⟨_, .inr rfl, rfl⟩
  · exact .inl rfl
  · exact .inr ⟨_, .inl rfl, rfl⟩

@[simp] theorem State.startInit_panel (s : State) : s.startInit.panel = s.panel := by
  unfold State.startInit
  split_ifs <;> rfl

@[simp] theorem State.startInit_cfg (s : State) : s.startInit.cfg = s.cfg := by
  unfold State.startInit
  split_ifs <;> rfl

/-! ### Nothing is emitted outside mode EXEC -/

/-- Taking a word in, and dispatching what it completes, emits nothing and touches neither Panel nor parameters. -/
theorem State.WordResult.frame {s t : State} (h : s.WordResult t) :
    t.panel = s.panel ∧ t.cfg = s.cfg ∧ t.block.trace = s.block.trace := by
  cases h with
  | wait b same => exact ⟨rfl, rfl, same.trace⟩
  | init b same =>
    refine ⟨State.startInit_panel _, State.startInit_cfg _, ?_⟩
    rcases State.startInit_block_cases { s with block := b } with h | ⟨c, -, h⟩ <;> rw [h] <;> exact same.trace
  | draw b same _ i E =>
    refine ⟨State.draw_panel _ E, State.draw_cfg _ E, ?_⟩
    rcases State.draw_block_cases { s with block := b } E with h | h <;> rw [h] <;> exact same.trace
  | illegal b same => exact ⟨rfl, rfl, same.trace⟩

/-- Settles O14: of the cases of a step, only the Block's own two emit, and both need mode EXEC. -/
theorem onlyABusyBlockEmits : Obligations.OnlyABusyBlockEmits := by
  intro s t hm h
  cases step_result h with
  | idle | access | read => exact ⟨rfl, .inl rfl⟩
  | event e mode | pastEnd mode => exact absurd mode hm
  | blockReset head => exact ⟨rfl, .inr ⟨head, rfl⟩⟩
  | word mode t result =>
    obtain ⟨hpanel, -, htrace⟩ := result.frame
    exact ⟨hpanel, .inl htrace⟩

/-! ### The sticky STATUS bits (R23, R26, R27) -/

/-- What a step may do to INIT_DONE, HALTED and ERR, where it is no block reset: none falls, and each rises only at its
event. -/
structure Block.StickyStep (a b : Block) : Prop where
  initDone_kept : a.initDone = true → b.initDone = true
  err_kept : a.err = true → b.err = true
  halted_kept : a.halted = true → b.halted = true
  initDone_rises : a.initDone = false → b.initDone = true →
    a.mode = .exec ∧ a.initRun = true ∧ a.events.length ≤ a.seq + 1
  halted_rises : a.halted = false → b.halted = true →
    (b.cause = .busClaimFail ∨ b.cause = .reinit) ∧ b.err = a.err
  err_rises : a.err = false → b.err = true →
    (b.cause = .notInitialized ∨ b.cause = .illegalRequest) ∧ b.halted = false

theorem Block.halted_eq_false_iff (b : Block) : b.halted = false ↔ b.mode ≠ .halted := by
  simp [Block.halted]

/-- The three bits stay as they are. -/
theorem Block.StickyStep.of_bits_eq {a b : Block} (hi : b.initDone = a.initDone) (he : b.err = a.err)
    (hh : b.halted = a.halted) : a.StickyStep b := by
  constructor <;> simp +contextual [hi, he, hh]

/-- A Block that runs on, with HALTED and ERR as they were. -/
theorem Block.StickyStep.of_running {a b : Block} (ha : a.mode ≠ .halted) (hb : b.mode ≠ .halted) (he : b.err = a.err)
    (hkept : a.initDone = true → b.initDone = true)
    (hrises : a.initDone = false → b.initDone = true →
      a.mode = .exec ∧ a.initRun = true ∧ a.events.length ≤ a.seq + 1) : a.StickyStep b := by
  rw [← Block.halted_eq_false_iff] at ha hb
  refine ⟨hkept, he.trans, ?_, hrises, ?_, ?_⟩ <;> simp +contextual [ha, hb, he]

/-- A non-fatal error is raised (R247). -/
theorem Block.StickyStep.raiseError {a b : Block} (same : a.SameButPacket b) (ha : a.mode ≠ .halted) {c : Cause}
    (hc : c = .notInitialized ∨ c = .illegalRequest) : a.StickyStep (b.raiseError c) where
  initDone_kept := same.initDone.trans
  err_kept _ := rfl
  halted_kept h := absurd h (by simp [(Block.halted_eq_false_iff a).2 ha])
  initDone_rises h0 h1 := absurd h1 (by simp [same.initDone, h0])
  halted_rises _ h1 := absurd h1 (by simp [Block.halted])
  err_rises _ _ := ⟨hc, rfl⟩

/-- A fatal event is raised (R248). -/
theorem Block.StickyStep.raiseFatal {a b : Block} (same : a.SameButPacket b) {c : Cause}
    (hc : c = .busClaimFail ∨ c = .reinit) : a.StickyStep (b.raiseFatal c) where
  initDone_kept := same.initDone.trans
  err_kept := same.err.trans
  halted_kept _ := rfl
  initDone_rises h0 h1 := absurd h1 (by simp [same.initDone, h0])
  halted_rises _ _ := ⟨hc, same.err⟩
  err_rises h0 h1 := absurd h1 (by simp [same.err, h0])

/-- INIT_DONE rises with the last event of INIT's expansion. -/
theorem Block.eventDone_initDone_iff (b : Block) : b.eventDone.initDone = true ↔
    b.initDone = true ∨ (b.initRun = true ∧ b.events.length ≤ b.seq + 1) := by
  by_cases h : b.seq + 1 < b.events.length
  · simp [Block.eventDone_mid h, h]
  · simp [Block.eventDone_last h, not_lt.1 h]

/-- A completed event leaves the Block busy or idle. -/
theorem Block.eventDone_mode_cases (b : Block) : b.eventDone.mode = b.mode ∨ b.eventDone.mode = .idle := by
  by_cases h : b.seq + 1 < b.events.length
  · exact .inl (by rw [Block.eventDone_mid h])
  · exact .inr (by rw [Block.eventDone_last h]; rfl)

theorem Block.StickyStep.event {b : Block} (hm : b.mode = .exec) (cfg : Config) (e : BusEvent) :
    b.StickyStep (b.emit cfg e).eventDone := by
  refine .of_running (by simp [hm]) ?_ (by simp) ?_ ?_
  · rcases (b.emit cfg e).eventDone_mode_cases with h | h <;> simp [h, hm]
  · exact fun hi => (Block.eventDone_initDone_iff _).2 (.inl hi)
  · intro hi hd
    exact ⟨hm, ((Block.eventDone_initDone_iff _).1 hd).resolve_left (by simp [hi])⟩

/-- A request whose SEQ is past its end is over. -/
theorem Block.StickyStep.finish {b : Block} (hm : b.mode = .exec) (hend : b.events.length ≤ b.seq) :
    b.StickyStep b.finish := by
  refine .of_running (by simp [hm]) (by simp) rfl ?_ ?_
  · intro hi
    simp [hi]
  · intro hi hd
    exact ⟨hm, by simpa [hi] using hd, by omega⟩

/-- Starting an expansion, after a packet's words are taken in, moves none of the bits. -/
theorem Block.StickyStep.begin {a b : Block} (same : a.SameButPacket b) (ha : a.mode ≠ .halted) (isInit : Bool)
    (E : List BusEvent) (l : Lines) : a.StickyStep (({ b with lines := l } : Block).begin isInit E) := by
  refine .of_running ha ?_ same.err ?_ ?_
  · rw [Block.begin_mode]
    split_ifs <;> decide
  · exact same.initDone.trans
  · exact fun h0 h1 => absurd h1 (by simp [same.initDone, h0])

theorem State.WordResult.sticky {s t : State} (hm : s.block.mode = .idle ∨ s.block.mode = .rx) (h : s.WordResult t) :
    s.block.StickyStep t.block := by
  have ha : s.block.mode ≠ .halted := by
    rcases hm with hm | hm <;> simp [hm]
  cases h with
  | wait b same mode =>
    have hb : b.halted = false := (Block.halted_eq_false_iff b).2 (by simp [mode])
    exact .of_bits_eq same.initDone same.err (hb.trans ((Block.halted_eq_false_iff _).2 ha).symm)
  | init b same =>
    rcases State.startInit_block_cases { s with block := b } with h | ⟨c, hc, h⟩ <;> rw [h]
    · exact .begin same ha _ _ _
    · exact .raiseFatal same hc
  | draw b same _ i E =>
    rcases State.draw_block_cases { s with block := b } E with h | h <;> rw [h]
    · exact .begin same ha _ _ b.lines
    · exact .raiseError same ha (.inl rfl)
  | illegal b same => exact .raiseError same ha (.inr rfl)

/-- No step changes a parameter of R7. -/
theorem step_cfg {s t : State} (h : step s = .next t) : t.cfg = s.cfg := by
  cases step_result h with
  | idle | event | pastEnd | blockReset | access | read => rfl
  | word mode t result =>
    obtain ⟨-, hcfg, -⟩ := result.frame
    exact hcfg

/-- Every step is a block reset or keeps to R23, R26 and R27. -/
theorem step_sticky {s t : State} (h : step s = .next t) :
    (s.host.pending.head? = some .blockReset ∧ t.block = Block.reset) ∨ s.block.StickyStep t.block := by
  cases step_result h with
  | idle | access | read => exact .inr (.of_bits_eq rfl rfl rfl)
  | event e mode => exact .inr (.event mode _ e)
  | pastEnd mode at_ => exact .inr (.finish mode (List.getElem?_eq_none_iff.1 at_))
  | blockReset head => exact .inl ⟨head, rfl⟩
  | word mode t result => exact .inr (State.WordResult.sticky (s := s.popTurn.popHost) mode result)

/-- HALTED excludes BUSY, RXPEND and REQ_READY (R34, R21). -/
theorem Block.halted_excludes {b : Block} (h : b.halted = true) :
    b.busy = false ∧ b.rxpend = false ∧ b.reqReady = false := by
  have hm : b.mode = .halted := by simpa [Block.halted] using h
  simp [Block.busy, Block.rxpend, Block.reqReady, Block.halted, hm]

/-- Settles O20, from the case list of a step. -/
theorem stickyStatusBits : Obligations.StickyStatusBits := by
  intro s t h
  refine ⟨step_cfg h, Block.halted_excludes, (step_sticky h).imp_right fun sticky => ?_⟩
  exact ⟨sticky.initDone_kept, sticky.err_kept, sticky.halted_kept, sticky.initDone_rises, sticky.halted_rises,
    sticky.err_rises⟩

/-! ### A running expansion to its end (R33, R68, R72) -/

/-- Settles O13: `runSteps_events` runs the rest of the expansion, and the `afterEvents` lemmas say what is left. -/
theorem expansionIsEmittedWhole : Obligations.ExpansionIsEmittedWhole := by
  intro s hm hseq ht
  have hne : s.block.events.drop s.block.seq ≠ [] := by
    rw [Ne, List.drop_eq_nil_iff]
    omega
  have hrun := runSteps_events (.inl hm) ht (rfl : s.block.events.drop s.block.seq = _)
  rw [List.length_drop] at hrun
  obtain ⟨hmode, hsb, -, hinit⟩ := State.afterEvents_end hm rfl hne
  obtain ⟨herr, hcause, -, hend⟩ := s.afterEvents_err (s.block.events.drop s.block.seq)
  have hend' : s.block.seq + (s.block.events.drop s.block.seq).length = s.block.events.length := by
    rw [List.length_drop]
    omega
  exact ⟨_, hrun, s.afterEvents_trace _, s.afterEvents_panel _, hmode, hend.trans hend', hsb, hinit, herr, hcause,
    State.afterEvents_host _ _, State.afterEvents_env _ _, State.afterEvents_cfg _ _⟩

/-! ### The stream buffer under CLEAR (R35, R153) -/

theorem inStream_append (op : Byte) (es fs : List BusEvent) (b : Bool) :
    inStream op (es ++ fs) b = inStream op fs (inStream op es b) := by
  induction es generalizing b with
  | nil => rfl
  | cons e es ih => cases e <;> exact ih _

/-- Data events leave a stream open. -/
theorem inStream_replicate_data (op : Byte) (bs : List Byte) (n : Nat) (b : Bool) :
    inStream op (List.replicate n (.data bs)) b = b := by
  induction n with
  | zero => rfl
  | succ n ih => exact ih

/-- SetWindow ends with RAMWR: a stream is open behind it (R125). -/
theorem inStream_setWindow (cfg : Config) (x0 y0 x1 y1 : Int) (b : Bool) :
    inStream cfg.opcRamwr (setWindow cfg x0 y0 x1 y1) b = true := by
  simp [setWindow, inStream]

theorem length_setWindow (cfg : Config) (x0 y0 x1 y1 : Int) : (setWindow cfg x0 y0 x1 y1).length = 5 := rfl

theorem length_clearEvents (cfg : Config) (c : Word) : (clearEvents cfg c).length = 133 := by
  simp [clearEvents, length_setWindow, dispH]

/-- Behind CLEAR's frame each event is its one line. -/
theorem getElem?_clearEvents (cfg : Config) (c : Word) {k : Nat} (h5 : 5 ≤ k) (hk : k < 133) :
    (clearEvents cfg c)[k]? = some (.data (packRun c dispW)) := by
  rw [clearEvents, List.getElem?_append_right (by rwa [length_setWindow]), length_setWindow, List.getElem?_replicate,
    if_pos (show k - 5 < 128 by omega)]

/-- Behind CLEAR's frame the stream is open. -/
theorem inStream_clearEvents (cfg : Config) (c : Word) {k : Nat} (h5 : 5 ≤ k) :
    inStream cfg.opcRamwr ((clearEvents cfg c).take k) false = true := by
  rw [clearEvents, List.take_append, List.take_of_length_le (by rwa [length_setWindow]), List.take_replicate,
    inStream_append, inStream_setWindow, inStream_replicate_data]

/-- Settles O59: each event from the sixth on is CLEAR's line in an open stream, and the request is not over before the
last. -/
theorem clearReusesOneLine : Obligations.ClearReusesOneLine := by
  intro s c hm hE h5 hlt
  have hat : s.block.events[s.block.seq]? = some (.data (packRun c dispW)) := by
    rw [hE]
    exact getElem?_clearEvents s.cfg c h5 (by omega)
  have hmid : s.block.seq + 1 < s.block.events.length := by
    rw [hE, length_clearEvents]
    omega
  refine ⟨_, step_event hm hat, ?_⟩
  rw [State.afterEvent_block, Block.eventDone_mid (by exact hmid)]
  simp [Block.streamBuffer, hE, inStream_clearEvents s.cfg c h5]

end Sys2Proof.Machine

/-! GRAM's canonical form (spec/20_memory.md R60, spec/44_cursor_engine.md R221; assumption 12): every part of the Panel
keeps GRAM but a pixel byte, which writes through `GramWrite`, and a reset pulse, which empties it. -/

namespace Sys2Proof.Machine

/-! ### Commands leave GRAM alone (R203, R205, R210 to R217) -/

@[simp] theorem Panel.admit_gram (p : Panel) : p.admitReset.admitSleep.closeRx.gram = p.gram := by
  rw [Panel.admit_eq]

@[simp] theorem Panel.effect_gram (c : PanelCmd) (p : Panel) : (Panel.effect c p).gram = p.gram := by
  cases c with
  | slpout | dispon => exact p.requires_gram _
  | colmod | madctl | caset | raset => exact p.requires_gram _
  | ramwr => exact (Panel.raiseIf_gram _ _ _).trans (p.requires_gram 4)

theorem Panel.command_gram {effect : Panel → Panel} (heffect : ∀ q : Panel, (effect q).gram = q.gram) (p : Panel) :
    (p.command effect).gram = p.gram := by
  unfold Panel.command
  split_ifs
  · rfl
  · rw [heffect, Panel.admit_gram]

/-! ### Data bytes (R206, R220, R223) -/

@[simp] theorem Panel.dataCheck_gram (p : Panel) : p.dataCheck.gram = p.gram := by
  simp [Panel.dataCheck]

@[simp] theorem Panel.complete_gram (cfg : Config) (p : Panel) (cmd : ArgCmd) (bs : List Byte) :
    (p.complete cfg cmd bs).gram = p.gram := by
  unfold Panel.complete
  split
  · exact p.raiseIf_gram _ _
  · rfl
  · exact p.raiseIf_gram _ _
  · exact p.raiseIf_gram _ _
  · rfl

@[simp] theorem Panel.argByte_gram (cfg : Config) (p : Panel) (cmd : ArgCmd) (bs : List Byte) (d : Byte) :
    (p.argByte cfg cmd bs d).gram = p.gram := by
  unfold Panel.argByte
  split_ifs
  · rfl
  · exact p.complete_gram cfg cmd _

@[simp] theorem Panel.advance_gram (p : Panel) : p.advance.gram = p.gram := by
  rw [Panel.advance_eq]

/-- The low byte of a pixel writes its cell (R220); any other pixel byte leaves GRAM alone. -/
theorem Panel.pixelByte_wf {p : Panel} (h : Memory.wf p.gram) (d : Byte) : Memory.wf (p.pixelByte d).gram := by
  unfold Panel.pixelByte
  split_ifs
  · exact h
  · split
    · exact h
    · rw [Panel.advance_gram]
      exact Panel.gramWrite_wf (p := { p with hi := none }) h _

theorem Panel.byte_wf (cfg : Config) {p : Panel} (h : Memory.wf p.gram) (d : Byte) : Memory.wf (p.byte cfg d).gram := by
  unfold Panel.byte
  split
  · rwa [Panel.raise_gram, Panel.dataCheck_gram]
  · rwa [Panel.argByte_gram, Panel.dataCheck_gram]
  · exact Panel.pixelByte_wf (by rwa [Panel.dataCheck_gram]) d

theorem Panel.bytes_wf (cfg : Config) (bs : List Byte) {p : Panel} (h : Memory.wf p.gram) :
    Memory.wf (bs.foldl (Panel.byte cfg) p).gram := by
  induction bs generalizing p with
  | nil => exact h
  | cons d bs ih => exact ih (Panel.byte_wf cfg h d)

/-! ### Whole events and steps (R200, R201) -/

/-- A reset pulse leaves GRAM alone or empties it (R201). -/
theorem Panel.resetLow_gram_cases (p : Panel) : p.resetLow.gram = p.gram ∨ p.resetLow.gram = [] := by
  unfold Panel.resetLow
  split_ifs
  · exact .inl rfl
  · exact .inr rfl

@[simp] theorem Panel.resetHigh_gram (p : Panel) : p.resetHigh.gram = p.gram := by
  unfold Panel.resetHigh
  split_ifs
  · exact p.raiseIf_gram _ _
  · rfl

/-- Every bus event keeps GRAM's canonical form. -/
theorem Panel.consume_wf (cfg : Config) (e : BusEvent) {p : Panel} (h : Memory.wf p.gram) :
    Memory.wf (p.consume cfg e).gram := by
  cases e with
  | rst level =>
    cases level with
    | false =>
      change Memory.wf p.resetLow.gram
      rcases p.resetLow_gram_cases with hg | hg <;> rw [hg]
      · exact h
      · exact Memory.nil_wf
    | true =>
      change Memory.wf p.resetHigh.gram
      rwa [Panel.resetHigh_gram]
  | delay ms => exact h
  | cmd b =>
    simp only [Panel.consume]
    split
    · rwa [Panel.command_gram (Panel.effect_gram _)]
    · rwa [Panel.command_gram (effect := Panel.unknown) fun _ => rfl]
  | data bs => exact Panel.bytes_wf cfg bs h

/-- Settles O58: of the cases of a step, only a bus event reaches the Panel. -/
theorem stepKeepsGramCanonical : Obligations.StepKeepsGramCanonical := by
  refine ⟨reset_gram_wf, fun s t hwf h => ?_⟩
  cases step_result h with
  | idle | pastEnd | blockReset | access | read => exact hwf
  | event e => exact Panel.consume_wf _ e hwf
  | word _ t result =>
    obtain ⟨hpanel, -, -⟩ := result.frame
    rw [hpanel]
    exact hwf

end Sys2Proof.Machine

/-! The encoding's statements (spec/30_encoding.md): a packet as its header, its length and its registers, the text
words, the codec's two directions, and the words of a packet written to REQ one after the other. -/

namespace Sys2Proof

open Machine (packList)

/-! ### Headers and lengths (R81, R85, R86) -/

@[simp] theorem hi8_header (opc arg8 : Byte) : hi8 (header opc arg8) = opc := hi8_joinBytes opc arg8

@[simp] theorem lo8_header (opc arg8 : Byte) : lo8 (header opc arg8) = arg8 := lo8_joinBytes opc arg8

theorem illegalHeader_iff (opc arg8 : Byte) : illegalHeader opc arg8 = true ↔
    opc.toNat < 1 ∨ 9 < opc.toNat ∨ (opc ≠ 0x04 ∧ opc ≠ 0x05 ∧ arg8 ≠ 0x00) := by
  simp only [illegalHeader, Bool.or_eq_true, decide_eq_true_eq, or_assoc]

/-- The length table of R85, one legal opcode after the other. -/
theorem packetLen_eq (opc arg8 : Byte) : packetLen opc arg8 =
    if illegalHeader opc arg8 then 1
    else if opc = 0x01 then 1
    else if opc = 0x02 then 2
    else if opc = 0x03 ∨ opc = 0x06 then 4
    else if opc = 0x05 then 5 + (arg8.toNat + 1) / 2
    else 5 := by
  cases hl : illegalHeader opc arg8 with
  | true => exact packetLen_illegal hl
  | false =>
    rcases opc_of_legal hl with rfl | rfl | ⟨rfl, rfl | rfl | rfl | rfl | rfl | rfl | rfl⟩
    · exact packetLen_glyph arg8
    · exact packetLen_text arg8
    all_goals rfl

theorem packetLen_pos (opc arg8 : Byte) : 0 < packetLen opc arg8 := by
  rw [packetLen_eq]
  split_ifs <;> omega

/-- An 8-bit count asks for at most 128 text words (R85). -/
theorem packetLen_le (opc arg8 : Byte) : packetLen opc arg8 ≤ 133 := by
  have := arg8.isLt
  rw [packetLen_eq]
  split_ifs <;> omega

/-- Settles O3: R85's table, and its greatest entry. -/
theorem packetLengthTable : Obligations.PacketLengthTable :=
  ⟨packetLen_eq, packetLen_le, packetLen_text 0xFF⟩

/-! ### The registers of a whole packet (R32, R83, R84, R87) -/

/-- OPND and TEXT once the words after the header are loaded. -/
def packetRegisters (arg8 : Byte) (ws : List Word) : List Word × List Byte := ws.foldl (loadWord arg8) ([], [])

/-- Words go to OPND while it has room. -/
theorem foldl_loadWord_operands (arg8 : Byte) (text : List Byte) (ws : List Word) : ∀ opnd : List Word,
    opnd.length + ws.length ≤ 4 → ws.foldl (loadWord arg8) (opnd, text) = (opnd ++ ws, text) := by
  induction ws with
  | nil => simp
  | cons w ws ih =>
    intro opnd h
    simp only [List.length_cons] at h
    have hload : loadWord arg8 (opnd, text) w = (opnd ++ [w], text) := by
      simp [loadWord, show opnd.length < 4 by omega]
    have hrest : (opnd ++ [w]).length + ws.length ≤ 4 := by
      rw [List.length_append, List.length_singleton]
      omega
    rw [List.foldl_cons, hload, ih _ hrest, List.append_assoc, List.singleton_append]

/-- Up to four words are all operands. -/
theorem packetRegisters_operands (arg8 : Byte) {ws : List Word} (h : ws.length ≤ 4) :
    packetRegisters arg8 ws = (ws, []) :=
  foldl_loadWord_operands arg8 [] ws [] (by simpa using h)

/-- A word's bytes, high byte first (R84). -/
theorem packList_cons (w : Word) (ws : List Word) : packList (w :: ws) = hi8 w :: lo8 w :: packList ws := rfl

/-- Text words fill TEXT with their bytes, high byte first, up to the count n; an odd n drops the padding byte. -/
theorem foldl_loadWord_text (n : Byte) {opnd : List Word} (ho : opnd.length = 4) (ws : List Word) :
    ∀ text : List Byte, ws.length = (n.toNat - text.length + 1) / 2 →
    ws.foldl (loadWord n) (opnd, text) = (opnd, text ++ (packList ws).take (n.toNat - text.length)) := by
  induction ws with
  | nil => simp [packList]
  | cons w ws ih =>
    intro text h
    simp only [List.length_cons] at h
    by_cases hmid : text.length + 1 < n.toNat
    · obtain ⟨m, hm⟩ : ∃ m, n.toNat - text.length = m + 2 := ⟨n.toNat - text.length - 2, by omega⟩
      have hload : loadWord n (opnd, text) w = (opnd, text ++ [hi8 w, lo8 w]) := by
        simp [loadWord, ho, loadText, hmid]
      have hrest : n.toNat - (text ++ [hi8 w, lo8 w]).length = m := by
        simp only [List.length_append, List.length_cons, List.length_nil]
        omega
      rw [List.foldl_cons, hload, ih _ (by omega), hrest, hm, packList_cons, List.append_assoc]
      rfl
    · have hone : n.toNat - text.length = 1 := by omega
      have hload : loadWord n (opnd, text) w = (opnd, text ++ [hi8 w]) := by
        simp [loadWord, ho, loadText, hmid]
      have hnil : ws = [] := List.length_eq_zero_iff.1 (by omega)
      rw [List.foldl_cons, hload, hone, packList_cons, hnil]
      rfl

/-- A DRAW_TEXT packet's registers (R84). -/
theorem packetRegisters_text (n : Byte) (x y fg bg : Word) {ws : List Word} (h : ws.length = (n.toNat + 1) / 2) :
    packetRegisters n (x :: y :: fg :: bg :: ws) = ([x, y, fg, bg], (packList ws).take n.toNat) :=
  foldl_loadWord_text n (opnd := [x, y, fg, bg]) rfl ws [] h

/-- n characters loaded from their words are a text of n characters. -/
theorem map_charAt_take {n : Nat} {ws : List Word} (h : ws.length = (n + 1) / 2) :
    (List.range n).map (charAt ((packList ws).take n)) = (packList ws).take n := by
  have hlen : ((packList ws).take n).length = n := by
    rw [List.length_take, Machine.length_packList]
    omega
  have hmap := map_charAt ((packList ws).take n)
  rwa [hlen] at hmap

/-- Byte k of packed words is in word k/2, the high byte at even k. -/
theorem getElem?_packList : ∀ (ws : List Word) (k : Nat),
    (packList ws)[k]? = (ws[k / 2]?).map fun w => if k % 2 = 0 then hi8 w else lo8 w
  | [], _ => by simp [packList]
  | _ :: _, 0 => rfl
  | _ :: _, 1 => rfl
  | w :: ws, k + 2 => by
    rw [packList_cons, List.getElem?_cons_succ, List.getElem?_cons_succ, getElem?_packList ws k, Nat.add_mod_right,
      show (k + 2) / 2 = k / 2 + 1 by omega, List.getElem?_cons_succ]

/-- Packing the bytes of words gives the words back. -/
theorem packText_packList (ws : List Word) : packText (packList ws) = ws := by
  induction ws with
  | nil => rfl
  | cons w ws ih =>
    rw [packList_cons, packText, ih, joinBytes_hi8_lo8]

/-! ### The decoder (R82, R86, R87) -/

theorem decodePacket_illegal {h : Word} (hl : illegalHeader (hi8 h) (lo8 h) = true) (ws : List Word) :
    decodePacket (h :: ws) = .error (.illegalRequest h) := by
  simp [decodePacket, hl]

/-- A word list is one whole packet exactly when its header is legal, it has its header's length, and its registers hold
the request. -/
theorem decodePacket_eq_ok_iff {h : Word} {ws : List Word} {i : Instr} :
    decodePacket (h :: ws) = .ok (i, []) ↔
      illegalHeader (hi8 h) (lo8 h) = false ∧ ws.length + 1 = packetLen (hi8 h) (lo8 h) ∧
      decodeFields (hi8 h) (lo8 h) (packetRegisters (lo8 h) ws).1 (packetRegisters (lo8 h) ws).2 = some i := by
  have hpos := packetLen_pos (hi8 h) (lo8 h)
  simp only [decodePacket]
  constructor
  · intro hd
    split_ifs at hd with hl hlen
    split at hd
    next j hf =>
      simp only [Except.ok.injEq, Prod.mk.injEq, List.drop_eq_nil_iff] at hd
      obtain ⟨rfl, hdrop⟩ := hd
      rw [List.take_of_length_le hdrop] at hf
      exact ⟨by simpa using hl, by omega, hf⟩
    next => cases hd
  · rintro ⟨hl, hlen, hf⟩
    have hn : packetLen (hi8 h) (lo8 h) - 1 = ws.length := by omega
    simp only [packetRegisters] at hf
    simp [hl, hn, hf]

theorem decode_packet_eq_ok_iff {cfg : Config} {ws : List Word} {i : Instr} :
    decode cfg (.packet ws) = .ok i ↔ decodePacket ws = .ok (i, []) := by
  simp only [decode]
  split <;> simp_all

/-- A legal header's opcode always names a request, whatever the registers hold (R82). -/
theorem decodeFields_of_legal {opc arg8 : Byte} (hl : illegalHeader opc arg8 = false) (opnd : List Word)
    (text : List Byte) : ∃ i, decodeFields opc arg8 opnd text = some i := by
  rcases opc_of_legal hl with rfl | rfl | ⟨rfl, rfl | rfl | rfl | rfl | rfl | rfl | rfl⟩ <;> exact ⟨_, rfl⟩

/-- Settles O4: R86's condition is `illegalHeader`, and a legal header's packet always holds a request. -/
theorem illegalHeadersExactly : Obligations.IllegalHeadersExactly := by
  intro opc arg8 ws
  rw [← illegalHeader_iff]
  refine ⟨fun hl => decodePacket_illegal (by simpa using hl) ws, fun hl hlen => ?_⟩
  have hlegal : illegalHeader opc arg8 = false := by simpa using hl
  obtain ⟨i, hi⟩ := decodeFields_of_legal hlegal (packetRegisters arg8 ws).1 (packetRegisters arg8 ws).2
  exact ⟨i, decodePacket_eq_ok_iff.2 (by simpa using ⟨hlegal, hlen, hi⟩)⟩

/-- What a DRAW_TEXT packet of count n decodes to (R82, R84). -/
theorem decodePacket_text (n : Byte) (x y fg bg : Word) {ws : List Word} (h : ws.length = (n.toNat + 1) / 2) :
    decodePacket (header 0x05 n :: x :: y :: fg :: bg :: ws) =
      .ok (.drawText ((packList ws).take n.toNat) (sext16 x) (sext16 y) fg bg, []) := by
  rw [decodePacket_eq_ok_iff, hi8_header, lo8_header, packetLen_text, packetRegisters_text n x y fg bg h]
  refine ⟨by simp [illegalHeader], by simp only [List.length_cons]; omega, ?_⟩
  conv_rhs => rw [← map_charAt_take h]
  rfl

/-- Settles O5: TEXT holds the first n bytes of the text words. -/
theorem textWordsHoldTheCharacters : Obligations.TextWordsHoldTheCharacters := by
  intro n x y fg bg ws h
  refine ⟨_, decodePacket_text n x y fg bg h, ?_, fun k hk => ?_⟩
  · rw [List.length_take, Machine.length_packList]
    omega
  · rw [List.getElem?_take_of_lt hk, getElem?_packList]

/-! ### Command bytes (R91, R92) -/

/-- The command byte of a Panel command, R91. -/
def PanelCmd.opcode (cfg : Config) : PanelCmd → Byte
  | .slpout => cfg.opcSlpout
  | .colmod => cfg.opcColmod
  | .madctl => cfg.opcMadctl
  | .dispon => cfg.opcDispon
  | .caset => cfg.opcCaset
  | .raset => cfg.opcRaset
  | .ramwr => cfg.opcRamwr

theorem decodeCommand_opcode {cfg : Config} (hc : cfg.Legal) (c : PanelCmd) :
    decodeCommand cfg (c.opcode cfg) = some c := by
  cases c with
  | slpout => exact decodeCommand_slpout
  | colmod => exact decodeCommand_colmod hc
  | madctl => exact decodeCommand_madctl hc
  | dispon => exact decodeCommand_dispon hc
  | caset => exact decodeCommand_caset hc
  | raset => exact decodeCommand_raset hc
  | ramwr => exact decodeCommand_ramwr hc

/-- A byte that decodes to a command is that command's parameter. -/
theorem opcode_of_decodeCommand {cfg : Config} {b : Byte} {c : PanelCmd} (h : decodeCommand cfg b = some c) :
    b = c.opcode cfg := by
  unfold decodeCommand at h
  split_ifs at h <;> cases h <;> assumption

theorem decodeCommand_eq_some_iff {cfg : Config} (hc : cfg.Legal) (b : Byte) (c : PanelCmd) :
    decodeCommand cfg b = some c ↔ b = c.opcode cfg :=
  ⟨opcode_of_decodeCommand, fun h => h ▸ decodeCommand_opcode hc c⟩

theorem decodeCommand_eq_none_iff (cfg : Config) (b : Byte) : decodeCommand cfg b = none ↔ b ∉ cfg.opcodes := by
  simp only [decodeCommand, ite_eq_iff, reduceCtorEq, and_false, false_or, and_true, Config.opcodes, List.mem_cons,
    List.not_mem_nil, or_false, not_or]

/-- Settles O6: the decoder's seven comparisons exclude each other under legal parameters. -/
theorem commandBytesByEquality : Obligations.CommandBytesByEquality := by
  intro cfg hc b
  have hsome := decodeCommand_eq_some_iff hc b
  exact ⟨hsome .slpout, hsome .colmod, hsome .madctl, hsome .dispon, hsome .caset, hsome .raset, hsome .ramwr,
    decodeCommand_eq_none_iff cfg b⟩

/-! ### The encoder's direction of the codec -/

/-- The code of a well-formed instruction has its size, whichever of the sixteen it is. -/
theorem encode_sized : ∀ i : Instr, Laws.CodeSize.Statement i
  | .init => Laws.CodeSize.init
  | .clear color => Laws.CodeSize.clear color
  | .drawPixel x y color => Laws.CodeSize.drawPixel x y color
  | .drawGlyph code x y fg bg => Laws.CodeSize.drawGlyph code x y fg bg
  | .drawText text x y fg bg => Laws.CodeSize.drawText text x y fg bg
  | .drawSmallBlock x y color => Laws.CodeSize.drawSmallBlock x y color
  | .drawHline xs xe y color => Laws.CodeSize.drawHline xs xe y color
  | .drawVline ys ye x color => Laws.CodeSize.drawVline ys ye x color
  | .drawSquareOutline cx cy size color => Laws.CodeSize.drawSquareOutline cx cy size color
  | .slpout => Laws.CodeSize.slpout
  | .colmod => Laws.CodeSize.colmod
  | .madctl => Laws.CodeSize.madctl
  | .dispon => Laws.CodeSize.dispon
  | .caset => Laws.CodeSize.caset
  | .raset => Laws.CodeSize.raset
  | .ramwr => Laws.CodeSize.ramwr

/-- An instruction with a command byte is a Panel command, and the byte is its parameter. -/
theorem command_of_encode {cfg : Config} {i : Instr} {b : Byte} (he : encode cfg i = .command b) :
    ∃ c : PanelCmd, i = c.toInstr ∧ b = c.opcode cfg := by
  cases i <;> simp only [encode, Code.command.injEq, reduceCtorEq] at he <;> subst he
  · exact ⟨.slpout, rfl, rfl⟩
  · exact ⟨.colmod, rfl, rfl⟩
  · exact ⟨.madctl, rfl, rfl⟩
  · exact ⟨.dispon, rfl, rfl⟩
  · exact ⟨.caset, rfl, rfl⟩
  · exact ⟨.raset, rfl, rfl⟩
  · exact ⟨.ramwr, rfl, rfl⟩

/-- The count of a text that fits ARG8 is read back (R83). -/
theorem toNat_ofNat_length {text : List Byte} (ht : TextLen text) :
    (BitVec.ofNat 8 text.length).toNat = text.length := by
  rw [BitVec.toNat_ofNat]
  exact Nat.mod_eq_of_lt (Nat.lt_succ_of_le ht)

/-- The text words of a text load its characters and nothing of the padding (R84). -/
theorem packetRegisters_packText {text : List Byte} (ht : TextLen text) (x y fg bg : Word) :
    packetRegisters (BitVec.ofNat 8 text.length) (x :: y :: fg :: bg :: packText text) = ([x, y, fg, bg], text) :=
  foldl_packText _ (opnd := [x, y, fg, bg]) rfl text [] (by simp [toNat_ofNat_length ht])

/-- A field gives its coordinate back exactly when the coordinate fits (R83). -/
theorem sext16_field16_iff (v : Int) : sext16 (field16 v) = v ↔ Operand16 v :=
  ⟨fun h => h ▸ operand16_sext16 (field16 v), sext16_field16⟩

/-- The registers of an encoded request hold the request (R82 to R84). -/
theorem decodeFields_encode {cfg : Config} {i : Instr} (hw : i.WellFormed) {h : Word} {ws : List Word}
    (he : encode cfg i = .packet (h :: ws)) :
    decodeFields (hi8 h) (lo8 h) (packetRegisters (lo8 h) ws).1 (packetRegisters (lo8 h) ws).2 = some i := by
  cases i
  case init | clear => cases he; rfl
  case slpout | colmod | madctl | dispon | caset | raset | ramwr => cases he
  case drawText text x y fg bg =>
    simp only [encode, List.cons_append, List.nil_append, Code.packet.injEq, List.cons.injEq] at he
    obtain ⟨rfl, rfl⟩ := he
    simp only [Instr.WellFormed, Instr.check, decide_eq_true_eq] at hw
    obtain ⟨ht, hx, hy⟩ := hw
    rw [hi8_header, lo8_header, packetRegisters_packText ht]
    simpa [decodeFields, toNat_ofNat_length ht, map_charAt, opndAt, sext16_field16_iff] using And.intro hx hy
  all_goals
    cases he
    simp only [Instr.WellFormed, Instr.check, decide_eq_true_eq] at hw
    rw [hi8_header, lo8_header, packetRegisters_operands _ (by simp)]
    simpa [decodeFields, opndAt, sext16_field16_iff] using hw

/-- Settles O1: a command byte is its command's parameter; a packet has its header's length and holds its request. -/
theorem decodeEncodeRoundTrip : Obligations.DecodeEncodeRoundTrip := by
  intro cfg i hc hw
  have hsize := encode_sized i hw cfg
  cases he : encode cfg i with
  | command b =>
    obtain ⟨c, rfl, rfl⟩ := command_of_encode he
    simp only [decode, decodeCommand_opcode hc]
  | packet ws =>
    rw [he] at hsize
    cases ws with
    | nil => exact hsize.elim
    | cons h ws =>
      obtain ⟨hl, hlen⟩ := hsize
      rw [decode_packet_eq_ok_iff, decodePacket_eq_ok_iff]
      exact ⟨hl, hlen, decodeFields_encode hw he⟩

/-! ### The decoder's direction of the codec -/

/-- A decoded request is well-formed: its coordinates are read from 16-bit fields, its count is ARG8. -/
theorem decodeFields_wellFormed {opc arg8 : Byte} {opnd : List Word} {text : List Byte} {i : Instr}
    (h : decodeFields opc arg8 opnd text = some i) : i.WellFormed := by
  have hcount : arg8.toNat ≤ 255 := Nat.le_of_lt_succ arg8.isLt
  unfold decodeFields at h
  split at h <;> cases h
  all_goals simp [Instr.WellFormed, Instr.check, operand16_sext16, hcount]

/-- Operand registers that are all loaded hold the words. -/
theorem map_opndAt {ws : List Word} {n : Nat} (h : ws.length + 1 = n) : (List.range (n - 1)).map (opndAt ws) = ws := by
  subst h
  apply List.ext_getElem
  · simp
  · intro k _ hk
    simp [opndAt, List.getD, hk]

/-- A legal header but DRAW_TEXT's has as many operand words as its request reads, and the request encodes to them. -/
theorem encode_of_operands (cfg : Config) {opc arg8 : Byte} {ws : List Word} {i : Instr}
    (hl : illegalHeader opc arg8 = false) (hlen : ws.length + 1 = packetLen opc arg8) (htext : opc ≠ 0x05)
    (hf : decodeFields opc arg8 ws [] = some i) : encode cfg i = .packet (header opc arg8 :: ws) := by
  conv_rhs => rw [← map_opndAt hlen]
  rcases opc_of_legal hl with rfl | h | ⟨rfl, rfl | rfl | rfl | rfl | rfl | rfl | rfl⟩
  case inr.inl => exact absurd h htext
  all_goals
    cases hf
    simp only [encode, field16_sext16]
    rfl

/-- The words of a DRAW_TEXT packet of even count are what its request encodes to: there is no padding byte. -/
theorem encode_of_text_words (cfg : Config) {n : Byte} (x y fg bg : Word) {ws : List Word}
    (h : ws.length = (n.toNat + 1) / 2) (heven : n.toNat % 2 = 0) :
    encode cfg (.drawText ((packList ws).take n.toNat) (sext16 x) (sext16 y) fg bg) =
      .packet (header 0x05 n :: x :: y :: fg :: bg :: ws) := by
  have hlen : (packList ws).length = n.toNat := by
    rw [Machine.length_packList]
    omega
  rw [List.take_of_length_le hlen.le]
  simp [encode, hlen, packText_packList]

/-- A whole packet is the encoding of its request, but for the padding byte of a DRAW_TEXT of odd length. -/
theorem encode_of_decodePacket (cfg : Config) {h : Word} {ws : List Word} {i : Instr}
    (hd : decodePacket (h :: ws) = .ok (i, []))
    (heven : ∀ text x y fg bg, i = .drawText text x y fg bg → text.length % 2 = 0) :
    encode cfg i = .packet (h :: ws) := by
  obtain ⟨hl, hlen, hf⟩ := decodePacket_eq_ok_iff.1 hd
  obtain ⟨opc, arg8, rfl⟩ : ∃ opc arg8, h = header opc arg8 := ⟨hi8 h, lo8 h, (joinBytes_hi8_lo8 h).symm⟩
  simp only [hi8_header, lo8_header] at hl hlen hf
  by_cases htext : opc = 0x05
  · subst htext
    rw [packetLen_text] at hlen
    match ws with
    | x :: y :: fg :: bg :: ws =>
      have hws : ws.length = (arg8.toNat + 1) / 2 := by
        simp only [List.length_cons] at hlen
        omega
      rw [decodePacket_text arg8 x y fg bg hws] at hd
      cases hd
      have hn := heven _ _ _ _ _ rfl
      rw [List.length_take, Machine.length_packList] at hn
      exact encode_of_text_words cfg x y fg bg hws (by omega)
    | [] | [_] | [_, _] | [_, _, _] =>
      simp only [List.length_cons, List.length_nil] at hlen
      omega
  · have hfour : ws.length ≤ 4 := by
      rw [packetLen_eq, if_neg (by simp [hl]), if_neg htext] at hlen
      split_ifs at hlen <;> omega
    rw [packetRegisters_operands arg8 hfour] at hf
    exact encode_of_operands cfg hl hlen htext hf

/-- Settles O2: operands read from 16-bit fields are well-formed, and give those fields back. -/
theorem encodeRecoversThePacket : Obligations.EncodeRecoversThePacket := by
  intro cfg ws i hd
  rw [decode_packet_eq_ok_iff] at hd
  cases ws with
  | nil => cases hd
  | cons h ws =>
    obtain ⟨-, -, hf⟩ := decodePacket_eq_ok_iff.1 hd
    exact ⟨decodeFields_wellFormed hf, encode_of_decodePacket cfg hd⟩

/-- Settles O7: five packets, a command byte at its presumed default, and an ILLEGAL header, by evaluation. -/
theorem sampleWordsDecode : Obligations.SampleWordsDecode :=
  ⟨rfl, rfl, rfl, rfl, rfl, rfl⟩

end Sys2Proof

namespace Sys2Proof.Machine

/-! ### Words written to REQ (R21, R80, R87) -/

/-- The state once n turns are used up, the accesses before `rest` are taken off the Host's list, and the Block is b. -/
def State.received (s : State) (n : Nat) (rest : List HostOp) (b : Block) : State :=
  { s with turns := s.turns.drop n, host := ⟨rest, s.host.readLog⟩, block := b }

theorem State.received_received (s : State) (m n : Nat) (rest rest' : List HostOp) (b b' : Block) :
    (s.received m rest b).received n rest' b' = s.received (m + n) rest' b' := by
  simp [State.received]

/-- A Block that waits for a word of a packet takes the Host's REQ write (R21). -/
theorem step_reqWrite {s : State} {w : Word} {rest : List HostOp} (hm : s.block.mode = .idle ∨ s.block.mode = .rx)
    (hp : s.host.pending = .write 0 16 w :: rest) : step s = (s.received 1 rest s.block).acceptWord w := by
  have henabled : s.hostEnabled = true := by
    simp [State.hostEnabled, hp, (Block.reqReady_iff _).2 hm]
  have hbusy : s.block.busy = false := by
    rcases hm with hm | hm <;> simp [Block.busy, hm]
  have hpop : s.popTurn.popHost = s.received 1 rest s.block := by
    simp [State.popTurn, State.popHost, State.received, hp]
  rw [step_host (by simp [State.mover, hbusy, henabled])]
  simp [hostStep, hp, accessOk, hpop]

/-- The last word of a packet runs the request that the registers then hold (R87, R246). -/
theorem step_lastWord {s : State} {w : Word} {rest : List HostOp} {i : Instr} (hm : s.block.mode = .rx)
    (hn : s.block.need = 1) (hp : s.host.pending = .write 0 16 w :: rest)
    (hr : (s.block.loadOperand w).request = some i) :
    step s = exec i (s.received 1 rest (s.block.loadOperand w)) := by
  rw [step_reqWrite (.inr hm) hp]
  simp [State.acceptWord, State.received, hm, State.acceptOperand, State.onBlock, hn, State.dispatch, hr]

/-- A header that is a whole packet runs its request (R87). -/
theorem step_loneHeader {s : State} {h : Word} {rest : List HostOp} {i : Instr} (hm : s.block.mode = .idle)
    (hp : s.host.pending = .write 0 16 h :: rest) (hl : illegalHeader (hi8 h) (lo8 h) = false)
    (hlen : packetLen (hi8 h) (lo8 h) = 1) (hf : decodeFields (hi8 h) (lo8 h) [] [] = some i) :
    step s = exec i (s.received 1 rest (s.block.loadHeader h)) := by
  rw [step_reqWrite (.inl hm) hp]
  simp [State.acceptWord, State.received, hm, State.acceptHeader, State.onBlock, hl, hlen, State.dispatch,
    Block.request, hf]

/-- Settles O8: the last word's step, and the lone header of INIT. -/
theorem stepRunsTheDecodedRequest : Obligations.StepRunsTheDecodedRequest := by
  refine ⟨fun s w rest opc arg8 i hm hn hp ho ha hf => ?_, fun s rest hm hp => ?_⟩
  · have hr : (s.block.loadOperand w).request = some i := by
      simpa [Block.request, Block.loadOperand, ho, ha] using hf
    rw [step_lastWord hm hn hp hr]
    simp [State.received, Block.loadOperand, ha, hn]
  · rw [step_loneHeader hm hp rfl rfl rfl, State.received, List.drop_one]
    rfl

/-! ### A whole packet (R80, R87) -/

/-- Block b once header h and the words ws after it are in the packet's registers, with n words still to come. -/
def Block.receiving (b : Block) (h : Word) (ws : List Word) (n : Nat) : Block :=
  { b with
    opc := some (hi8 h)
    arg8 := some (lo8 h)
    opnd := (packetRegisters (lo8 h) ws).1
    text := (packetRegisters (lo8 h) ws).2
    need := n
    mode := .rx }

theorem Block.loadOperand_receiving (b : Block) (h : Word) (ws : List Word) (n : Nat) (w : Word) :
    (b.receiving h ws (n + 1)).loadOperand w = b.receiving h (ws ++ [w]) n := by
  simp [Block.receiving, Block.loadOperand, packetRegisters]

/-- The registers of a complete packet hold the request that `decodePacket` reads from its words. -/
theorem Block.request_receiving {h : Word} {ws : List Word} {i : Instr} (hd : decodePacket (h :: ws) = .ok (i, []))
    (b : Block) (n : Nat) : (b.receiving h ws n).request = some i := by
  obtain ⟨-, -, hf⟩ := decodePacket_eq_ok_iff.1 hd
  exact hf

/-- A header with words to come makes the Block wait for them (R87). -/
theorem step_openHeader {s : State} {h : Word} {rest : List HostOp} {n : Nat} (hm : s.block.mode = .idle)
    (hp : s.host.pending = .write 0 16 h :: rest) (hl : illegalHeader (hi8 h) (lo8 h) = false)
    (hlen : packetLen (hi8 h) (lo8 h) = n + 2) :
    step s = .next (s.received 1 rest (s.block.receiving h [] (n + 1))) := by
  rw [step_reqWrite (.inl hm) hp]
  simp [State.acceptWord, State.received, hm, State.acceptHeader, State.onBlock, hl, hlen, Block.loadHeader,
    Block.receiving, packetRegisters]

/-- A word that is not the packet's last is stored, and the Block waits on (R87). -/
theorem step_operand {s : State} {b : Block} {h w : Word} {ws : List Word} {n : Nat} {rest : List HostOp}
    (hb : s.block = b.receiving h ws (n + 2)) (hp : s.host.pending = .write 0 16 w :: rest) :
    step s = .next (s.received 1 rest (b.receiving h (ws ++ [w]) (n + 1))) := by
  have hm : s.block.mode = .rx := by rw [hb]; rfl
  rw [step_reqWrite (.inr hm) hp, ← Block.loadOperand_receiving, ← hb]
  have hneed : s.block.need = n + 2 := by rw [hb]; rfl
  simp [State.acceptWord, State.received, hm, State.acceptOperand, State.onBlock, hneed]

/-- The words of a packet but the last are stored one a step. -/
theorem runSteps_operands (b : Block) (h : Word) (rest : List HostOp) (more : List Word) :
    ∀ (s : State) (ws : List Word), s.block = b.receiving h ws (more.length + 1) →
      s.host.pending = more.map (HostOp.write 0 16) ++ rest →
      runSteps more.length s = some (s.received more.length rest (b.receiving h (ws ++ more) 1)) := by
  induction more with
  | nil =>
    intro s ws hb hp
    simp only [List.map_nil, List.nil_append, List.length_nil, List.append_nil] at hb hp ⊢
    rw [← hp, ← hb]
    rfl
  | cons w more ih =>
    intro s ws hb hp
    have hrun := ih (s.received 1 (more.map (HostOp.write 0 16) ++ rest) (b.receiving h (ws ++ [w]) (more.length + 1)))
      (ws ++ [w]) rfl rfl
    rw [State.received_received, Nat.add_comm 1, List.append_assoc] at hrun
    rw [List.length_cons, runSteps, step_operand hb hp]
    exact hrun

/-- The last word of a packet runs the request that `decodePacket` reads from all of them. -/
theorem step_packetEnd {s : State} {b : Block} {h w : Word} {ws : List Word} {rest : List HostOp} {i : Instr}
    (hd : decodePacket (h :: (ws ++ [w])) = .ok (i, [])) (hb : s.block = b.receiving h ws 1)
    (hp : s.host.pending = .write 0 16 w :: rest) :
    step s = exec i (s.received 1 rest (b.receiving h (ws ++ [w]) 0)) := by
  have hload : s.block.loadOperand w = b.receiving h (ws ++ [w]) 0 := by rw [hb, Block.loadOperand_receiving]
  rw [← hload]
  exact step_lastWord (by rw [hb]; rfl) (by rw [hb]; rfl) hp (by rw [hload, Block.request_receiving hd])

/-- Settles O10: the header, the words between, and the last word. -/
theorem packetWordsRunTheRequest : Obligations.PacketWordsRunTheRequest := by
  intro s h ws i rest hd hm hp
  obtain ⟨hl, hlen, hf⟩ := decodePacket_eq_ok_iff.1 hd
  rcases List.eq_nil_or_concat' ws with rfl | ⟨ws, w, rfl⟩
  · refine ⟨s, _, rfl, step_loneHeader hm hp hl hlen.symm hf, rfl, rfl, rfl, rfl, rfl, rfl, ?_⟩
    simp [State.received, Block.loadHeader, hm]
  · rw [List.length_append, List.length_singleton] at hlen ⊢
    have hp : s.host.pending = .write 0 16 h :: (ws.map (HostOp.write 0 16) ++ .write 0 16 w :: rest) := by
      simpa using hp
    have hheader := step_openHeader hm hp hl hlen.symm
    have hwords := runSteps_operands s.block h (.write 0 16 w :: rest) ws
      (s.received 1 _ (s.block.receiving h [] (ws.length + 1))) [] rfl rfl
    rw [State.received_received] at hwords
    rw [runSteps, hheader]
    refine ⟨_, _, hwords, step_packetEnd hd rfl rfl, rfl, rfl, rfl, rfl, rfl, rfl, ?_⟩
    simp [State.received, Block.receiving, packetRegisters]

end Sys2Proof.Machine

/-! The bus transport's statements (spec/40_bus_transport.md): one event a step, the step at a command byte, and the
lines after each kind of event. -/

namespace Sys2Proof.Machine

/-! ### One event a step (R33, R100) -/

/-- The Block after an event, the last one or not: SEQ rises, and only the request's end touches the other fields (R33). -/
theorem Block.eventDone_eq (b : Block) : b.eventDone = { b with
    seq := b.seq + 1
    mode := if b.seq + 1 < b.events.length then b.mode else .idle
    initDone := if b.seq + 1 < b.events.length then b.initDone else (b.initDone || b.initRun)
    initRun := if b.seq + 1 < b.events.length then b.initRun else false
    sb := if b.seq + 1 < b.events.length then b.sb else none } := by
  by_cases h : b.seq + 1 < b.events.length
  · simp only [Block.eventDone_mid h, if_pos h]
  · simp only [Block.eventDone_last h, if_neg h, Block.finish]

/-- Settles O11: the step is `State.afterEvent`, and `Block.eventDone_eq` says what completing the event leaves. -/
theorem stepEmitsOneEvent : Obligations.StepEmitsOneEvent := by
  intro s e hm he
  refine ⟨_, step_event hm he, ?_⟩
  rw [State.afterEvent_block, Block.eventDone_eq, Block.emit_mode, State.popTurn_block, State.mover_block hm]
  exact ⟨rfl, rfl, rfl, rfl, rfl, rfl, rfl, rfl, rfl, rfl, rfl, rfl, rfl, rfl, rfl, rfl⟩

/-! ### The step at a command byte (R100, R200) -/

/-- The Panel runs a command byte of the set as that command (R200). -/
theorem Panel.consume_cmd {cfg : Config} {b : Byte} {c : PanelCmd} (hc : decodeCommand cfg b = some c) (p : Panel) :
    p.consume cfg (.cmd b) = p.command (Panel.effect c) := by
  simp only [Panel.consume, hc]

/-- Settles O9: both sides emit the byte, run the command on the Panel, and complete the event. -/
theorem stepRunsTheDecodedCommand : Obligations.StepRunsTheDecodedCommand := by
  intro s b c hm he hc
  have hpanel : s.popTurn.panel.consume s.popTurn.cfg (.cmd b) = s.panel.command (Panel.effect c) :=
    Panel.consume_cmd hc s.panel
  rw [step_event hm he, State.afterEvent, hpanel, exec_command]
  rfl

/-! ### The lines (R105, R106, R110) -/

/-- A reset event drives the reset line (R105). -/
theorem Lines.transfer_rst {l : Lines} (hcfg : l.cfg = true) (dcCommand v : Bool) :
    l.transfer dcCommand (.rst v) = { l with rst := some v } := by
  simp [Lines.transfer, hcfg]

/-- A delay drives no line, configured or not (R106). -/
theorem Lines.transfer_delay (l : Lines) (dcCommand : Bool) (ms : Nat) : l.transfer dcCommand (.delay ms) = l := by
  simp [Lines.transfer]

/-- A command byte leaves D/C at its command level and chip select inactive (R110). -/
theorem Lines.transfer_cmd {l : Lines} (hcfg : l.cfg = true) (dcCommand : Bool) (b : Byte) :
    l.transfer dcCommand (.cmd b) = { l with dc := some dcCommand, cs := some true } := by
  simp [Lines.transfer, hcfg]

/-- Data bytes leave D/C at the other level and chip select inactive (R110). -/
theorem Lines.transfer_data {l : Lines} (hcfg : l.cfg = true) (dcCommand : Bool) (bs : List Byte) :
    l.transfer dcCommand (.data bs) = { l with dc := some (!dcCommand), cs := some true } := by
  simp [Lines.transfer, hcfg]

/-- Settles O12: completing the event leaves the lines as the transfer left them, one kind of event at a time. -/
theorem eventsDriveTheLines : Obligations.EventsDriveTheLines := by
  intro s e hm he hcfg
  refine ⟨_, step_event hm he, ?_⟩
  rw [State.afterEvent_block, Block.eventDone_lines, Block.emit_lines, State.popTurn_block, State.popTurn_cfg]
  cases e with
  | rst v => exact Lines.transfer_rst hcfg _ v
  | delay ms => exact Lines.transfer_delay _ _ ms
  | cmd b => exact Lines.transfer_cmd hcfg _ b
  | data bs => exact Lines.transfer_data hcfg _ bs

end Sys2Proof.Machine

/-! The controller protocol's statements (spec/41_controller_protocol.md): every drawing expansion as a sequence of framed
windows, and the start of the power-on sequence. -/

namespace Sys2Proof.Machine

/-! ### Framed windows (R125 to R129) -/

/-- A window (x0, y0, x1, y1) with the data events of its stream. -/
abbrev Frame := (Int × Int × Int × Int) × List (List Byte)

/-- SetWindow on the frame's window, directly followed by its stream (R128). -/
def Frame.events (cfg : Config) : Frame → List BusEvent
  | ((x0, y0, x1, y1), stream) => setWindow cfg x0 y0 x1 y1 ++ stream.map .data

/-- A window with its bounds in order and on the screen (R127). -/
abbrev WindowOnScreen (x0 y0 x1 y1 : Int) : Prop :=
  0 ≤ x0 ∧ x0 ≤ x1 ∧ x1 ≤ dispW - 1 ∧ 0 ≤ y0 ∧ y0 ≤ y1 ∧ y1 ≤ dispH - 1

/-- A stream has 2 bytes for each cell of its window, in data events of 1 to 320 bytes (R129). -/
abbrev StreamFills (x0 y0 x1 y1 : Int) (stream : List (List Byte)) : Prop :=
  ((stream.map List.length).sum : Int) = 2 * ((x1 - x0 + 1) * (y1 - y0 + 1)) ∧
  ∀ bs ∈ stream, 1 ≤ bs.length ∧ bs.length ≤ 320

/-- The events are frames one after the other, each on the screen and filled by its stream. -/
def Framed (cfg : Config) (E : List BusEvent) : Prop :=
  ∃ frames : List Frame, E = frames.flatMap (Frame.events cfg) ∧
    ∀ f ∈ frames, WindowOnScreen f.1.1 f.1.2.1 f.1.2.2.1 f.1.2.2.2 ∧
      StreamFills f.1.1 f.1.2.1 f.1.2.2.1 f.1.2.2.2 f.2

section
variable {cfg : Config}

theorem Framed.nil : Framed cfg [] := ⟨[], rfl, by simp⟩

theorem Framed.append {E F : List BusEvent} (hE : Framed cfg E) (hF : Framed cfg F) : Framed cfg (E ++ F) := by
  obtain ⟨fs, rfl, hfs⟩ := hE
  obtain ⟨gs, rfl, hgs⟩ := hF
  exact ⟨fs ++ gs, List.flatMap_append.symm, List.forall_mem_append.2 ⟨hfs, hgs⟩⟩

theorem Framed.window {x0 y0 x1 y1 : Int} (hw : WindowOnScreen x0 y0 x1 y1) {stream : List (List Byte)}
    (hs : StreamFills x0 y0 x1 y1 stream) : Framed cfg (setWindow cfg x0 y0 x1 y1 ++ stream.map .data) :=
  ⟨[((x0, y0, x1, y1), stream)], (List.flatMap_singleton _ _).symm, by simpa using ⟨hw, hs⟩⟩

/-- A window filled by one data event. -/
theorem Framed.window_data {x0 y0 x1 y1 : Int} (hw : WindowOnScreen x0 y0 x1 y1) {bs : List Byte}
    (hlen : (bs.length : Int) = 2 * ((x1 - x0 + 1) * (y1 - y0 + 1))) (hmax : bs.length ≤ 320) :
    Framed cfg (setWindow cfg x0 y0 x1 y1 ++ [.data bs]) := by
  have hcells : 0 < (x1 - x0 + 1) * (y1 - y0 + 1) := mul_pos (by omega) (by omega)
  exact Framed.window hw (stream := [bs]) ⟨by simpa using hlen, List.forall_mem_singleton.2 ⟨by omega, hmax⟩⟩

/-! ### The expansion of each request -/

theorem framed_clearEvents (c : Word) : Framed cfg (clearEvents cfg c) := by
  have hs : StreamFills 0 0 159 127 (List.replicate dispH (packRun c dispW)) := by
    refine ⟨by simp [length_packRun], fun bs hbs => ?_⟩
    rw [List.eq_of_mem_replicate hbs, length_packRun]
    decide
  simpa [clearEvents] using Framed.window (cfg := cfg) (by decide) hs

theorem framed_pixelEvents (x y : Int) (c : Word) : Framed cfg (pixelEvents cfg x y c) := by
  unfold pixelEvents
  split_ifs with hin
  · exact Framed.window_data (by omega) (by simp) (by simp)
  · exact Framed.nil

theorem framed_glyphEvents (code : Byte) (x y : Int) (fg bg : Word) : Framed cfg (glyphEvents cfg code x y fg bg) := by
  unfold glyphEvents
  split_ifs with hin
  · refine Framed.window_data (by omega) ?_ (by rw [length_raster]; decide)
    rw [length_raster]
    ring
  · exact Framed.nil

theorem framed_textEvents (y : Int) (fg bg : Word) (text : List Byte) :
    ∀ cx, Framed cfg (textEvents cfg y fg bg cx text) := by
  induction text with
  | nil => exact fun _ => Framed.nil
  | cons c text ih =>
    intro cx
    unfold textEvents
    split_ifs
    · exact Framed.nil
    · exact (framed_glyphEvents c cx y fg bg).append (ih _)

theorem framed_blockEvents (x y : Int) (c : Word) : Framed cfg (blockEvents cfg x y c) := by
  unfold blockEvents
  split_ifs with hin
  · refine Framed.window_data (by omega) ?_ (by rw [length_packRun]; decide)
    rw [length_packRun]
    ring
  · exact Framed.nil

theorem framed_hlineEvents (xs xe y : Int) (c : Word) : Framed cfg (hlineEvents cfg xs xe y c) := by
  have hW : ((dispW : Nat) : Int) = 160 := rfl
  unfold hlineEvents clampStart clampEnd
  dsimp only
  split_ifs with hin
  · refine Framed.window_data (by omega) ?_ (by rw [length_packRun]; omega)
    rw [length_packRun, sub_self, zero_add, mul_one]
    omega
  · exact Framed.nil

theorem framed_vlineEvents (ys ye x : Int) (c : Word) : Framed cfg (vlineEvents cfg ys ye x c) := by
  have hH : ((dispH : Nat) : Int) = 128 := rfl
  unfold vlineEvents clampStart clampEnd
  dsimp only
  split_ifs with hin
  · refine Framed.window_data (by omega) ?_ (by rw [length_packRun]; omega)
    rw [length_packRun, sub_self, zero_add, one_mul]
    omega
  · exact Framed.nil

/-- The outline is its four edges' frames; an edge off the screen has none (R160). -/
theorem framed_squareEvents (cx cy size : Int) (c : Word) : Framed cfg (squareEvents cfg cx cy size c) := by
  unfold squareEvents
  dsimp only
  split_ifs
  · exact (((framed_hlineEvents _ _ _ c).append (framed_vlineEvents _ _ _ c)).append
      (framed_hlineEvents _ _ _ c)).append (framed_vlineEvents _ _ _ c)
  · exact Framed.nil

/-- Every drawing request's expansion is a sequence of framed windows (R127 to R129). -/
theorem framed_drawExpansion {i : Instr} {E : List BusEvent} (hE : drawExpansion cfg i = some E) : Framed cfg E := by
  cases i <;> simp only [drawExpansion, Option.some.injEq, reduceCtorEq] at hE <;> subst hE
  case clear c => exact framed_clearEvents c
  case drawPixel x y c => exact framed_pixelEvents x y c
  case drawGlyph code x y fg bg => exact framed_glyphEvents code x y fg bg
  case drawText text x y fg bg => exact framed_textEvents y fg bg text x
  case drawSmallBlock x y c => exact framed_blockEvents x y c
  case drawHline xs xe y c => exact framed_hlineEvents xs xe y c
  case drawVline ys ye x c => exact framed_vlineEvents ys ye x c
  case drawSquareOutline cx cy size c => exact framed_squareEvents cx cy size c

end

/-- Settles O34: `Framed`, with SetWindow's five events written out. -/
theorem expansionsAreFramedWindows : Obligations.ExpansionsAreFramedWindows := by
  intro cfg i E hE
  obtain ⟨frames, hframes, hok⟩ := framed_drawExpansion hE
  refine ⟨frames, hframes, fun f hf => ?_⟩
  obtain ⟨⟨hx0, hx, hx1, hy0, hy, hy1⟩, hsum, hsizes⟩ := hok f hf
  exact ⟨hx0, hx, hx1, hy0, hy, hy1, hsum, hsizes⟩

/-! ### INIT (R101, R120, R152) -/

/-- The first INIT with the claim granted configures the lines and starts the power-on sequence. -/
theorem State.startInit_granted {s : State} (hi : s.block.initDone = false) (hc : s.env.claim = true) :
    s.startInit = { s with
      env := s.env.drawn
      block := ({ s.block with lines := Lines.configure s.cfg.spiClkHz } : Block).begin true (powerOn s.cfg) } := by
  simp [State.startInit, hi, hc]

/-- Settles O24: the power-on sequence is not empty, so the Block is busy with it. -/
theorem initStartsThePowerOnSequence : Obligations.InitStartsThePowerOnSequence :=
  ⟨rfl, fun s hi hc => congrArg Host.Outcome.next (s.startInit_granted hi hc)⟩

end Sys2Proof.Machine

/-! The glyph table's statements (spec/42_glyph_table.md): the raster, pixel by pixel, and what is fixed of the glyph
ROM. -/

namespace Sys2Proof.Machine

/-! ### The raster (R143 to R145) -/

/-- Settles O35: a pixel is its `glyphColor`, whichever color is named fg, so swapping the two swaps every pixel. -/
theorem rasterSelectsByGlyphBit : Obligations.RasterSelectsByGlyphBit := fun code fg bg =>
  ⟨rfl, length_glyphPixels code fg bg, length_raster code fg bg, fun _ _ hr hk =>
    ⟨getElem?_glyphPixels code fg bg hr hk, getElem?_glyphPixels code bg fg hr hk⟩⟩

/-! ### The glyph ROM (R140 to R142) -/

theorem requiredChar_iff (c : Byte) : requiredChar c = true ↔
    (0x30 ≤ c.toNat ∧ c.toNat ≤ 0x39) ∨ c ∈ ([0x20, 0x3A, 0x2B, 0x2D, 0x2A, 0x48] : List Byte) := by
  simp [requiredChar, or_assoc]

theorem upperLetter_iff (c : Byte) : upperLetter c = true ↔ 0x41 ≤ c.toNat ∧ c.toNat ≤ 0x5A := by
  simp [upperLetter]

theorem supportedChar_of_requiredChar {c : Byte} (h : requiredChar c = true) : supportedChar c = true := by
  simp [supportedChar, h]

/-- Whatever the free choice of letters, nothing else is supported (R141 item 2). -/
theorem requiredChar_or_upperLetter {c : Byte} (h : supportedChar c = true) :
    requiredChar c = true ∨ upperLetter c = true := by
  simp only [supportedChar, Bool.or_eq_true, Bool.and_eq_true] at h
  exact h.imp_right And.left

theorem glyphRom_ne_none_iff (c : Byte) : glyphRom c ≠ none ↔ supportedChar c = true := by
  simp [glyphRom]

theorem glyphRows_of_supportedChar {c : Byte} (h : supportedChar c = true) : (glyphRows c).toList =
    [romRow c 0, romRow c 1, romRow c 2, romRow c 3, romRow c 4, romRow c 5, romRow c 6, romRow c 7] := by
  simp [glyphRows, glyphRom, h]

theorem glyphRows_of_glyphRom_none {c : Byte} (h : glyphRom c = none) : glyphRows c = blankGlyph := by
  simp [glyphRows, h]

theorem rowPixels_zero (fg bg : Word) : rowPixels fg bg 0 = List.replicate 8 bg := rfl

/-- The blank glyph has no foreground pixel. -/
theorem glyphPixels_of_glyphRom_none {c : Byte} (h : glyphRom c = none) (fg bg : Word) :
    glyphPixels c fg bg = List.replicate 64 bg := by
  have hrows : blankGlyph.toList = List.replicate 8 0 := rfl
  rw [glyphPixels, glyphRows_of_glyphRom_none h, hrows, List.flatMap_replicate, rowPixels_zero,
    List.flatten_replicate_replicate]

theorem raster_of_glyphRom_none {c : Byte} (h : glyphRom c = none) (fg bg : Word) : raster c fg bg = packRun bg 64 := by
  rw [raster, glyphPixels_of_glyphRom_none h, packRun_eq]

/-- Settles O36: the supported set lies between the required characters and those with the uppercase letters; 'H' is one
of both. -/
theorem glyphRomConstraints : Obligations.GlyphRomConstraints := by
  refine ⟨fun c hc => ?required, fun c hc => ?only, ?rowOfH, fun c hc => ?blank⟩
  case required =>
    exact (glyphRom_ne_none_iff c).2 (supportedChar_of_requiredChar ((requiredChar_iff c).2 hc))
  case only =>
    rcases requiredChar_or_upperLetter ((glyphRom_ne_none_iff c).1 hc) with hreq | hup
    · rcases (requiredChar_iff c).1 hreq with hdigit | hmem
      · exact .inl hdigit
      · rcases List.mem_append.1 (show c ∈ ([0x20, 0x3A, 0x2B, 0x2D, 0x2A] ++ [0x48] : List Byte) from hmem)
          with hother | hH
        · exact .inr (.inl hother)
        · rw [List.mem_singleton.1 hH]
          exact .inr (.inr (by decide))
    · exact .inr (.inr ((upperLetter_iff c).1 hup))
  case rowOfH =>
    rw [glyphRows_of_supportedChar (supportedChar_of_requiredChar (by decide))]
    rfl
  case blank =>
    exact ⟨glyphRows_of_glyphRom_none hc, raster_of_glyphRom_none hc⟩

end Sys2Proof.Machine

/-! The rendering primitives' statements (spec/43_rendering_primitives.md), first part: the expansion of each drawing
request, from its packet's words to its bus events. -/

namespace Sys2Proof

/-- A packet without text words: its words are its operand registers (R82, R87). -/
theorem decodePacket_operands {opc arg8 : Byte} {ws : List Word} {i : Instr} (hl : illegalHeader opc arg8 = false)
    (hlen : ws.length + 1 = packetLen opc arg8) (hfour : ws.length ≤ 4)
    (hf : decodeFields opc arg8 ws [] = some i) : decodePacket (header opc arg8 :: ws) = .ok (i, []) := by
  rw [decodePacket_eq_ok_iff, hi8_header, lo8_header, packetRegisters_operands arg8 hfour]
  exact ⟨hl, hlen, hf⟩

end Sys2Proof

namespace Sys2Proof.Machine

/-! ### The dispatch of an expansion (R24, R33) -/

/-- After INIT a drawing request makes the Block busy with its expansion; an empty one is over at once. -/
theorem exec_draw_begin {s : State} {i : Instr} {E : List BusEvent} (hi : s.block.initDone = true)
    (hE : drawExpansion s.cfg i = some E) :
    exec i s = .next { s with block := { s.block with
      events := E, seq := 0, initRun := false, mode := if E = [] then .idle else .exec } } := by
  rw [exec_draw hE, State.draw, if_pos hi]
  rfl

/-- A request that frames one window or does nothing. -/
theorem exec_draw_window {s : State} {i : Instr} {P : Prop} [Decidable P] {x0 y0 x1 y1 : Int} {bs : List Byte}
    (hi : s.block.initDone = true)
    (hE : drawExpansion s.cfg i = some (if P then setWindow s.cfg x0 y0 x1 y1 ++ [.data bs] else [])) :
    exec i s = .next { s with block := { s.block with
      events := if P then setWindow s.cfg x0 y0 x1 y1 ++ [.data bs] else []
      seq := 0, initRun := false, mode := if P then .exec else .idle } } := by
  rw [exec_draw_begin hi hE]
  by_cases hP : P
  · simp only [if_pos hP, setWindow, List.cons_append, reduceCtorEq, if_false]
  · simp only [if_neg hP, if_true]

/-! ### One window, in the numbers of the screen (R153 to R159) -/

section
variable (cfg : Config)

theorem pixelEvents_eq (x y : Int) (c : Word) : pixelEvents cfg x y c =
    if 0 ≤ x ∧ x ≤ 159 ∧ 0 ≤ y ∧ y ≤ 127 then setWindow cfg x y x y ++ [.data (pack c)] else [] :=
  if_congr and_assoc rfl rfl

theorem glyphEvents_eq (code : Byte) (x y : Int) (fg bg : Word) : glyphEvents cfg code x y fg bg =
    if 0 ≤ x ∧ x ≤ 152 ∧ 0 ≤ y ∧ y ≤ 120 then
      setWindow cfg x y (x + 7) (y + 7) ++ [.data (raster code fg bg)] else [] :=
  if_congr (by simp only [dispW, dispH]; omega) rfl rfl

theorem blockEvents_eq (x y : Int) (c : Word) : blockEvents cfg x y c =
    if 0 ≤ x ∧ x ≤ 158 ∧ 0 ≤ y ∧ y ≤ 126 then
      setWindow cfg x y (x + 1) (y + 1) ++ [.data (packRun c 4)] else [] := rfl

theorem hlineEvents_eq (xs xe y : Int) (c : Word) : hlineEvents cfg xs xe y c =
    if 0 ≤ y ∧ y ≤ 127 ∧ max xs 0 ≤ min xe 159 then
      setWindow cfg (max xs 0) y (min xe 159) y ++ [.data (packRun c (min xe 159 - max xs 0 + 1).toNat)] else [] :=
  if_congr and_assoc rfl rfl

theorem vlineEvents_eq (ys ye x : Int) (c : Word) : vlineEvents cfg ys ye x c =
    if 0 ≤ x ∧ x ≤ 159 ∧ max ys 0 ≤ min ye 127 then
      setWindow cfg x (max ys 0) x (min ye 127) ++ [.data (packRun c (min ye 127 - max ys 0 + 1).toNat)] else [] :=
  if_congr and_assoc rfl rfl

end

/-- Settles O25: CLEAR's expansion is never empty. -/
theorem clearExpansion : Obligations.ClearExpansion :=
  ⟨fun _ => rfl, fun s c hi => exec_draw_begin (E := clearEvents s.cfg c) hi rfl⟩

/-- Settles O26, by `pixelEvents_eq`. -/
theorem drawPixelExpansion : Obligations.DrawPixelExpansion :=
  ⟨fun _ _ _ => rfl, fun s x y c hi => exec_draw_window hi (congrArg some (pixelEvents_eq s.cfg x y c))⟩

/-- Settles O27, by `glyphEvents_eq`; any code makes a legal header. -/
theorem drawGlyphExpansion : Obligations.DrawGlyphExpansion := by
  refine ⟨fun code w1 w2 w3 w4 => ?_, fun s code x y fg bg hi =>
    exec_draw_window hi (congrArg some (glyphEvents_eq s.cfg code x y fg bg))⟩
  exact decodePacket_operands (by simp [illegalHeader]) (packetLen_glyph code).symm (le_refl 4) rfl

/-- Settles O29, by `blockEvents_eq`. -/
theorem drawSmallBlockExpansion : Obligations.DrawSmallBlockExpansion :=
  ⟨fun _ _ _ => rfl, fun s x y c hi => exec_draw_window hi (congrArg some (blockEvents_eq s.cfg x y c))⟩

/-- Settles O30, by `hlineEvents_eq` and `vlineEvents_eq`. -/
theorem drawLineExpansions : Obligations.DrawLineExpansions :=
  ⟨fun _ _ _ _ => ⟨rfl, rfl⟩, fun s v0 v1 w c hi =>
    ⟨exec_draw_window hi (congrArg some (hlineEvents_eq s.cfg v0 v1 w c)),
      exec_draw_window hi (congrArg some (vlineEvents_eq s.cfg v0 v1 w c))⟩⟩

/-- Settles O33: the run from x to x is the one cell x, or empty where x is off the screen. -/
theorem pixelIsAOnePixelLine : Obligations.PixelIsAOnePixelLine := by
  intro cfg x y c
  have hline : hlineEvents cfg x x y c = pixelEvents cfg x y c := by
    rw [hlineEvents_eq, pixelEvents_eq]
    by_cases hx : 0 ≤ x ∧ x ≤ 159
    · rw [max_eq_left hx.1, min_eq_left hx.2, sub_self]
      exact if_congr (by omega) (by rw [← packRun_one]; rfl) rfl
    · rw [if_neg (by omega), if_neg (by omega)]
  exact ⟨congrArg some hline.symm, congrArg some hline⟩

/-! ### DRAW_SQUARE_OUTLINE (R160) -/

theorem squareEvents_of_off_screen (cfg : Config) {cx cy : Int} (hc : ¬ (inX cx ∧ inY cy)) (size : Int) (c : Word) :
    squareEvents cfg cx cy size c = [] := if_neg hc

/-- The four edges of the box with half side h, the floor of half its side. -/
theorem squareEvents_of_on_screen (cfg : Config) {cx cy size h : Int} (hc : inX cx ∧ inY cy)
    (hh : 2 * h ≤ size + 4 ∧ size + 4 < 2 * h + 2) (c : Word) : squareEvents cfg cx cy size c =
      hlineEvents cfg (cx - h) (cx - h + (size + 4) - 1 - 1) (cy - h) c ++
      vlineEvents cfg (cy - h) (cy - h + (size + 4) - 1 - 1) (cx - h + (size + 4) - 1) c ++
      hlineEvents cfg (cx - h + 1) (cx - h + (size + 4) - 1) (cy - h + (size + 4) - 1) c ++
      vlineEvents cfg (cy - h + 1) (cy - h + (size + 4) - 1) (cx - h) c := by
  obtain rfl : h = (size + 4) / 2 := by omega
  exact if_pos hc

/-- Settles O31, by the two cases of the center; the bounds on h leave the floor of half the side. -/
theorem drawSquareOutlineExpansion : Obligations.DrawSquareOutlineExpansion := by
  refine ⟨fun _ _ _ _ => rfl, fun s cx cy size c hi => ⟨_, exec_draw_begin hi rfl, fun hc => ?_, ?_⟩⟩
  · exact squareEvents_of_off_screen s.cfg (fun h => hc (and_assoc.1 h)) size c
  · rintro hc h x0 y0 x1 y1 hh rfl rfl rfl rfl
    exact squareEvents_of_on_screen s.cfg (and_assoc.2 hc) hh c

/-! ### DRAW_TEXT (R156, R164, R166) -/

section
variable (cfg : Config) (y : Int) (fg bg : Word)

theorem glyphEvents_eq_nil {x : Int} (h : ¬ (0 ≤ x ∧ x ≤ 152 ∧ 0 ≤ y ∧ y ≤ 120)) (code : Byte) :
    glyphEvents cfg code x y fg bg = [] := by
  rw [glyphEvents_eq, if_neg h]

theorem length_glyphEvents (code : Byte) (x : Int) : (glyphEvents cfg code x y fg bg).length =
    if 0 ≤ x ∧ x ≤ 152 ∧ 0 ≤ y ∧ y ≤ 120 then 6 else 0 := by
  rw [glyphEvents_eq]
  split_ifs <;> rfl

theorem textEvents_of_end {cx : Int} (h : 152 < cx) (text : List Byte) : textEvents cfg y fg bg cx text = [] := by
  cases text with
  | nil => rfl
  | cons c text => exact if_pos (show 159 < cx + 7 by omega)

theorem textEvents_cons {cx : Int} (h : cx ≤ 152) (c : Byte) (text : List Byte) :
    textEvents cfg y fg bg cx (c :: text) = glyphEvents cfg c cx y fg bg ++ textEvents cfg y fg bg (cx + 9) text :=
  if_neg (show ¬ 159 < cx + 7 by omega)

/-- The loop ends at the first character past column 152 (R156). -/
theorem textEvents_eq_takeWhile (x : Int) (text : List Byte) : ∀ k : Nat, textEvents cfg y fg bg (x + 9 * k) text =
    ((text.zipIdx k).takeWhile fun ck => decide (x + 9 * (ck.2 : Int) ≤ 152)).flatMap fun ck =>
      glyphEvents cfg ck.1 (x + 9 * ck.2) y fg bg := by
  induction text with
  | nil => exact fun _ => rfl
  | cons c text ih =>
    intro k
    by_cases h : x + 9 * (k : Int) ≤ 152
    · rw [textEvents_cons cfg y fg bg h, List.zipIdx_cons, List.takeWhile_cons_of_pos (by simpa using h),
        List.flatMap_cons, ← ih (k + 1)]
      push_cast
      ring_nf
    · rw [textEvents_of_end cfg y fg bg (by omega), List.zipIdx_cons, List.takeWhile_cons_of_neg (by simpa using h)]
      rfl

/-- The characters past that end would draw nothing, so the loop is the glyphs of all characters (R164). -/
theorem textEvents_eq_flatMap (x : Int) (text : List Byte) : ∀ k : Nat, textEvents cfg y fg bg (x + 9 * k) text =
    (text.zipIdx k).flatMap fun ck => glyphEvents cfg ck.1 (x + 9 * ck.2) y fg bg := by
  induction text with
  | nil => exact fun _ => rfl
  | cons c text ih =>
    intro k
    by_cases h : x + 9 * (k : Int) ≤ 152
    · rw [textEvents_cons cfg y fg bg h, List.zipIdx_cons, List.flatMap_cons, ← ih (k + 1)]
      push_cast
      ring_nf
    · rw [textEvents_of_end cfg y fg bg (by omega), eq_comm, List.flatMap_eq_nil_iff]
      intro ck hck
      have hk : k ≤ ck.2 := List.le_snd_of_mem_zipIdx hck
      exact glyphEvents_eq_nil cfg y fg bg (by omega) ck.1

/-- How many 9-column steps from column cx start on or before column 152; columns left of the screen draw nothing. -/
def glyphsLeft (cx : Int) : Nat := ((161 - max cx 0) / 9).toNat

theorem length_textEvents_le (text : List Byte) :
    ∀ cx, (textEvents cfg y fg bg cx text).length ≤ 6 * glyphsLeft cx := by
  induction text with
  | nil => exact fun _ => Nat.zero_le _
  | cons c text ih =>
    intro cx
    by_cases h : cx ≤ 152
    · have hrest := ih (cx + 9)
      rw [textEvents_cons cfg y fg bg h, List.length_append, length_glyphEvents]
      simp only [glyphsLeft] at hrest ⊢
      split_ifs <;> omega
    · rw [textEvents_of_end cfg y fg bg (by omega)]
      exact Nat.zero_le _

/-- From a column on the screen, with y in range, as many glyphs are drawn as fit or as the text has. -/
theorem length_textEvents (hy : 0 ≤ y ∧ y ≤ 120) (text : List Byte) : ∀ cx, 0 ≤ cx →
    (textEvents cfg y fg bg cx text).length = 6 * min text.length (glyphsLeft cx) := by
  induction text with
  | nil => simp [textEvents]
  | cons c text ih =>
    intro cx h0
    by_cases h : cx ≤ 152
    · have hrest := ih (cx + 9) (by omega)
      rw [textEvents_cons cfg y fg bg h, List.length_append, length_glyphEvents, if_pos ⟨h0, h, hy⟩, hrest,
        List.length_cons]
      simp only [glyphsLeft]
      omega
    · rw [textEvents_of_end cfg y fg bg (by omega)]
      simp only [glyphsLeft, List.length_nil]
      omega

end

/-- Settles O28: the glyph sequence, in both forms, and its length. -/
theorem drawTextExpansion : Obligations.DrawTextExpansion := by
  intro s text x y fg bg hi
  have hglyphs := textEvents_eq_flatMap s.cfg y fg bg x text 0
  have htake := textEvents_eq_takeWhile s.cfg y fg bg x text 0
  rw [Nat.cast_zero, mul_zero, add_zero] at hglyphs htake
  simp only [glyphEvents_eq] at hglyphs
  refine ⟨_, exec_draw_begin hi rfl, hglyphs, htake, fun ck _ h => ?_, ?_, fun h0 h8 hn hy0 hy => ?_⟩
  · exact glyphEvents_eq_nil s.cfg y fg bg (by omega) ck.1
  · refine (length_textEvents_le s.cfg y fg bg text x).trans ?_
    simp only [glyphsLeft]
    omega
  · rw [length_textEvents s.cfg y fg bg ⟨hy0, hy⟩ text x h0]
    simp only [glyphsLeft]
    omega

/-! ### Anchors off the screen (R161) -/

theorem textEvents_of_off_screen (cfg : Config) {x y : Int} (h : 160 ≤ x ∨ 128 ≤ y) (fg bg : Word) (text : List Byte) :
    textEvents cfg y fg bg x text = [] := by
  have hglyphs := textEvents_eq_flatMap cfg y fg bg x text 0
  rw [Nat.cast_zero, mul_zero, add_zero] at hglyphs
  rw [hglyphs, List.flatMap_eq_nil_iff]
  exact fun ck _ => glyphEvents_eq_nil cfg y fg bg (by omega) ck.1

/-- The requests whose anchor has to be on the screen (R154, R155, R157, R160). -/
theorem anchored_eq_nil (cfg : Config) {x y : Int} (h : ¬ (0 ≤ x ∧ x ≤ 159 ∧ 0 ≤ y ∧ y ≤ 127)) (c fg bg : Word) :
    pixelEvents cfg x y c = [] ∧ (∀ code, glyphEvents cfg code x y fg bg = []) ∧ blockEvents cfg x y c = [] ∧
    ∀ size, squareEvents cfg x y size c = [] := by
  refine ⟨?_, glyphEvents_eq_nil cfg y fg bg (by omega), ?_,
    fun size => squareEvents_of_off_screen cfg (fun hc => h (and_assoc.1 hc)) size c⟩
  · rw [pixelEvents_eq, if_neg h]
  · rw [blockEvents_eq, if_neg (by omega)]

/-- Settles O32: a text's and a line's anchor may only be off the screen to the left or above. -/
theorem outOfRangeAnchorsEmitNothing : Obligations.OutOfRangeAnchorsEmitNothing := by
  refine ⟨fun cfg x y c fg bg h => ?far, fun cfg x y c fg bg h => ?negative, fun _ _ => ⟨_, _, rfl⟩⟩
  all_goals
    obtain ⟨hpixel, hglyph, hblock, hsquare⟩ := anchored_eq_nil cfg (x := x) (y := y) (by omega) c fg bg
    simp only [drawExpansion, Option.some.injEq]
  case far =>
    refine ⟨hpixel, hglyph, textEvents_of_off_screen cfg h fg bg, hblock, fun xe => ?_, fun ye => ?_, hsquare⟩
    · rw [hlineEvents_eq, if_neg (by omega)]
    · rw [vlineEvents_eq, if_neg (by omega)]
  case negative => exact ⟨hpixel, hglyph, hblock, hsquare⟩

end Sys2Proof.Machine
/-! The rendering primitives' statements, second part: each request run to its end, in GRAM. -/

namespace Sys2Proof.Machine

/-! ### Drawing requests (R153 to R160, R225) -/

theorem State.CanDraw.legal {s : State} (hs : s.CanDraw) : s.cfg.Legal := hs.1

theorem State.CanDraw.panelReady {s : State} (hs : s.CanDraw) : s.panel.Ready := hs.2.2.1

/-- A drawing request run to its end leaves the Panel as its expansion does, ready, and the Block idle. -/
theorem runRequest_of_canDraw {s : State} (hs : s.CanDraw) {i : Instr} {E : List BusEvent}
    (hE : drawExpansion s.cfg i = some E) :
    ∃ t, runRequest i s = some t ∧ t.panel.Ready ∧ t.block.mode = .idle ∧ t.panel = s.panel.consumeAll s.cfg E := by
  obtain ⟨hl, hi, hready, ht⟩ := hs
  obtain ⟨t, hrun, hidle, hpanel, -, -⟩ := runRequest_draw hE hi ht
  exact ⟨t, hrun, hpanel ▸ Panel.draw_ready hl hready hE, hidle, hpanel⟩

/-- What the expansion does to every cell is what the request, run to its end, does to it. -/
theorem runRequest_cells {s : State} (hs : s.CanDraw) {i : Instr} {E : List BusEvent}
    (hE : drawExpansion s.cfg i = some E) {after : Nat → Nat → Option Word}
    (hcells : ∀ a b, (s.panel.consumeAll s.cfg E).cell a b = after a b) :
    ∃ t, runRequest i s = some t ∧ t.panel.Ready ∧ t.block.mode = .idle ∧ ∀ a b, t.panel.cell a b = after a b := by
  obtain ⟨t, hrun, hready, hidle, hpanel⟩ := runRequest_of_canDraw hs hE
  exact ⟨t, hrun, hready, hidle, hpanel ▸ hcells⟩

/-- The same for the cells of the screen. -/
theorem runRequest_screen {s : State} (hs : s.CanDraw) {i : Instr} {E : List BusEvent}
    (hE : drawExpansion s.cfg i = some E) {after : Nat → Nat → Option Word}
    (hcells : ∀ a b, a < 160 → b < 128 → (s.panel.consumeAll s.cfg E).cell a b = after a b) :
    ∃ t, runRequest i s = some t ∧ t.panel.Ready ∧ t.block.mode = .idle ∧
      ∀ a b, a < 160 → b < 128 → t.panel.cell a b = after a b := by
  obtain ⟨t, hrun, hready, hidle, hpanel⟩ := runRequest_of_canDraw hs hE
  exact ⟨t, hrun, hready, hidle, hpanel ▸ hcells⟩

/-- Settles O50: every cell of the screen is in CLEAR's window. -/
theorem clearFillsTheScreen : Obligations.ClearFillsTheScreen := by
  refine fun s c hs => runRequest_screen hs rfl fun a b ha hb => ?_
  have hin : InWindow 0 0 159 127 a b := by
    simp only [InWindow]
    omega
  rw [(Panel.clear_cells hs.legal hs.panelReady c).2, if_pos hin]

/-- Settles O51, by the cells of their one window each. -/
theorem pixelAndBlockSetTheirCells : Obligations.PixelAndBlockSetTheirCells := fun _ x y c hs =>
  ⟨runRequest_cells hs rfl (Panel.pixel_cells hs.legal hs.panelReady x y c).2,
    runRequest_cells hs rfl (Panel.block_cells hs.legal hs.panelReady x y c).2⟩

/-- Settles O52, by the cells of the glyph's window. -/
theorem glyphSetsItsCells : Obligations.GlyphSetsItsCells := fun _ code x y fg bg hs =>
  runRequest_cells hs rfl (Panel.glyph_cells hs.legal hs.panelReady code x y fg bg).2

/-- Settles O54, by the cells of the clamped run. -/
theorem linesSetTheirCells : Obligations.LinesSetTheirCells := fun _ v0 v1 w c hs =>
  ⟨runRequest_screen hs rfl (Panel.hline_cells hs.legal hs.panelReady v0 v1 w c).2,
    runRequest_screen hs rfl (Panel.vline_cells hs.legal hs.panelReady v0 v1 w c).2⟩

/-- Settles O55: the half side of R160 is the one that the statement's bounds on h leave. -/
theorem squareOutlineSetsThePerimeter : Obligations.SquareOutlineSetsThePerimeter := by
  rintro s cx cy size h x0 y0 x1 y1 c hs hh rfl rfl rfl rfl
  obtain rfl : h = (size + 4) / 2 := by omega
  refine runRequest_screen hs rfl fun a b ha hb => ?_
  rw [(Panel.square_cells hs.legal hs.panelReady cx cy size c).2 a b ha hb]
  have hcenter : (inX cx ∧ inY cy ∧ 2 ≤ size + 4) ↔ 0 ≤ cx ∧ cx ≤ 159 ∧ 0 ≤ cy ∧ cy ≤ 127 ∧ 2 ≤ size + 4 := by
    simp only [inX, inY, dispW, dispH]
    omega
  exact if_congr (and_congr_left' hcenter) rfl rfl

/-! ### DRAW_TEXT (R156, R164) -/

/-- A glyph at (x, y) fits on the screen, and cell (a, b) is one of its 64. -/
abbrev GlyphCell (x y : Int) (a b : Nat) : Prop :=
  (0 ≤ x ∧ x ≤ 152 ∧ 0 ≤ y ∧ y ≤ 120) ∧ InWindow x y (x + 7) (y + 7) a b

/-- The loop of DRAW_TEXT sets the cells of each glyph that fits, and no other: glyphs 9 columns apart do not overlap. -/
theorem Panel.text_cells {cfg : Config} (hl : cfg.Legal) (y : Int) (fg bg : Word) (text : List Byte) :
    ∀ (p : Panel), p.Ready → ∀ x : Int,
      (∀ (k : Nat) (code : Byte), text[k]? = some code → ∀ a b : Nat, GlyphCell (x + 9 * k) y a b →
        (p.consumeAll cfg (textEvents cfg y fg bg x text)).cell a b =
          some (glyphColor code fg bg (b - y).toNat (a - (x + 9 * k)).toNat)) ∧
      ∀ a b : Nat, (∀ k : Nat, k < text.length → ¬ GlyphCell (x + 9 * k) y a b) →
        (p.consumeAll cfg (textEvents cfg y fg bg x text)).cell a b = p.cell a b := by
  induction text with
  | nil => exact fun p _ x => ⟨by simp, fun a b _ => rfl⟩
  | cons c text ih =>
    intro p hp x
    by_cases hend : x ≤ 152
    · obtain ⟨hready, hglyph⟩ := Panel.glyph_cells hl hp c x y fg bg
      obtain ⟨hset, hkept⟩ := ih _ hready (x + 9)
      have hcol : ∀ k : Nat, x + 9 * ((k + 1 : Nat) : Int) = x + 9 + 9 * k := fun k => by
        push_cast
        ring
      rw [textEvents_cons cfg y fg bg hend, Panel.consumeAll_append]
      refine ⟨fun k code hk a b hcell => ?set, fun a b hout => ?kept⟩
      case set =>
        cases k with
        | zero =>
          obtain rfl : c = code := by simpa using hk
          rw [Nat.cast_zero, mul_zero, add_zero] at hcell ⊢
          have hlater : ∀ j : Nat, j < text.length → ¬ GlyphCell (x + 9 + 9 * j) y a b := by
            simp only [GlyphCell, InWindow] at hcell ⊢
            omega
          rw [hkept a b hlater, hglyph, if_pos hcell]
        | succ k =>
          rw [hcol] at hcell ⊢
          exact hset k code (by simpa using hk) a b hcell
      case kept =>
        have hfirst : ¬ GlyphCell x y a b := by simpa using hout 0 (by simp)
        have hlater : ∀ k : Nat, k < text.length → ¬ GlyphCell (x + 9 + 9 * k) y a b := fun k hk => by
          simpa only [hcol] using hout (k + 1) (by simpa using hk)
        rw [hkept a b hlater, hglyph, if_neg hfirst]
    · rw [textEvents_of_end cfg y fg bg (by omega)]
      refine ⟨fun k code _ a b hcell => ?_, fun a b _ => rfl⟩
      simp only [GlyphCell] at hcell
      omega

/-- Settles O53, by `Panel.text_cells`. -/
theorem textSetsItsGlyphCells : Obligations.TextSetsItsGlyphCells := by
  intro s text x y fg bg hs
  obtain ⟨t, hrun, hready, hidle, hpanel⟩ := runRequest_of_canDraw hs (i := .drawText text x y fg bg) rfl
  obtain ⟨hset, hkept⟩ := Panel.text_cells hs.legal y fg bg text s.panel hs.panelReady x
  rw [← hpanel] at hset hkept
  refine ⟨t, hrun, hready, hidle, fun k code hk hx0 hx hy0 hy a b hw => ?_, fun a b hout => ?_⟩
  · exact hset k code hk a b ⟨⟨hx0, hx, hy0, hy⟩, hw⟩
  · exact hkept a b fun k hk ⟨⟨hx0, hx, hy0, hy⟩, hw⟩ => hout ⟨k, hk, hx0, hx, hy0, hy, hw⟩

/-! ### INIT (R120, R152, R238) -/

/-- The power-on sequence leaves the configured lines configured, with the reset line high again (R105, R120). -/
theorem transfer_powerOn (cfg : Config) (clkHz : Nat) :
    (powerOn cfg).foldl (fun l e => l.transfer cfg.dcCommand e) (Lines.configure clkHz) =
      { Lines.configure clkHz with dc := some cfg.dcCommand } := rfl

/-- INIT run to its end, with the claim granted: its events, the lines, and nothing of the error record. -/
theorem runRequest_init {s : State} (hi : s.block.initDone = false) (hc : s.env.claim = true) (ht : s.turns = []) :
    ∃ t, runRequest .init s = some t ∧ t.block.initDone = true ∧ t.block.mode = .idle ∧
      t.block.trace = s.block.trace ++ powerOn s.cfg ∧ t.block.err = s.block.err ∧ t.block.cause = s.block.cause ∧
      t.block.lines = { Lines.configure s.cfg.spiClkHz with dc := some s.cfg.dcCommand } ∧
      t.panel = s.panel.consumeAll s.cfg (powerOn s.cfg) := by
  have hstart := s.startInit_granted hi hc
  have hmode : s.startInit.block.mode = .exec := by rw [hstart]; rfl
  have hevents : s.startInit.block.events.drop s.startInit.block.seq = powerOn s.cfg := by rw [hstart]; rfl
  have hrun := runBusy_events (.inl hmode) (by rw [hstart]; exact ht) hevents
  obtain ⟨hidle, -, -, hdone⟩ := State.afterEvents_end hmode hevents (by simp [powerOn])
  obtain ⟨herr, hcause, -, -⟩ := s.startInit.afterEvents_err (powerOn s.cfg)
  refine ⟨s.startInit.afterEvents (powerOn s.cfg), ?_, ?_, hidle, ?_, ?_, ?_, ?_, ?_⟩
  · rw [← hrun]
    simp only [runRequest, exec, execInit, hstart]
    rfl
  · rw [hdone, hstart]
    exact Bool.or_true _
  · rw [State.afterEvents_trace, hstart]
    rfl
  · rw [herr, hstart]
    rfl
  · rw [hcause, hstart]
    rfl
  · rw [State.afterEvents_lines, hstart]
    exact transfer_powerOn s.cfg s.cfg.spiClkHz
  · rw [State.afterEvents_panel, State.startInit_panel, State.startInit_cfg]

/-- From a reset line that was not low its low level is an edge (R201): the whole record of the Panel is known. -/
theorem Panel.powerOn_of_edge {cfg : Config} (hl : cfg.Legal) {p : Panel} (hp : p.pstate ≠ .inReset) :
    p.consumeAll cfg (powerOn cfg) = { Panel.powerUp with
      pstate := .active, tRst := cfg.tRstHigh, initStage := some 4, slpPending := some false
      tSlp := some cfg.tSlpout, sleep := some false, displayOn := some true
      colmod := some cfg.pixfmt16, madctl := some cfg.madctlValue, pf := p.pf } := by
  rw [Panel.powerOn_eq hl fun h => absurd h hp, Panel.resetLow, if_neg hp]
  rfl

/-- A Panel with an empty GRAM has every cell at ⊥. -/
theorem Panel.cell_of_gram_nil {p : Panel} (h : p.gram = []) (a b : Nat) : p.cell a b = none := by
  rw [Panel.cell, h]
  exact ite_self none

/-- Settles O49: `runRequest_init` gives the Block, `Panel.powerOn_eq` and `Panel.powerOn_of_edge` the Panel. -/
theorem initBringsThePanelUp : Obligations.InitBringsThePanelUp := by
  rintro s ⟨hl, hi, hc, hpf, hheld, ht⟩
  obtain ⟨t, hrun, hdone, hidle, htrace, herr, hcause, hlines, hend⟩ := runRequest_init hi hc ht
  have hpanel := hend.trans (Panel.powerOn_eq hl hheld)
  have hready : t.panel.Ready := by
    obtain ⟨-, -, -, -, -, hlow⟩ := Panel.resetLow_facts hheld
    rw [hpanel]
    exact ⟨rfl, rfl, rfl, hlow.trans hpf, .inl rfl⟩
  refine ⟨t, hrun, hdone, hidle, htrace, herr, hcause, congrArg Lines.cfg hlines, congrArg Lines.rst hlines,
    congrArg Lines.clkHz hlines, congrArg Lines.mode hlines, hready, congrArg Panel.sleep hpanel,
    congrArg Panel.displayOn hpanel, congrArg Panel.colmod hpanel, congrArg Panel.madctl hpanel, fun hp => ?_⟩
  have hall := hend.trans (Panel.powerOn_of_edge hl hp)
  rw [hpf] at hall
  exact ⟨Panel.cell_of_gram_nil (congrArg Panel.gram hall), hall⟩

end Sys2Proof.Machine

/-! The cursor engine's statements (spec/44_cursor_engine.md), first part: what a Panel event leaves when it raises no
fault, and the block-protocol invariant of R238. -/

namespace Sys2Proof.Machine

/-! ### Commands at any Panel (R203, R205, R210 to R217) -/

theorem Panel.raise_pf_ne_nil (p : Panel) (f : PanelFault) : (p.raise f).pf ≠ [] := addFault_ne_nil f p.pf

/-- Before the first reset pulse a command is PF_NOT_RESET and nothing else (R203, assumption 10). -/
theorem Panel.command_of_unreset {p : Panel} (hp : p.pstate = .unreset) (effect : Panel → Panel) :
    p.command effect = p.raise .notReset := if_pos hp

/-- After a reset pulse a command is admitted, the receive mode closes, and its effect follows (R203, R205). -/
theorem Panel.command_of_reset {p : Panel} (hp : p.pstate ≠ .unreset) (effect : Panel → Panel) :
    p.command effect = effect p.admitReset.admitSleep.closeRx := if_neg hp

/-- The faults of R203 and R205 together. -/
theorem Panel.mem_admit {p : Panel} {g : PanelFault} : g ∈ p.admitReset.admitSleep.closeRx.pf ↔
    (p.rx = .stream ∧ ((g = .oddByte ∧ p.hi ≠ none) ∨ (g = .underrun ∧ p.full ≠ some true))) ∨
    (g = .badArgs ∧ ∃ a bs, p.rx = .args a bs) ∨
    (g = .timing ∧ p.slpPending = some true ∧ p.tSlp.getD 0 < tSlpoutMin) ∨
    (g = .timing ∧ (p.pstate = .inReset ∨ (p.pstate = .recovering ∧ p.tRst < tRstHighMin))) ∨ g ∈ p.pf := by
  have hrx : p.admitReset.admitSleep.rx = p.rx := by rw [Panel.admitSleep_eq, Panel.admitReset_eq]
  have hhi : p.admitReset.admitSleep.hi = p.hi := by rw [Panel.admitSleep_eq, Panel.admitReset_eq]
  have hfull : p.admitReset.admitSleep.full = p.full := by rw [Panel.admitSleep_eq, Panel.admitReset_eq]
  have hslp : p.admitReset.slpPending = p.slpPending := by rw [Panel.admitReset_eq]
  have ht : p.admitReset.tSlp = p.tSlp := by rw [Panel.admitReset_eq]
  rw [Panel.mem_closeRx, Panel.mem_admitSleep, Panel.mem_admitReset, hrx, hhi, hfull, hslp, ht]

/-- A command admitted without a fault finds the Panel ACTIVE (R203). -/
theorem Panel.admit_pstate {p : Panel} (hp : p.pstate ≠ .unreset) (hpf : p.admitReset.admitSleep.closeRx.pf = []) :
    p.admitReset.admitSleep.closeRx.pstate = .active := by
  have htiming : p.pstate ≠ .inReset := fun h =>
    List.ne_nil_of_mem (Panel.mem_admit.2 (.inr (.inr (.inr (.inl ⟨rfl, .inl h⟩))))) hpf
  rw [Panel.admit_eq]
  cases h : p.pstate with
  | unreset => exact absurd h hp
  | inReset => exact absurd h htiming
  | recovering | active => simp

/-- No command's own effect touches the reset state (R210 to R216). -/
@[simp] theorem Panel.effect_pstate (c : PanelCmd) (p : Panel) : (Panel.effect c p).pstate = p.pstate := by
  cases c with
  | slpout | dispon => exact p.requires_pstate _
  | colmod | madctl | caset | raset => exact p.requires_pstate _
  | ramwr => exact (Panel.raiseIf_pstate _ _ _).trans (p.requires_pstate 4)

/-- A Panel command that leaves no fault leaves the Panel ACTIVE (R203). -/
theorem Panel.command_pstate {c : PanelCmd} {p : Panel} (hpf : (p.command (Panel.effect c)).pf = []) :
    (p.command (Panel.effect c)).pstate = .active := by
  by_cases hp : p.pstate = .unreset
  · rw [Panel.command_of_unreset hp] at hpf
    exact absurd hpf (p.raise_pf_ne_nil _)
  · rw [Panel.command_of_reset hp] at hpf ⊢
    rw [Panel.effect_pstate]
    refine Panel.admit_pstate hp (List.eq_nil_iff_forall_not_mem.2 fun g hg => ?_)
    exact List.ne_nil_of_mem (Panel.mem_effect c hg) hpf

/-- A command byte outside the set, once there was a reset pulse, is PF_UNKNOWN_CMD (R217). -/
theorem Panel.unknownCmd_mem {p : Panel} (hp : p.pstate ≠ .unreset) :
    .unknownCmd ∈ (p.command Panel.unknown).pf := by
  rw [Panel.command_of_reset hp]
  exact Panel.mem_raise.2 (.inl rfl)

/-- A command byte that raises no fault leaves the Panel ACTIVE. -/
theorem Panel.consume_cmd_pstate {cfg : Config} {p : Panel} {b : Byte} (hpf : (p.consume cfg (.cmd b)).pf = []) :
    (p.consume cfg (.cmd b)).pstate = .active := by
  cases hc : decodeCommand cfg b with
  | some c =>
    rw [Panel.consume_cmd hc] at hpf ⊢
    exact Panel.command_pstate hpf
  | none =>
    simp only [Panel.consume, hc] at hpf
    by_cases hp : p.pstate = .unreset
    · rw [Panel.command_of_unreset hp] at hpf
      exact absurd hpf (p.raise_pf_ne_nil _)
    · exact absurd hpf (List.ne_nil_of_mem (Panel.unknownCmd_mem hp))

/-! ### Data bytes at any Panel (R206) -/

/-- A fault raised twice is raised once: PF is a set (R230). -/
theorem Panel.raise_raise (p : Panel) (f : PanelFault) : (p.raise f).raise f = p.raise f := by
  have : addFault f (addFault f p.pf) = addFault f p.pf :=
    List.filter_congr fun g _ => by simp [mem_addFault]
  simp [Panel.raise, this]

theorem Panel.dataCheck_of_unreset {p : Panel} (hp : p.pstate = .unreset) : p.dataCheck = p.raise .notReset := by
  simp [Panel.dataCheck, Panel.raiseIf, hp]

theorem Panel.dataCheck_of_inReset {p : Panel} (hp : p.pstate = .inReset) : p.dataCheck = p.raise .timing := by
  simp [Panel.dataCheck, Panel.raiseIf, hp]

@[simp] theorem Panel.dataCheck_pstate (p : Panel) : p.dataCheck.pstate = p.pstate := by
  simp [Panel.dataCheck]

@[simp] theorem Panel.dataCheck_rx (p : Panel) : p.dataCheck.rx = p.rx := by
  simp [Panel.dataCheck]

@[simp] theorem Panel.dataCheck_full (p : Panel) : p.dataCheck.full = p.full := by
  simp [Panel.dataCheck]

/-- R206's checks made twice are the checks made once. -/
theorem Panel.dataCheck_dataCheck (p : Panel) : p.dataCheck.dataCheck = p.dataCheck := by
  cases hp : p.pstate with
  | unreset => rw [Panel.dataCheck_of_unreset hp, Panel.dataCheck_of_unreset (by exact hp), Panel.raise_raise]
  | inReset => rw [Panel.dataCheck_of_inReset hp, Panel.dataCheck_of_inReset (by exact hp), Panel.raise_raise]
  | recovering | active => simp [Panel.dataCheck, Panel.raiseIf, hp]

/-- What R206's checks raise stays raised, whatever the receive mode does with the byte. -/
theorem Panel.mem_byte_of_dataCheck {p : Panel} {g : PanelFault} (cfg : Config) (d : Byte) (h : g ∈ p.dataCheck.pf) :
    g ∈ (p.byte cfg d).pf := by
  have : p.dataCheck.byte cfg d = p.byte cfg d := by
    simp only [Panel.byte, Panel.dataCheck_dataCheck, Panel.dataCheck_rx]
  rw [← this]
  exact Panel.mem_byte cfg d h

theorem Panel.timing_mem_byte {p : Panel} (hp : p.pstate = .inReset) (cfg : Config) (d : Byte) :
    .timing ∈ (p.byte cfg d).pf :=
  Panel.mem_byte_of_dataCheck cfg d (by rw [Panel.dataCheck_of_inReset hp]; exact Panel.mem_raise.2 (.inl rfl))

theorem Panel.notReset_mem_byte {p : Panel} (hp : p.pstate = .unreset) (cfg : Config) (d : Byte) :
    .notReset ∈ (p.byte cfg d).pf :=
  Panel.mem_byte_of_dataCheck cfg d (by rw [Panel.dataCheck_of_unreset hp]; exact Panel.mem_raise.2 (.inl rfl))

@[simp] theorem Panel.complete_pstate (cfg : Config) (p : Panel) (cmd : ArgCmd) (bs : List Byte) :
    (p.complete cfg cmd bs).pstate = p.pstate := by
  unfold Panel.complete
  split
  · exact p.raiseIf_pstate _ _
  · rfl
  · exact p.raiseIf_pstate _ _
  · exact p.raiseIf_pstate _ _
  · rfl

@[simp] theorem Panel.argByte_pstate (cfg : Config) (p : Panel) (cmd : ArgCmd) (bs : List Byte) (d : Byte) :
    (p.argByte cfg cmd bs d).pstate = p.pstate := by
  unfold Panel.argByte
  split_ifs
  · rfl
  · exact p.complete_pstate cfg cmd _

@[simp] theorem Panel.pixelByte_pstate (p : Panel) (d : Byte) : (p.pixelByte d).pstate = p.pstate := by
  unfold Panel.pixelByte
  split_ifs
  · rfl
  · split
    · rfl
    · rw [Panel.advance_eq, Panel.gramWrite_eq]

/-- Data bytes leave the reset state alone (R206, R220, R223). -/
@[simp] theorem Panel.byte_pstate (cfg : Config) (p : Panel) (d : Byte) : (p.byte cfg d).pstate = p.pstate := by
  unfold Panel.byte
  split <;> simp

theorem Panel.bytes_pstate (cfg : Config) (bs : List Byte) (p : Panel) :
    (bs.foldl (Panel.byte cfg) p).pstate = p.pstate := by
  induction bs generalizing p with
  | nil => rfl
  | cons d bs ih => exact (ih _).trans (p.byte_pstate cfg d)

/-! ### The reset hold along a run without a fault (R201) -/

/-- Data that raise no fault keep R201's values: held in reset, the Panel takes no byte without PF_TIMING. -/
theorem Panel.ResetHeld.bytes {p : Panel} (h : p.ResetHeld) {cfg : Config} {bs : List Byte}
    (hpf : (bs.foldl (Panel.byte cfg) p).pf = []) : (bs.foldl (Panel.byte cfg) p).ResetHeld := by
  cases bs with
  | nil => exact h
  | cons d bs =>
    intro hp
    rw [Panel.bytes_pstate] at hp
    exact absurd hpf (List.ne_nil_of_mem (Panel.mem_bytes cfg bs (Panel.timing_mem_byte hp cfg d)))

/-- Every event that raises no fault keeps R201's values at a Panel held in reset. -/
theorem Panel.ResetHeld.consume {p : Panel} (h : p.ResetHeld) {cfg : Config} {e : BusEvent}
    (hpf : (p.consume cfg e).pf = []) : (p.consume cfg e).ResetHeld := by
  cases e with
  | rst level =>
    cases level with
    | false =>
      obtain ⟨-, hstage, hslp, hrx, hhi, -⟩ := Panel.resetLow_facts h
      exact fun _ => ⟨hstage, hslp, hrx, hhi⟩
    | true =>
      change p.resetHigh.ResetHeld
      unfold Panel.resetHigh
      split_ifs
      · exact fun hp => absurd hp (by simp)
      · exact h
  | delay ms => exact h
  | cmd b => exact fun hp => absurd hp (by simp [Panel.consume_cmd_pstate hpf])
  | data bs => exact h.bytes hpf

/-! ### The block-protocol invariant (R238) -/

/-- Outside mode EXEC the invariant passes to every such state with the same Panel and parameters in which INIT is not
done but where it was before. -/
theorem State.ProtocolInv.between_requests {s t : State} (h : s.ProtocolInv) (hm : s.block.mode ≠ .exec)
    (hcfg : t.cfg = s.cfg) (hpanel : t.panel = s.panel) (hinit : t.block.initDone = true → s.block.initDone = true)
    (hmode : t.block.mode ≠ .exec) (hneed : t.block.mode = .rx → 0 < t.block.need) : t.ProtocolInv where
  legal := hcfg ▸ h.legal
  noFault := hpanel ▸ h.noFault
  resetHeld := hpanel ▸ h.resetHeld
  running ht := absurd ht hmode
  between _ hi := hpanel ▸ h.between hm (hinit hi)
  receiving := hneed

/-- The invariant speaks of the parameters, the Block and the Panel only. -/
theorem State.ProtocolInv.congr {s t : State} (h : s.ProtocolInv) (hcfg : t.cfg = s.cfg) (hpanel : t.panel = s.panel)
    (hblock : t.block = s.block) : t.ProtocolInv where
  legal := hcfg ▸ h.legal
  noFault := hpanel ▸ h.noFault
  resetHeld := hpanel ▸ h.resetHeld
  running := by simpa only [State.panelAtEnd, hcfg, hpanel, hblock] using h.running
  between := by simpa only [hpanel, hblock] using h.between
  receiving := by simpa only [hblock] using h.receiving

/-- A request starts an expansion, not an empty one, that leaves the Panel ready: INIT's, or a drawing request's after
INIT (R33). -/
theorem State.ProtocolInv.begin {s : State} (h : s.ProtocolInv) {b : Block} {isInit : Bool} {E : List BusEvent}
    (hE : E ≠ []) (hb : b.initDone = true ∨ isInit = true) (hready : (s.panel.consumeAll s.cfg E).Ready) :
    ({ s with block := b.begin isInit E } : State).ProtocolInv where
  legal := h.legal
  noFault := h.noFault
  resetHeld := h.resetHeld
  running _ := ⟨List.length_pos_of_ne_nil hE, hb, hready⟩
  between hm := absurd (if_neg hE) hm
  receiving hm := absurd hm (by simp [hE])

theorem Panel.powerOn_ready {cfg : Config} (hl : cfg.Legal) {p : Panel} (hr : p.ResetHeld) (hpf : p.pf = []) :
    (p.consumeAll cfg (powerOn cfg)).Ready := by
  obtain ⟨-, -, -, -, -, hlow⟩ := Panel.resetLow_facts hr
  rw [Panel.powerOn_eq hl hr]
  exact ⟨rfl, rfl, rfl, hlow.trans hpf, .inl rfl⟩

section
variable {s : State} (h : s.ProtocolInv) (hm : s.block.mode ≠ .exec) {b : Block} (same : s.block.SameButPacket b)
include h hm same

/-- INIT's dispatch, with the packet's words in: the power-on sequence leaves the Panel ready, and a fatal cause halts the
Block (R241, R242). -/
theorem State.ProtocolInv.startInit : ({ s with block := b } : State).startInit.ProtocolInv := by
  rcases State.startInit_block_cases { s with block := b } with hb | ⟨c, -, hb⟩
  · exact (h.begin (b := { b with lines := _ }) (isInit := true) (by simp [powerOn]) (.inr rfl)
      (Panel.powerOn_ready h.legal h.resetHeld h.noFault)).congr (State.startInit_cfg _) (State.startInit_panel _) hb
  · refine h.between_requests hm (State.startInit_cfg _) (State.startInit_panel _) ?_ ?_ ?_ <;> rw [hb]
    · exact same.initDone.symm.trans
    · simp
    · simp

/-- A drawing request's dispatch, with the packet's words in: NOT_INITIALIZED, nothing to emit, or an expansion that leaves
the Panel ready (R246). -/
theorem State.ProtocolInv.draw {i : Instr} {E : List BusEvent} (hE : drawExpansion s.cfg i = some E) :
    (({ s with block := b } : State).draw E).ProtocolInv := by
  by_cases hi : b.initDone = true
  · by_cases hnil : E = []
    · subst hnil
      rw [State.draw_nil hi]
      exact h.between_requests hm rfl rfl same.initDone.symm.trans (by simp) (by simp)
    · have hdraw : ({ s with block := b } : State).draw E = { s with block := b.begin false E } := if_pos hi
      rw [hdraw]
      exact h.begin hnil (.inl hi) (Panel.draw_ready h.legal (h.between hm (same.initDone.symm.trans hi)) hE)
  · have hdraw : ({ s with block := b } : State).draw E = { s with block := b.raiseError .notInitialized } := if_neg hi
    rw [hdraw]
    exact h.between_requests hm rfl rfl same.initDone.symm.trans (by simp) (by simp)

end

/-- A word accepted between requests: the decoder waits, or what the word completes is dispatched (R87). -/
theorem State.WordResult.protocolInv {s t : State} (h : s.ProtocolInv) (hm : s.block.mode ≠ .exec)
    (hw : s.WordResult t) : t.ProtocolInv := by
  cases hw with
  | wait b same mode need =>
    exact h.between_requests hm rfl rfl same.initDone.symm.trans (by simp [mode]) fun _ => need
  | init b same => exact h.startInit hm same
  | draw b same _ i E hE => exact h.draw hm same hE
  | illegal b same => exact h.between_requests hm rfl rfl same.initDone.symm.trans (by simp) (by simp)

/-- One event of a running expansion: the rest of it leaves the Panel ready as before, and after the last event the Panel
is ready (R33, R238). -/
theorem State.ProtocolInv.afterEvent {s : State} (h : s.ProtocolInv) (hm : s.block.mode = .exec) {e : BusEvent}
    (he : s.block.events[s.block.seq]? = some e) : (s.afterEvent e).ProtocolInv := by
  obtain ⟨-, hrun, hready⟩ := h.running hm
  obtain ⟨hlt, hget⟩ := List.getElem?_eq_some_iff.1 he
  have hdrop : s.block.events.drop s.block.seq = e :: s.block.events.drop (s.block.seq + 1) := by
    rw [List.drop_eq_getElem_cons hlt, hget]
  rw [State.panelAtEnd, hdrop, Panel.consumeAll_cons] at hready
  have hpf : (s.panel.consume s.cfg e).pf = [] := Panel.pf_of_consumeAll hready.2.2.2.1
  have hheld := h.resetHeld.consume hpf
  by_cases hmid : s.block.seq + 1 < s.block.events.length
  · have hblock : (s.afterEvent e).block = { s.block.emit s.cfg e with seq := s.block.seq + 1 } :=
      Block.eventDone_mid hmid
    have hmode : (s.afterEvent e).block.mode = .exec := by rw [hblock]; exact hm
    refine ⟨h.legal, hpf, hheld, fun _ => ?_, absurd hmode, fun hrx => absurd (hmode.symm.trans hrx) (by decide)⟩
    rw [State.panelAtEnd, hblock]
    exact ⟨hmid, hrun, hready⟩
  · have hmode : (s.afterEvent e).block.mode = .idle :=
      congrArg Block.mode (Block.eventDone_last (b := s.block.emit s.cfg e) hmid)
    rw [List.drop_eq_nil_of_le (not_lt.1 hmid), Panel.consumeAll_nil] at hready
    exact ⟨h.legal, hpf, hheld, fun hex => absurd (hmode.symm.trans hex) (by decide), fun _ _ => hready,
      fun hrx => absurd (hmode.symm.trans hrx) (by decide)⟩

/-- Settles O56: of the cases of a step, an event goes on with the expansion, and a word may start one. -/
theorem stepKeepsTheProtocol : Obligations.StepKeepsTheProtocol := by
  intro s t h hstep
  have hpop : s.popTurn.popHost.ProtocolInv := h.congr rfl rfl rfl
  cases step_result hstep with
  | idle | access | read => exact h.congr rfl rfl rfl
  | event e mode at_ => exact State.ProtocolInv.afterEvent (s := s.popTurn) (h.congr rfl rfl rfl) mode at_
  | pastEnd mode at_ => exact absurd (h.running mode).1 (not_lt.2 (List.getElem?_eq_none_iff.1 at_))
  | blockReset => exact ⟨h.legal, h.noFault, h.resetHeld, nofun, nofun, nofun⟩
  | word mode t result =>
    refine result.protocolInv hpop ?_
    rcases mode with mode | mode <;> simp [mode]

/-- Settles O57: nothing has run, and the parameters are the defaults of R7. -/
theorem resetMeetsTheProtocol : Obligations.ResetMeetsTheProtocol where
  legal := by decide
  noFault := rfl
  resetHeld := nofun
  running := nofun
  between _ := nofun
  receiving := nofun

/-- Settles O47: of the cases of a step, only a bus event reaches the Panel, and none removes a fault. -/
theorem panelFaultsAreSticky : Obligations.PanelFaultsAreSticky := by
  intro s t h f hf
  cases step_result h with
  | idle | pastEnd | blockReset | access | read => exact hf
  | event e => exact Panel.mem_consume _ e hf
  | word _ t result =>
    obtain ⟨hpanel, -, -⟩ := result.frame
    rw [hpanel]
    exact hf

end Sys2Proof.Machine

/-! The cursor engine's statements, second part: the seven commands and the reset pulse. -/

namespace Sys2Proof.Machine

/-! ### Commands at an admitting Panel (R210 to R216) -/

theorem exec_admitted {s : State} (h : s.panel.Admits) (c : PanelCmd) :
    exec c.toInstr s = .next { s with panel := Panel.effect c s.panel.admitted } := by
  rw [exec_command, State.onPanel, Panel.command_admits h]

/-- At its stage a command's own check passes. -/
theorem Panel.requires_of_stage {p : Panel} {k : Fin 5} (h : p.initStage = some k) : p.requires k = p := by
  simp [Panel.requires, Panel.raiseIf, h]

/-- An admitted command out of its stage is PF_ORDER (R210 to R216). -/
theorem exec_order {s : State} (h : s.panel.Admits) {c : PanelCmd} (hc : s.panel.initStage ≠ some (commandStage c)) :
    ∃ t, exec c.toInstr s = .next t ∧ .order ∈ t.panel.pf :=
  ⟨_, exec_admitted h c, Panel.order_effect (p := s.panel.admitted) c hc⟩

theorem Panel.slpout_of_stage {p : Panel} (h : p.initStage = some 0) : Panel.effect .slpout p =
    { p with sleep := some false, slpPending := some true, tSlp := some 0, initStage := some 1 } := by
  rw [Panel.effect, Panel.slpout, Panel.requires_of_stage h]

theorem Panel.dispon_of_stage {p : Panel} (h : p.initStage = some 3) :
    Panel.effect .dispon p = { p with displayOn := some true, initStage := some 4 } := by
  rw [Panel.effect, Panel.dispon, Panel.requires_of_stage h]

theorem Panel.await_of_stage {p : Panel} {k : Fin 5} (h : p.initStage = some k) (cmd : ArgCmd) :
    (p.requires k).await cmd = { p with rx := .args cmd [] } := by
  rw [Panel.requires_of_stage h, Panel.await]

/-- Settles O37: admission is `Panel.admitted`, and at its stage the command's effect is its own writes. -/
theorem commandsTakeEffectAtTheirStage : Obligations.CommandsTakeEffectAtTheirStage := by
  intro s h
  refine ⟨fun hk => ?_, fun hk => ?_, fun hk => ?_, fun hk => ?_, fun hk => ⟨?_, ?_⟩, fun c hc => exec_order h hc⟩
  · rw [← Panel.slpout_of_stage (p := s.panel.admitted) hk]
    exact exec_admitted h .slpout
  · rw [← Panel.await_of_stage (p := s.panel.admitted) hk .colmod]
    exact exec_admitted h .colmod
  · rw [← Panel.await_of_stage (p := s.panel.admitted) hk .madctl]
    exact exec_admitted h .madctl
  · rw [← Panel.dispon_of_stage (p := s.panel.admitted) hk]
    exact exec_admitted h .dispon
  · rw [← Panel.await_of_stage (p := s.panel.admitted) hk .caset]
    exact exec_admitted h .caset
  · rw [← Panel.await_of_stage (p := s.panel.admitted) hk .raset]
    exact exec_admitted h .raset

/-- Settles O38: the stage check and the window check pass, or one of them raises its fault. -/
theorem ramwrPrimesTheStream : Obligations.RamwrPrimesTheStream := by
  refine ⟨fun s x0 x1 y0 y1 h hk hx0 hx1 hy0 hy1 => ?_, fun s h hk => exec_order h (c := .ramwr) hk, fun s h hw => ?_⟩
  · have heffect : Panel.effect .ramwr s.panel.admitted = { s.panel.admitted with
        cx := some x0, cy := some y0, full := some false, hi := none, rx := .stream } := by
      rw [Panel.effect, Panel.ramwr, Panel.requires_of_stage (p := s.panel.admitted) hk]
      simp [Panel.admitted, Panel.raiseIf, hx0, hx1, hy0, hy1]
    rw [← heffect]
    exact exec_admitted h .ramwr
  · refine ⟨_, exec_admitted h .ramwr, Panel.mem_raiseIf.2 (.inl ⟨?_, rfl⟩)⟩
    simpa [Panel.admitted, or_assoc] using hw

/-! ### The frame of a command (R203, R205, R210 to R216) -/

/-- What command c may leave different from p beside the fault set, the reset and settle state and the receive mode. -/
def Panel.CommandFrame (c : PanelCmd) (p q : Panel) : Prop :=
  (q.xs = p.xs ∧ q.xe = p.xe ∧ q.ys = p.ys ∧ q.ye = p.ye ∧ q.colmod = p.colmod ∧ q.madctl = p.madctl ∧
    q.tRst = p.tRst) ∧
  (c ≠ .slpout → q.sleep = p.sleep ∧ q.tSlp = p.tSlp) ∧
  (c ≠ .dispon → q.displayOn = p.displayOn) ∧
  (c ≠ .slpout → c ≠ .dispon → q.initStage = p.initStage) ∧
  (c ≠ .ramwr → q.cx = p.cx ∧ q.cy = p.cy ∧ q.full = p.full)

/-- Each command's own writes stay within its frame. -/
theorem Panel.effect_frame (c : PanelCmd) (p : Panel) : Panel.CommandFrame c p (Panel.effect c p) := by
  cases c with
  | slpout => simp [Panel.CommandFrame, Panel.effect, Panel.slpout]
  | colmod | madctl | caset | raset => simp [Panel.CommandFrame, Panel.effect]
  | dispon => simp [Panel.CommandFrame, Panel.effect, Panel.dispon]
  | ramwr => simp [Panel.CommandFrame, Panel.effect, Panel.ramwr]

/-- No command's own effect puts a byte in the latch. -/
theorem Panel.effect_hi {c : PanelCmd} {p : Panel} (h : p.hi = none) : (Panel.effect c p).hi = none := by
  cases c with
  | slpout | dispon => exact (p.requires_hi _).trans h
  | colmod | madctl | caset | raset => exact (p.requires_hi _).trans h
  | ramwr => rfl

/-- A command stays within its frame at every Panel: before the first reset pulse it raises a fault only, and admission
writes nothing the frame speaks of. -/
theorem Panel.command_frame (c : PanelCmd) (p : Panel) : Panel.CommandFrame c p (p.command (Panel.effect c)) := by
  by_cases hp : p.pstate = .unreset
  · rw [Panel.command_of_unreset hp]
    simp [Panel.CommandFrame]
  · rw [Panel.command_of_reset hp, Panel.admit_eq]
    exact Panel.effect_frame c _

/-- A Panel command that leaves no fault leaves the latch empty (R205). -/
theorem Panel.command_hi {c : PanelCmd} {p : Panel} (hpf : (p.command (Panel.effect c)).pf = []) :
    (p.command (Panel.effect c)).hi = none := by
  by_cases hp : p.pstate = .unreset
  · rw [Panel.command_of_unreset hp] at hpf
    exact absurd hpf (p.raise_pf_ne_nil _)
  · rw [Panel.command_of_reset hp]
    exact Panel.effect_hi rfl

/-- Settles O39: `Panel.command_frame` and the facts of a command that leaves no fault. -/
theorem panelCommandFrame : Obligations.PanelCommandFrame := by
  intro s c
  refine ⟨_, exec_command s c, rfl, fun f => Panel.mem_command fun q => Panel.mem_effect c, fun hpf => ?_⟩
  obtain ⟨⟨hxs, hxe, hys, hye, hcolmod, hmadctl, htRst⟩, hslpout, hdispon, hstage, hramwr⟩ :=
    Panel.command_frame c s.panel
  exact ⟨Panel.cell_congr (Panel.command_gram (Panel.effect_gram c) s.panel), hxs, hxe, hys, hye, hcolmod, hmadctl, htRst,
    Panel.command_hi hpf, Panel.command_pstate hpf, hslpout, hdispon, hstage, hramwr⟩

/-! ### Commands at the wrong moment (R203, R205, R210 to R216) -/

/-- What admission raises is raised by every command. -/
theorem Panel.mem_command_of_admit {p : Panel} {g : PanelFault} (hp : p.pstate ≠ .unreset) (c : PanelCmd)
    (h : g ∈ p.admitReset.admitSleep.closeRx.pf) : g ∈ (p.command (Panel.effect c)).pf := by
  rw [Panel.command_of_reset hp]
  exact Panel.mem_effect c h

/-- A command out of its stage is PF_ORDER at every Panel with a reset pulse behind it. -/
theorem Panel.order_mem_command {p : Panel} (hp : p.pstate ≠ .unreset) {c : PanelCmd}
    (h : p.initStage ≠ some (commandStage c)) : .order ∈ (p.command (Panel.effect c)).pf := by
  rw [Panel.command_of_reset hp]
  exact Panel.order_effect c (by rwa [Panel.admit_eq])

/-- Settles O40: one clause of `Panel.mem_admit` for each fault of admission. -/
theorem mistimedCommandsRaiseTheirFault : Obligations.MistimedCommandsRaiseTheirFault := by
  intro s c
  refine ⟨_, exec_command s c, fun hu => ?_, fun hr => ?_, fun hr ht => ?_, fun hp hs ⟨n, hn, hlt⟩ => ?_,
    fun hp => Panel.order_mem_command hp, fun hp hargs => ?_, fun hp hrx hfull => ?_, fun hp hrx hhi => ?_⟩
  · change _ ∈ (s.panel.command _).pf
    rw [Panel.command_of_unreset hu]
    exact Panel.mem_raise.2 (.inl rfl)
  · exact Panel.mem_command_of_admit (by simp [hr]) c (Panel.mem_admit.2 (by simp [hr]))
  · exact Panel.mem_command_of_admit (by simp [hr]) c (Panel.mem_admit.2 (by simp [hr, ht]))
  · exact Panel.mem_command_of_admit hp c (Panel.mem_admit.2 (by simp [hs, hn, hlt]))
  · exact Panel.mem_command_of_admit hp c (Panel.mem_admit.2 (by simp [hargs]))
  · exact Panel.mem_command_of_admit hp c (Panel.mem_admit.2 (by simp [hrx, hfull]))
  · exact Panel.mem_command_of_admit hp c (Panel.mem_admit.2 (by simp [hrx, hhi]))

/-! ### The reset pulse (R201, R202, R204) -/

/-- A rising reset line ends the reset hold, and is PF_TIMING if it was too short (R202). -/
theorem Panel.resetHigh_of_inReset {p : Panel} (hp : p.pstate = .inReset) : p.resetHigh =
    { p.raiseIf (p.tRst < tRstLowMin) .timing with pstate := .recovering, tRst := 0 } := if_pos hp

/-- Settles O41: the two branches of each edge, and `Panel.delay` as it stands. -/
theorem resetPulse : Obligations.ResetPulse := by
  intro cfg p
  refine ⟨fun hp => if_neg hp, fun hp => if_pos hp, fun hp ht => ?_, fun hp ht => ?_, fun hp => if_neg hp, fun _ => rfl⟩
  · change p.resetHigh = _
    rw [Panel.resetHigh_of_inReset hp, Panel.raiseIf, if_neg (by simpa using ht)]
  · change .timing ∈ p.resetHigh.pf ∧ p.resetHigh.pstate = .recovering
    rw [Panel.resetHigh_of_inReset hp]
    exact ⟨Panel.mem_raiseIf.2 (.inl ⟨by simpa using ht, rfl⟩), rfl⟩

end Sys2Proof.Machine

/-! The cursor engine's statements, third part: argument bytes, pixel bytes, and whole windows. -/

namespace Sys2Proof.Machine

/-! ### Bytes one after the other (R206, R207, R224) -/

theorem Panel.consume_byte (cfg : Config) (p : Panel) (d : Byte) : p.consume cfg (.data [d]) = p.byte cfg d := rfl

/-- Settles O45: a data event is its bytes, one after the other. -/
theorem segmentationInvariance : Obligations.SegmentationInvariance := fun _ _ _ _ => List.foldl_append

/-- A byte past the last pixel is PF_OVERRUN (R220). -/
theorem Panel.overrun_mem_byte {p : Panel} (hr : p.rx = .stream) (hf : p.full = some true) (cfg : Config) (d : Byte) :
    .overrun ∈ (p.byte cfg d).pf := by
  have h : p.byte cfg d = p.dataCheck.raise .overrun := by
    simp only [Panel.byte, hr, Panel.pixelByte, Panel.dataCheck_full, hf, if_true]
  rw [h]
  exact Panel.mem_raise.2 (.inl rfl)

/-- A byte with no receive mode open is PF_STRAY_DATA (R224). -/
theorem Panel.strayData_mem_byte {p : Panel} (hr : p.rx = .idle) (cfg : Config) (d : Byte) :
    .strayData ∈ (p.byte cfg d).pf := by
  have h : p.byte cfg d = p.dataCheck.raise .strayData := by simp only [Panel.byte, hr]
  rw [h]
  exact Panel.mem_raise.2 (.inl rfl)

/-- Settles O44, one fault after the other. -/
theorem strayBytesRaiseTheirFault : Obligations.StrayBytesRaiseTheirFault := by
  intro cfg p d
  refine ⟨fun hr => Panel.strayData_mem_byte hr cfg d, fun hr hf => Panel.overrun_mem_byte hr hf cfg d,
    fun hp => Panel.notReset_mem_byte hp cfg d, fun hp => Panel.timing_mem_byte hp cfg d, fun hp hd => ?_⟩
  simp only [Panel.consume, (decodeCommand_eq_none_iff cfg d).2 hd]
  exact Panel.unknownCmd_mem hp

/-! ### Argument bytes (R211, R212, R214, R215, R223) -/

/-- The completion of a command does not read the receive mode. -/
theorem Panel.complete_rx (cfg : Config) (p : Panel) (r : Rx) (cmd : ArgCmd) (bs : List Byte) :
    ({ p with rx := r } : Panel).complete cfg cmd bs = { p.complete cfg cmd bs with rx := r } := by
  unfold Panel.complete
  split <;> simp [Panel.setColmod, Panel.setMadctl, Panel.setCols, Panel.setRows, Panel.raiseIf_eq]

/-- The rest of an argument list, at an active Panel, completes its command (R223). -/
theorem Panel.bytes_args {cfg : Config} {cmd : ArgCmd} (bs : List Byte) : ∀ {p : Panel} {pre : List Byte},
    p.pstate = .active → p.rx = .args cmd pre → bs ≠ [] → pre.length + bs.length = cmd.need →
    bs.foldl (Panel.byte cfg) p = { p.complete cfg cmd (pre ++ bs) with rx := .idle } := by
  induction bs with
  | nil => exact fun _ _ hne => absurd rfl hne
  | cons d bs ih =>
    intro p pre hs hr _ hlen
    rw [List.length_cons] at hlen
    rw [List.foldl_cons, Panel.byte_args hs hr, Panel.argByte]
    by_cases hbs : bs = []
    · subst hbs
      rw [if_neg (by simp at hlen; omega), List.foldl_nil]
    · have hpos := List.length_pos_of_ne_nil hbs
      rw [if_pos (by omega), ih (by exact hs) rfl hbs (by simp; omega), Panel.complete_rx, List.append_assoc,
        List.singleton_append]

/-- A whole argument list in one data event. -/
theorem Panel.consume_args {cfg : Config} {p : Panel} {cmd : ArgCmd} {bs : List Byte} (hs : p.pstate = .active)
    (hr : p.rx = .args cmd []) (hne : bs ≠ []) (hlen : bs.length = cmd.need) :
    p.consume cfg (.data bs) = { p.complete cfg cmd bs with rx := .idle } :=
  Panel.bytes_args bs hs hr hne ((Nat.zero_add _).trans hlen)

theorem boundsOk_joinBytes (extent : Nat) (b0 b1 b2 b3 : Byte) :
    boundsOk extent (joinBytes b0 b1) (joinBytes b2 b3) = true ↔
      b0.toNat * 256 + b1.toNat ≤ b2.toNat * 256 + b3.toNat ∧ b2.toNat * 256 + b3.toNat ≤ extent - 1 := by
  simp only [boundsOk, joinBytes_toNat, Bool.and_eq_true, decide_eq_true_eq]

theorem Panel.setCols_of_ok {v0 v1 : Word} (h : boundsOk dispW v0 v1 = true) (p : Panel) :
    p.setCols v0 v1 = { p with xs := some v0, xe := some v1 } := by
  simp [Panel.setCols, h, Panel.raiseIf]

theorem Panel.badWindow_mem_setCols {v0 v1 : Word} (h : ¬ boundsOk dispW v0 v1 = true) (p : Panel) :
    .badWindow ∈ (p.setCols v0 v1).pf :=
  Panel.mem_raiseIf.2 (.inl ⟨by simpa using h, rfl⟩)

theorem Panel.setRows_of_ok {v0 v1 : Word} (h : boundsOk dispH v0 v1 = true) (p : Panel) :
    p.setRows v0 v1 = { p with ys := some v0, ye := some v1 } := by
  simp [Panel.setRows, h, Panel.raiseIf]

theorem Panel.badWindow_mem_setRows {v0 v1 : Word} (h : ¬ boundsOk dispH v0 v1 = true) (p : Panel) :
    .badWindow ∈ (p.setRows v0 v1).pf :=
  Panel.mem_raiseIf.2 (.inl ⟨by simpa using h, rfl⟩)

/-- Settles O42: `Panel.consume_args` with each command's completion. -/
theorem argumentBytesSetTheRegisters : Obligations.ArgumentBytesSetTheRegisters := by
  intro cfg p hs _
  refine ⟨fun b hr hb => ?_, fun b hr hb => ?_, fun b hr => ?_, fun b0 b1 b2 b3 hr => ⟨fun hok => ?_, fun hbad => ?_⟩,
    fun b0 b1 b2 b3 hr => ⟨fun hok => ?_, fun hbad => ?_⟩⟩ <;>
    rw [Panel.consume_args hs hr (by simp) rfl, Panel.complete]
  · simp [Panel.setColmod, Panel.raiseIf, hb]
  · exact Panel.mem_raiseIf.2 (.inl ⟨by simpa using hb, rfl⟩)
  · rfl
  · rw [Panel.setCols_of_ok ((boundsOk_joinBytes _ _ _ _ _).2 hok)]
  · exact Panel.badWindow_mem_setCols (fun h => hbad ((boundsOk_joinBytes _ _ _ _ _).1 h)) p
  · rw [Panel.setRows_of_ok ((boundsOk_joinBytes _ _ _ _ _).2 hok)]
  · exact Panel.badWindow_mem_setRows (fun h => hbad ((boundsOk_joinBytes _ _ _ _ _).1 h)) p

/-! ### One pixel (R220 to R222) -/

/-- A high byte is only latched. -/
theorem Panel.pixelByte_high {p : Panel} (hf : p.full = some false) (hh : p.hi = none) (d : Byte) :
    p.pixelByte d = { p with hi := some d } := by
  simp [Panel.pixelByte, hf, hh]

/-- A low byte stores the pixel at the cursor and advances. -/
theorem Panel.pixelByte_low {p : Panel} {cx cy : Word} {h : Byte} (hf : p.full = some false) (hh : p.hi = some h)
    (hcx : p.cx = some cx) (hcy : p.cy = some cy) (hc : cx.toNat < dispW) (hr : cy.toNat < dispH) (d : Byte) :
    p.pixelByte d = ({ p with
      hi := none, gram := Memory.write p.gram (gramIndex cx.toNat cy.toNat) (joinBytes h d) } : Panel).advance := by
  have hwrite := Panel.gramWrite_in (p := { p with hi := none }) hcx hcy hc hr (joinBytes h d)
  rw [← hwrite]
  simp [Panel.pixelByte, hf, hh]

theorem Panel.cell_advance (p : Panel) (a b : Nat) : p.advance.cell a b = p.cell a b :=
  Panel.cell_congr p.advance_gram a b

/-- The three moves of the cursor. -/
theorem Panel.advance_of_cursor {p : Panel} {x1 y1 cx cy : Word} (hxe : p.xe = some x1) (hye : p.ye = some y1)
    (hcx : p.cx = some cx) (hcy : p.cy = some cy) : p.advance =
      if cx.toNat < x1.toNat then { p with cx := some (cx + 1) }
      else if cy.toNat < y1.toNat then { p with cx := p.xs, cy := some (cy + 1) }
      else { p with cx := p.xs, full := some true } := by
  simp only [Panel.advance, hxe, hye, hcx, hcy]

/-- Settles O43: the latch, the overrun, and the low byte as a cell write and a cursor move. -/
theorem pixelStoresAndAdvances : Obligations.PixelStoresAndAdvances := by
  refine ⟨fun cfg p d hs _ hr => ⟨fun hf hh => ?_, fun hf => Panel.overrun_mem_byte hr hf cfg d⟩, ?_⟩
  · rw [Panel.consume_byte, Panel.byte_stream hs hr, Panel.pixelByte_high hf hh]
  · intro cfg p x0 x1 y0 y1 cx cy h d hs _ hr hf hh hxs hxe hys hye hcx hcy hcol hrow hx1 hy1
    have hc : cx.toNat < dispW := lt_of_le_of_lt hcol hx1
    have hr' : cy.toNat < dispH := lt_of_le_of_lt hrow hy1
    refine ⟨_, rfl, ?_⟩
    rw [Panel.consume_byte, Panel.byte_stream hs hr, Panel.pixelByte_low hf hh hcx hcy hc hr']
    simp only [Panel.cell_advance]
    have hcell := ({ p with hi := none } : Panel).cell_write (joinBytes h d) hc hr'
    refine ⟨(hcell _ _).trans (if_pos ⟨rfl, rfl⟩), fun a b hab => (hcell a b).trans (if_neg (by omega)), ?_⟩
    rw [Panel.advance_of_cursor (by exact hxe) (by exact hye) (by exact hcx) (by exact hcy)]
    by_cases hright : cx.toNat < x1.toNat
    · rw [if_pos hright]
      exact ⟨rfl, hr, rfl, rfl, rfl, rfl, rfl, fun _ => ⟨rfl, hcy, hf⟩, fun he => absurd he hright.ne,
        fun he => absurd he hright.ne⟩
    · by_cases hdown : cy.toNat < y1.toNat
      · rw [if_neg hright, if_pos hdown]
        exact ⟨rfl, hr, rfl, rfl, rfl, rfl, rfl, fun hlt => absurd hlt hright, fun _ _ => ⟨hxs, rfl, hf⟩,
          fun _ he => absurd he hdown.ne⟩
      · rw [if_neg hright, if_neg hdown]
        exact ⟨rfl, hr, rfl, rfl, rfl, rfl, rfl, fun hlt => absurd hlt hright, fun _ hlt => absurd hlt hdown,
          fun _ _ => ⟨hxs, hcy, rfl⟩⟩

/-! ### A whole window (R225) -/

/-- From the window's top-left corner the cells still to come are those of the window. -/
theorem stillToCome_corner_iff {x0 x1 y0 y1 a b : Nat} :
    StillToCome x0 x1 y1 x0 y0 a b ↔ x0 ≤ a ∧ a ≤ x1 ∧ y0 ≤ b ∧ b ≤ y1 := by
  constructor
  · rintro ⟨hlo, hhi, hrow, h | h⟩ <;> omega
  · rintro ⟨hlo, hhi, hfirst, hlast⟩
    exact ⟨hlo, hhi, hlast, by omega⟩

/-- Pixel k of a window's stream, at column k mod w and row k div w, has place k (R225). -/
theorem pixelPlace_of_index {x0 x1 : Nat} (y0 k : Nat) :
    pixelPlace x0 x1 x0 y0 (x0 + k % (x1 - x0 + 1)) (y0 + k / (x1 - x0 + 1)) = k := by
  have := Nat.div_add_mod' k (x1 - x0 + 1)
  simp only [pixelPlace, Nat.add_sub_cancel_left]
  omega

/-- RAMWR and exactly the window's pixels, at a ready Panel with a set window (R216, R225). -/
theorem Panel.ramwr_fill {cfg : Config} (hl : cfg.Legal) {p : Panel} (h : p.Ready) {x0 y0 x1 y1 : Word}
    (hxs : p.xs = some x0) (hxe : p.xe = some x1) (hys : p.ys = some y0) (hye : p.ye = some y1)
    (hx : x0.toNat ≤ x1.toNat) (hx1 : x1.toNat < dispW) (hy : y0.toNat ≤ y1.toNat) (hy1 : y1.toNat < dispH)
    {cs : List Word} {bss : List (List Byte)}
    (hlen : cs.length = (x1.toNat - x0.toNat + 1) * (y1.toNat - y0.toNat + 1)) (hb : bss.flatten = packList cs) :
    ∃ g, p.consumeAll cfg (.cmd cfg.opcRamwr :: bss.map BusEvent.data) =
        { p with rx := .stream, hi := none, full := some true, cx := some x0, cy := some y1, gram := g } ∧
      ∀ a b, ({ p with gram := g } : Panel).cell a b =
        if x0.toNat ≤ a ∧ a ≤ x1.toNat ∧ y0.toNat ≤ b ∧ b ≤ y1.toNat then
          cs[pixelPlace x0.toNat x1.toNat x0.toNat y0.toNat a b]?
        else p.cell a b := by
  rw [Panel.consumeAll_cons, Panel.consumeAll_data, hb, Panel.ramwr_ready hl h hxs hxe hys hye]
  obtain ⟨g, he, hg⟩ := Panel.stream_fill cfg x0 y0 x1 y1 cs
    { p with rx := .stream, hi := none, full := some false, cx := some x0, cy := some y0 } x0 y0
    { active := h.1, rx := rfl, notFull := rfl, hi := rfl, xs := hxs, xe := hxe, ys := hys, ye := hye, atCx := rfl,
      atCy := rfl, colLo := le_refl _, colHi := hx, rowHi := hy, inW := hx1, inH := hy1 }
    (by rw [hlen, pixelsLeft]; ring)
  exact ⟨g, he, fun a b => (hg a b).trans (if_congr stillToCome_corner_iff rfl rfl)⟩

/-- Settles O46: `Panel.ramwr_fill` read pixel by pixel, and `Panel.frame_cells`. -/
theorem windowFill : Obligations.WindowFill := by
  refine ⟨fun cfg p x0 y0 x1 y1 cs bss hl h hxs hxe hys hye hx hx1 hy hy1 hlen hb => ?_,
    fun cfg p x0 y0 x1 y1 cs bss hl h hx0 hx hx1 hy0 hy hy1 hlen hb => ?_⟩
  · obtain ⟨g, he, hcell⟩ := Panel.ramwr_fill hl h hxs hxe hys hye hx (Nat.lt_succ_of_le hx1) hy (Nat.lt_succ_of_le hy1)
      hlen hb
    refine ⟨_, he, ⟨h.1, h.2.1, h.2.2.1, h.2.2.2.1, .inr ⟨rfl, rfl, rfl⟩⟩, rfl, fun k hk => ?_, fun a b hout => ?_⟩
    · have hcol : k % (x1.toNat - x0.toNat + 1) < x1.toNat - x0.toNat + 1 := Nat.mod_lt _ (Nat.succ_pos _)
      have hrow : k / (x1.toNat - x0.toNat + 1) < y1.toNat - y0.toNat + 1 := Nat.div_lt_of_lt_mul (hlen ▸ hk)
      refine (hcell _ _).trans ((if_pos ⟨by omega, by omega, Nat.le_add_right _ _, by omega⟩).trans ?_)
      rw [pixelPlace_of_index]
    · exact (hcell a b).trans (if_neg hout)
  · obtain ⟨hready, hfull, hcell⟩ := Panel.frame_cells hl h hx0 hx (Int.lt_add_one_of_le hx1) hy0 hy
      (Int.lt_add_one_of_le hy1) hb hlen
    exact ⟨_, rfl, hready, hfull, fun a b hw => (hcell a b).trans (if_pos hw), fun a b hw => (hcell a b).trans (if_neg hw)⟩

end Sys2Proof.Machine

/-! The exceptions' statements (spec/60_exceptions.md): a Host that waits for the Block, the non-fatal and the fatal
errors, and what the Block can see of the Panel. -/

namespace Sys2Proof.Machine

/-! ### Whose step it is (R21, R245) -/

theorem step_block {s : State} (hm : s.mover = some .block) : step s = blockStep s.popTurn := by
  simp only [step, stepOnce, hm]

theorem step_idle {s : State} (hm : s.mover = none) : step s = idleStep s.popTurn := by
  simp only [step, stepOnce, hm]

theorem State.hostEnabled_of_nil {s : State} (hp : s.host.pending = []) : s.hostEnabled = false := by
  simp [State.hostEnabled, hp]

/-- A write to REQ is enabled only where REQ is ready. -/
theorem State.hostEnabled_reqWrite {s : State} {w : Word} {rest : List HostOp}
    (hp : s.host.pending = .write 0 16 w :: rest) : s.hostEnabled = s.block.reqReady := by
  simp [State.hostEnabled, hp, HostOp.isReqWrite, accessOk]

theorem State.mover_of_not_enabled {s : State} (he : s.hostEnabled = false) :
    s.mover = if s.block.busy then some .block else none := by
  simp [State.mover, he]

/-- Where nobody can move and no access is left, the step depends on RXPEND alone (R285, R258). -/
theorem step_of_nil {s : State} (hm : s.block.mode ≠ .exec) (hp : s.host.pending = []) :
    step s = if s.block.rxpend then .fault .stuckAwaitingWords else .next s.popTurn := by
  have hmover : s.mover = none := by
    simp [State.mover_of_not_enabled (State.hostEnabled_of_nil hp), Block.busy, hm]
  rw [step_idle hmover, idleStep, if_neg (by simp [hp])]
  rfl

/-! ### The Block's own step leaves the Host's access and the packet alone -/

/-- The packet's registers of R32 are kept. -/
structure Block.SamePacket (a b : Block) : Prop where
  opc : b.opc = a.opc
  arg8 : b.arg8 = a.arg8
  opnd : b.opnd = a.opnd
  text : b.text = a.text
  need : b.need = a.need

theorem Block.SamePacket.event (b : Block) (cfg : Config) (e : BusEvent) :
    b.SamePacket (b.emit cfg e).eventDone := by
  rw [Block.eventDone_eq]
  exact ⟨rfl, rfl, rfl, rfl, rfl⟩

theorem step_block_keeps_packet {s t : State} (hm : s.mover = some .block) (h : step s = .next t) :
    t.host = s.host ∧ s.block.SamePacket t.block := by
  rw [step_block hm] at h
  cases he : s.block.events[s.block.seq]? with
  | some e =>
    rw [blockStep_event (s := s.popTurn) he] at h
    cases h
    exact ⟨rfl, Block.SamePacket.event _ _ _⟩
  | none =>
    simp only [blockStep, State.popTurn_block, he] at h
    cases h
    exact ⟨rfl, rfl, rfl, rfl, rfl, rfl⟩

/-! ### Waiting, stuck and ended runs (R245, R258, R285) -/

/-- With the Block busy, the Host's write to REQ waits. -/
theorem mover_reqWrite_busy {s : State} {w : Word} {rest : List HostOp} (hm : s.block.mode = .exec)
    (hp : s.host.pending = .write 0 16 w :: rest) : s.mover = some .block := by
  have henabled : s.hostEnabled = false := by
    simp [State.hostEnabled_reqWrite hp, Block.reqReady, Block.busy, hm]
  simp [State.mover_of_not_enabled henabled, Block.busy, hm]

/-- With the Block HALTED, the Host's write to REQ is stuck. -/
theorem step_reqWrite_halted {s : State} {w : Word} {rest : List HostOp} (hm : s.block.mode = .halted)
    (hp : s.host.pending = .write 0 16 w :: rest) : step s = .fault .stuckHalted := by
  have henabled : s.hostEnabled = false := by
    simp [State.hostEnabled_reqWrite hp, Block.reqReady, Block.halted, hm]
  have hmover : s.mover = none := by
    simp [State.mover_of_not_enabled henabled, Block.busy, hm]
  simp [step_idle hmover, idleStep, hp]

/-- A HALTED Block takes no word and emits nothing: only a block reset changes it. -/
theorem step_halted {s t : State} (hm : s.block.mode = .halted) (h : step s = .next t) :
    t.panel = s.panel ∧ (t.block = s.block ∨ (s.host.pending.head? = some .blockReset ∧ t.block = Block.reset)) := by
  cases step_result h with
  | idle | access | read => exact ⟨rfl, .inl rfl⟩
  | event e mode | pastEnd mode => simp [hm] at mode
  | blockReset head => exact ⟨rfl, .inr ⟨head, rfl⟩⟩
  | word mode => simp [hm] at mode

theorem State.Ended.mode_ne_exec {s : State} (h : s.Ended) : s.block.mode ≠ .exec := by
  rcases h.2.1 with hm | hm <;> simp [hm]

/-- A run that has ended stays ended: `step_without_words`, and a block reset leaves no packet open. -/
theorem State.Ended.step {s t : State} (h : s.Ended) (hstep : step s = .next t) : t.Ended := by
  obtain ⟨-, hpending, hblock⟩ := step_without_words h.mode_ne_exec h.1 hstep
  refine ⟨fun op hop => h.1 op (List.mem_of_mem_tail (hpending ▸ hop)), ?_⟩
  rcases hblock with hb | ⟨-, hb⟩ <;> rw [hb]
  · exact h.2
  · exact ⟨.inl rfl, rfl⟩

/-- Settles O16: a held REQ write, a HALTED Block, a packet without its words, and an ended run. -/
theorem reqWriteWaitsUntilReady : Obligations.ReqWriteWaitsUntilReady := by
  intro s
  refine ⟨fun w rest hp => ⟨fun hm => ?_, fun hm => step_reqWrite_halted hm hp⟩,
    fun hm => ⟨by simp [Block.reqReady, Block.halted, hm], fun t => step_halted hm⟩, fun hm hp => ?_,
    fun hend => ⟨fun hp => ?_, fun t h => ⟨hend.step h, ?_⟩⟩⟩
  · have hmover := mover_reqWrite_busy hm hp
    refine ⟨hmover, fun t h => ?_⟩
    obtain ⟨hhost, same⟩ := step_block_keeps_packet hmover h
    exact ⟨hhost, same.opc, same.arg8, same.opnd, same.text, same.need⟩
  · simp [step_of_nil (by simp [hm]) hp, Block.rxpend, hm]
  · have hrx : s.block.rxpend = false := by
      rcases hend.2.1 with hm | hm <;> simp [Block.rxpend, hm]
    rw [step_of_nil hend.mode_ne_exec hp, hrx]
    rfl
  · obtain ⟨hpanel, -, hblock⟩ := step_without_words hend.mode_ne_exec hend.1 h
    exact ⟨hpanel, hblock⟩

/-! ### Errors (R243, R244, R247) -/

/-- Settles O21: the step accepts the header, and R86's condition is `illegalHeader`. -/
theorem illegalHeaderRaisesTheError : Obligations.IllegalHeaderRaisesTheError := by
  intro s h rest hm hp hill
  rw [← illegalHeader_iff] at hill
  rw [step_reqWrite (.inl hm) hp]
  simp only [State.acceptWord, State.received, hm, State.acceptHeader, hill, if_true, List.drop_one]
  rfl

/-- Every request but INIT that a packet holds has an expansion. -/
theorem drawExpansion_of_decodeFields {opc arg8 : Byte} {opnd : List Word} {text : List Byte} {i : Instr}
    (h : decodeFields opc arg8 opnd text = some i) (hi : i ≠ .init) (cfg : Config) :
    ∃ E, drawExpansion cfg i = some E := by
  unfold decodeFields at h
  split at h <;> simp only [Option.some.injEq, reduceCtorEq] at h <;> subst h
  · exact absurd rfl hi
  all_goals exact ⟨_, rfl⟩

/-- Before INIT a drawing request only raises NOT_INITIALIZED. -/
theorem exec_draw_not_initialized {s : State} {i : Instr} {E : List BusEvent} (hE : drawExpansion s.cfg i = some E)
    (hi : s.block.initDone = false) : exec i s = .next (s.onBlock (·.raiseError .notInitialized)) := by
  simp [exec_draw hE, State.draw, hi]

/-- One more step after n of them. -/
theorem runSteps_succ {n : Nat} : ∀ {s t u : State}, runSteps n s = some t → step t = .next u →
    runSteps (n + 1) s = some u := by
  induction n with
  | zero =>
    intro s t u hrun hstep
    cases hrun
    simp [runSteps, hstep]
  | succ n ih =>
    intro s t u hrun hstep
    rw [runSteps] at hrun ⊢
    split at hrun
    next v hv => exact ih hrun hstep
    all_goals cases hrun

/-- Settles O22: the whole packet runs its request (`packetWordsRunTheRequest`), which has an expansion and so raises the
error. -/
theorem drawingBeforeInitRaisesTheError : Obligations.DrawingBeforeInitRaisesTheError := by
  refine ⟨fun s i E hE hi => exec_draw_not_initialized hE hi, fun s h ws i rest hd hne hm hi hp => ?_⟩
  obtain ⟨t, u, hrun, hstep, -, -, -, hpanel, henv, hhost, hblock⟩ := packetWordsRunTheRequest s h ws i rest hd hm hp
  obtain ⟨-, -, hf⟩ := decodePacket_eq_ok_iff.1 hd
  obtain ⟨E, hE⟩ := drawExpansion_of_decodeFields hf hne u.cfg
  have hui : u.block.initDone = false := by rw [hblock, hi]
  rw [exec_draw_not_initialized hE hui] at hstep
  refine ⟨_, runSteps_succ hrun hstep, hhost, rfl, rfl, rfl, hui, ?_, ?_, ?_, hpanel, henv⟩
  all_goals simp [hblock]

/-! ### Fatal events (R241, R242, R248) -/

/-- A second INIT is fatal, and reaches neither the claim nor the lines. -/
theorem State.startInit_again {s : State} (hi : s.block.initDone = true) :
    s.startInit = s.onBlock (·.raiseFatal .reinit) := by
  simp [State.startInit, hi]

/-- A refused claim is fatal, and has drawn from the Environment. -/
theorem State.startInit_refused {s : State} (hi : s.block.initDone = false) (hc : s.env.claim = false) :
    s.startInit = { s with env := s.env.drawn, block := s.block.raiseFatal .busClaimFail } := by
  simp [State.startInit, hi, hc]

/-- Settles O23: INIT's two fatal starts. -/
theorem fatalInits : Obligations.FatalInits := fun _ =>
  ⟨fun hi => congrArg Host.Outcome.next (State.startInit_again hi),
    fun hi hc => congrArg Host.Outcome.next (State.startInit_refused hi hc)⟩

/-! ### No read-back path (R251) -/

/-- Two outcomes of one kind, with the same fault or refusal, whose next states differ at most in the Panel. -/
def SameButPanel (o o' : Host.Outcome State Fault Refusal) : Prop :=
  ∃ q : Panel, o' = mapNext (·.onPanel fun _ => q) o

/-- Two outcomes that branch on the same condition. -/
theorem SameButPanel.branch {P : Prop} [Decidable P] {a b a' b' : Host.Outcome State Fault Refusal}
    (ha : SameButPanel a a') (hb : SameButPanel b b') :
    SameButPanel (if P then a else b) (if P then a' else b') := by
  by_cases h : P
  · simpa only [if_pos h] using ha
  · simpa only [if_neg h] using hb

section
variable (s : State) (p : Panel)

theorem draw_sameButPanel (E : List BusEvent) :
    SameButPanel (.next (s.draw E)) (.next ((s.onPanel fun _ => p).draw E)) := by
  refine ⟨p, congrArg Host.Outcome.next ?_⟩
  cases hi : s.block.initDone <;> simp [State.draw, hi] <;> rfl

theorem startInit_sameButPanel :
    SameButPanel (.next s.startInit) (.next (s.onPanel fun _ => p).startInit) := by
  refine ⟨p, congrArg Host.Outcome.next ?_⟩
  cases hi : s.block.initDone <;> simp [State.startInit, hi] <;> rfl

/-- A request does not reach the Panel; a Panel command reaches nothing else. -/
theorem exec_sameButPanel (i : Instr) : SameButPanel (exec i s) (exec i (s.onPanel fun _ => p)) := by
  cases i with
  | init => exact startInit_sameButPanel s p
  | clear | drawPixel | drawGlyph | drawText | drawSmallBlock | drawHline | drawVline | drawSquareOutline =>
    exact draw_sameButPanel s p _
  | slpout | colmod | madctl | dispon | caset | raset | ramwr => exact ⟨_, rfl⟩

theorem dispatch_sameButPanel : SameButPanel s.dispatch (s.onPanel fun _ => p).dispatch := by
  unfold State.dispatch
  rw [State.onPanel_block]
  cases s.block.request with
  | some i => exact exec_sameButPanel s p i
  | none => exact ⟨p, rfl⟩

theorem acceptHeader_sameButPanel (w : Word) :
    SameButPanel (s.acceptHeader w) ((s.onPanel fun _ => p).acceptHeader w) :=
  .branch ⟨p, rfl⟩ (.branch (dispatch_sameButPanel (s.onBlock (·.loadHeader w)) p) ⟨p, rfl⟩)

theorem acceptOperand_sameButPanel (w : Word) :
    SameButPanel (s.acceptOperand w) ((s.onPanel fun _ => p).acceptOperand w) :=
  .branch (dispatch_sameButPanel (s.onBlock (·.loadOperand w)) p) ⟨p, rfl⟩

theorem acceptWord_sameButPanel (w : Word) :
    SameButPanel (s.acceptWord w) ((s.onPanel fun _ => p).acceptWord w) := by
  simp only [State.acceptWord, State.onPanel_block]
  cases s.block.mode with
  | idle => exact acceptHeader_sameButPanel s p w
  | rx => exact acceptOperand_sameButPanel s p w
  | exec | halted => exact ⟨p, rfl⟩

theorem hostStep_sameButPanel : SameButPanel (hostStep s) (hostStep (s.onPanel fun _ => p)) := by
  simp only [hostStep, State.onPanel_host]
  split
  · exact ⟨p, rfl⟩
  · exact ⟨p, rfl⟩
  · exact .branch ⟨p, rfl⟩ ⟨p, rfl⟩
  · exact .branch (.branch (acceptWord_sameButPanel s.popHost p _) ⟨p, rfl⟩) ⟨p, rfl⟩

/-- The sequencer sends the event on, whatever the Panel makes of it. -/
theorem blockStep_sameButPanel : SameButPanel (blockStep s) (blockStep (s.onPanel fun _ => p)) := by
  cases he : s.block.events[s.block.seq]? with
  | some e =>
    rw [blockStep_event he, blockStep_event (s := s.onPanel fun _ => p) he]
    exact ⟨_, rfl⟩
  | none =>
    simp only [blockStep, State.onPanel_block, he]
    exact ⟨p, rfl⟩

theorem idleStep_sameButPanel : SameButPanel (idleStep s) (idleStep (s.onPanel fun _ => p)) :=
  .branch ⟨p, rfl⟩ (.branch ⟨p, rfl⟩ ⟨p, rfl⟩)

/-- Who moves does not depend on the Panel, and no agent's move but the Panel's own does. -/
theorem step_sameButPanel : SameButPanel (step s) (step (s.onPanel fun _ => p)) := by
  have hmover : (s.onPanel fun _ => p).mover = s.mover := rfl
  simp only [step, stepOnce, hmover]
  cases s.mover with
  | none => exact idleStep_sameButPanel s.popTurn p
  | some agent =>
    cases agent with
    | host => exact hostStep_sameButPanel s.popTurn p
    | block => exact blockStep_sameButPanel s.popTurn p

end

/-- Settles O48: the two steps are `SameButPanel`. -/
theorem nothingFlowsBackFromThePanel : Obligations.NothingFlowsBackFromThePanel := by
  intro s p
  obtain ⟨q, hq⟩ := step_sameButPanel s p
  have hstep : step { s with panel := p } = mapNext (·.onPanel fun _ => q) (step s) := hq
  refine ⟨fun t h => ?_, fun f h => ?_, fun r h => ?_⟩ <;> rw [hstep, h]
  · exact ⟨_, rfl, rfl, rfl, rfl, rfl, rfl⟩
  all_goals rfl

end Sys2Proof.Machine

/-! The statements of spec/70_reset_and_hazards.md: block reset and the state after it, and the bytes that the requests
put on the wire. -/

namespace Sys2Proof.Machine

/-! ### Block reset (R270, R271) -/

/-- Whatever the Block is doing, a block reset that the Host may make takes the Block to its reset value. -/
theorem step_blockReset {s : State} {rest : List HostOp} (hm : s.mover = some .host)
    (hp : s.host.pending = .blockReset :: rest) : step s = .next s.popTurn.popHost.blockReset := by
  simp [step_host hm, hostStep, hp]

theorem Block.status_reset : Block.reset.status = 0x0000 := by decide

/-- WIDTH holds R29's constant in every Block. -/
theorem Block.readReg_width (b : Block) : b.readReg 4 = 0x00A0 := b.readReg_eq 4

/-- HEIGHT holds R29's constant in every Block. -/
theorem Block.readReg_height (b : Block) : b.readReg 6 = 0x0080 := b.readReg_eq 6

/-- Settles O17: by `step_blockReset` the next Block is `Block.reset`, and only the Block and the Host's list changed. -/
theorem blockResetKeepsThePanel : Obligations.BlockResetKeepsThePanel := by
  intro s rest hm hp
  refine ⟨_, step_blockReset hm hp, rfl, rfl, rfl, ?host, Block.status_reset, Block.readReg_width _,
    Block.readReg_height _, ?fields⟩
  case host => simp [hp]
  case fields => and_intros <;> rfl

/-- Settles O19: the fields of `Block.reset` and `Panel.powerUp`; an empty GRAM has every cell at no value. -/
theorem resetState : Obligations.ResetState :=
  ⟨Block.status_reset, rfl, rfl, rfl, rfl, rfl, rfl, rfl, rfl, rfl, rfl, rfl, rfl, rfl,
    Block.readReg_width _, Block.readReg_height _,
    rfl, rfl, rfl, rfl, rfl, rfl, rfl, rfl, rfl, rfl, rfl, rfl, rfl, rfl, rfl, rfl, rfl, rfl, rfl,
    Panel.cell_of_gram_nil rfl⟩

/-! ### Bytes on the wire (R129, R162, R282) -/

theorem wireCount_append (es fs : List BusEvent) : wireCount (es ++ fs) = wireCount es + wireCount fs := by
  simp [wireCount]

theorem wireCount_replicate (n : Nat) (e : BusEvent) :
    wireCount (List.replicate n e) = n * (wireBytes e).length := by
  simp [wireCount]

/-- SetWindow is three command bytes and two times four bound bytes (R129). -/
theorem wireCount_setWindow (cfg : Config) (x0 y0 x1 y1 : Int) : wireCount (setWindow cfg x0 y0 x1 y1) = 11 := rfl

/-- A window with its one data event. -/
theorem wireCount_window (cfg : Config) (x0 y0 x1 y1 : Int) (bs : List Byte) :
    wireCount (setWindow cfg x0 y0 x1 y1 ++ [.data bs]) = 11 + bs.length := by
  rw [wireCount_append, wireCount_setWindow]
  rfl

theorem wireCount_clearEvents (cfg : Config) (c : Word) : wireCount (clearEvents cfg c) = 40971 := by
  rw [clearEvents, wireCount_append, wireCount_setWindow, wireCount_replicate, wireBytes, length_packRun]
  rfl

theorem wireCount_pixelEvents (cfg : Config) {x y : Int} (hx : inX x) (hy : inY y) (c : Word) :
    wireCount (pixelEvents cfg x y c) = 13 := by
  rw [pixelEvents, if_pos ⟨hx, hy⟩, wireCount_window, length_pack]

theorem wireCount_glyphEvents (cfg : Config) {x y : Int} (h : 0 ≤ x ∧ x ≤ 152 ∧ 0 ≤ y ∧ y ≤ 120) (code : Byte)
    (fg bg : Word) : wireCount (glyphEvents cfg code x y fg bg) = 139 := by
  rw [glyphEvents_eq, if_pos h, wireCount_window, length_raster]

/-- A run inside the screen: two bytes a pixel after its window. -/
theorem wireCount_hlineEvents (cfg : Config) {xs xe y : Int} (h0 : 0 ≤ xs) (hle : xs ≤ xe) (h1 : xe ≤ 159) (hy : inY y)
    (c : Word) : wireCount (hlineEvents cfg xs xe y c) = 11 + 2 * (xe - xs + 1).toNat := by
  rw [hlineEvents_eq, max_eq_left h0, min_eq_left h1, if_pos ⟨hy.1, hy.2, hle⟩, wireCount_window, length_packRun]

theorem delayCount_powerOn (cfg : Config) : delayCount (powerOn cfg) = cfg.tRstLow + cfg.tRstHigh + cfg.tSlpout := by
  simp [delayCount, powerOn, resetEvents, Nat.add_assoc]

/-- Settles O60: each expansion that is not empty is `setWindow`'s 11 bytes and its pixels, two bytes each. -/
theorem wireCounts : Obligations.WireCounts := fun cfg c fg bg =>
  ⟨rfl, delayCount_powerOn cfg, fun _ _ _ _ => rfl, wireCount_clearEvents cfg c, length_clearEvents cfg c,
    fun _ _ hx hy => wireCount_pixelEvents cfg hx hy c,
    fun code _ _ h0 h1 h2 h3 => wireCount_glyphEvents cfg ⟨h0, h1, h2, h3⟩ code fg bg,
    fun _ hy => wireCount_hlineEvents cfg (le_refl 0) (by decide) (le_refl 159) hy c⟩

end Sys2Proof.Machine
